-- ==== Sys2Proof/Word.lean ====
section
/-! DEFINITION. The operation word (30_encoding.md R89) and what travels beside it on port `IN`
(30_encoding.md R91). -/

namespace Sys2Proof

/-- An operation word: 32 bits, one length and one format (R89). -/
abbrev Word := BitVec 32

/-- One unit of transfer on port `IN`: the word and its two sidebands `T` and `DELTA` (R91).
The bit format of a sideband is the open parameter `REAL_ENC`, so a sideband holds the rational
itself (log 6). Only a XING word reads its sidebands. -/
structure PortWord where
  word : Word
  t : ℚ
  delta : ℚ
  deriving DecidableEq, Repr

end Sys2Proof
end

