-- ==== Sys2Proof/Syntax.lean ====
section
/-! DEFINITION. The alphabets of the operands and the instructions: one constructor per row of
spec/opcode_table.json (30_encoding.md R80, R100). -/

namespace Sys2Proof

/-- The direction of a crossing: RISING is to positive, FALLING to negative (R88). -/
inductive Dir where
  | rising
  | falling
  deriving DecidableEq, Repr

/-- A bit token's value: 0, 1 or the malformed bit X, which only a host produces (R80, R176). -/
inductive BitVal where
  | zero
  | one
  | x
  deriving DecidableEq, Repr

/-- The four phase symbols (R6 `ALPHABET`, R82). -/
inductive Letter where
  | a
  | b
  | c
  | d
  deriving DecidableEq, Repr

/-- The value of a SYM token: a phase symbol, or UNDEC, the mark `-` of an undecodable group (R80). -/
inductive Sym where
  | letter (l : Letter)
  | undec
  deriving DecidableEq, Repr

/-- The six modes of a pass (10_state.md R23, R98). -/
inductive Mode where
  | edge
  | cat
  | synth
  | zcdOnly
  | etdOnly
  | sdOnly
  deriving DecidableEq, Repr

/-- The operation words with their operands, one constructor per row of the opcode table (R100). -/
inductive Instr where
  /-- NOP (R95). -/
  | nop
  /-- RESET (R96). -/
  | reset
  /-- CFGWR: register number and unsigned 24-bit value (R97). -/
  | cfgwr (n : BitVec 4) (val : BitVec 24)
  /-- START: the mode of the pass (R98). -/
  | start (m : Mode)
  /-- END (R94). -/
  | endOfStream
  /-- SAMPLE: a signed integer that fits 24 bits (R80, R90). -/
  | sample (v : Int)
  /-- XING: the direction, and the sidebands `T` and `DELTA` (R91). -/
  | xing (dir : Dir) (t delta : ℚ)
  /-- BIT: 0, 1 or X (R92). -/
  | bit (b : BitVal)
  /-- SYM: A, B, C, D or UNDEC (R93). -/
  | sym (s : Sym)
  /-- DIAG, an output token whose word is refused on `IN` (R99). -/
  | diag (kind : BitVec 4) (seq : BitVec 24)
  deriving DecidableEq, Repr

end Sys2Proof
end

