-- ==== Sys2Proof/WellFormed.lean ====
section
/-! DEFINITION. Which instructions an operation word can carry: the ranges of the operands that their
types leave wider than the spec does (30_encoding.md R80). -/

namespace Sys2Proof

/-- The range of a sample: `-2^23 ≤ v ≤ 2^23 - 1` (R80, R90). -/
def sampleInRange (v : Int) : Bool := decide (-8388608 ≤ v) && decide (v ≤ 8388607)

/-- An instruction whose operands lie in the ranges of R80: a sample fits 24 bits, and a crossing's
`delta` is not negative (R91). -/
def Instr.wellFormed : Instr → Bool
  | .nop => true
  | .reset => true
  | .cfgwr _ _ => true
  | .start _ => true
  | .endOfStream => true
  | .sample v => sampleInRange v
  | .xing _ _ delta => decide (0 ≤ delta)
  | .bit _ => true
  | .sym _ => true
  | .diag _ _ => true

end Sys2Proof
end

