-- ==== Sys2Proof/Decode.lean ====
section
/-! DEFINITION. Decoding is total (30_encoding.md R105): every word is an instruction or is rejected by a
name. After it the encoder, written from the same rules R89 to R99. PIPE refuses what is rejected here
(40_pipeline_control.md R122); the decoder itself never depends on state (R102). -/

namespace Sys2Proof

/-! ### The fields of a word (R89) -/

/-- `W[31:28]`, the opcode. -/
def opField (w : Word) : BitVec 4 := w.extractLsb' 28 4

/-- `W[27:24]`, a register number or a kind. -/
def aField (w : Word) : BitVec 4 := w.extractLsb' 24 4

/-- `W[23:0]`, the immediate. -/
def immField (w : Word) : BitVec 24 := w.extractLsb' 0 24

/-- The word with the given fields. -/
def packWord (op a : BitVec 4) (imm : BitVec 24) : Word := op ++ a ++ imm

/-! ### Byte order on a byte-wide bus (20_memory.md R63) -/

/-- The four bytes of a word, bits 7:0 first. -/
def wordBytes (w : Word) : List (BitVec 8) :=
  [w.extractLsb' 0 8, w.extractLsb' 8 8, w.extractLsb' 16 8, w.extractLsb' 24 8]

/-- The word of four bytes, bits 7:0 first. -/
def bytesWord (b0 b1 b2 b3 : BitVec 8) : Word := b3 ++ b2 ++ b1 ++ b0

/-! ### Codes of the operands -/

/-- The number of a mode (R98). -/
def Mode.code : Mode → Nat
  | .edge => 0
  | .cat => 1
  | .synth => 2
  | .zcdOnly => 3
  | .etdOnly => 4
  | .sdOnly => 5

/-- The mode of a number; 6 and 7 are reserved (R98). -/
def Mode.ofCode : Nat → Option Mode
  | 0 => some .edge
  | 1 => some .cat
  | 2 => some .synth
  | 3 => some .zcdOnly
  | 4 => some .etdOnly
  | 5 => some .sdOnly
  | _ => none

/-- The code of a direction, equal to the bit ETD emits for it (R88, R91). -/
def Dir.code : Dir → Nat
  | .rising => 0
  | .falling => 1

/-- The direction of a code (R91). -/
def Dir.ofCode : Nat → Option Dir
  | 0 => some .rising
  | 1 => some .falling
  | _ => none

/-- The code of a bit value (R92). -/
def BitVal.code : BitVal → Nat
  | .zero => 0
  | .one => 1
  | .x => 2

/-- The bit value of a code; 3 is reserved (R92). -/
def BitVal.ofCode : Nat → Option BitVal
  | 0 => some .zero
  | 1 => some .one
  | 2 => some .x
  | _ => none

/-- The index of a phase symbol: A, B, C, D in that order (R82). -/
def Letter.index : Letter → Nat
  | .a => 0
  | .b => 1
  | .c => 2
  | .d => 3

/-- The code of a SYM word (R93). -/
def Sym.code : Sym → Nat
  | .letter l => l.index
  | .undec => 4

/-- The symbol of a code; 5 to 7 are reserved (R93). -/
def Sym.ofCode : Nat → Option Sym
  | 0 => some (.letter .a)
  | 1 => some (.letter .b)
  | 2 => some (.letter .c)
  | 3 => some (.letter .d)
  | 4 => some .undec
  | _ => none

/-! ### The decoder -/

/-- Why a word is no instruction (R101). -/
inductive DecodeError where
  /-- `op` is 0xA to 0xF. -/
  | reservedOpcode
  /-- A field that the word's rule says is 0 is not 0. -/
  | nonzeroField
  /-- START mode 6 or 7, BIT code 3, SYM code 5 to 7. -/
  | reservedCode
  /-- The sideband `DELTA` of a XING word is negative, which R91 excludes (log 5). -/
  | negativeDelta
  /-- Fewer than four bytes were given. -/
  | truncated
  deriving DecidableEq, Repr

/-- A word whose `a` and `imm` must both be 0 (R94 to R96). -/
def decodePlain (i : Instr) (w : Word) : Except DecodeError Instr :=
  if aField w = 0 ∧ immField w = 0 then .ok i else .error .nonzeroField

/-- A word whose `a` must be 0 and whose immediate is a code of `width` bits (R91 to R93, R98). -/
def decodeCode {α : Type} (width : Nat) (ofCode : Nat → Option α) (build : α → Instr) (w : Word) :
    Except DecodeError Instr :=
  if aField w = 0 ∧ (immField w).toNat < 2 ^ width then
    match ofCode (immField w).toNat with
    | some x => .ok (build x)
    | none => .error .reservedCode
  else .error .nonzeroField

/-- The SAMPLE word: the immediate is sign extended from 24 bits, without scaling (R90). -/
def decodeSample (w : Word) : Except DecodeError Instr :=
  if aField w = 0 then .ok (.sample (immField w).toInt) else .error .nonzeroField

/-- The XING word with its sidebands (R91). -/
def decodeXing (p : PortWord) : Except DecodeError Instr :=
  if 0 ≤ p.delta then decodeCode 1 Dir.ofCode (fun d => .xing d p.t p.delta) p.word
  else .error .negativeDelta

/-- The instruction of a word, or the name of what is wrong with it (R105). The register number and the
value of CFGWR, the code 4 of SYM and every DIAG word pass here: the meanings of those instructions
refuse them (R101, R105, log 4). -/
def decode (p : PortWord) : Except DecodeError Instr :=
  match (opField p.word).toNat with
  | 0 => decodePlain .nop p.word
  | 1 => decodePlain .reset p.word
  | 2 => .ok (.cfgwr (aField p.word) (immField p.word))
  | 3 => decodeCode 3 Mode.ofCode .start p.word
  | 4 => decodePlain .endOfStream p.word
  | 5 => decodeSample p.word
  | 6 => decodeXing p
  | 7 => decodeCode 2 BitVal.ofCode .bit p.word
  | 8 => decodeCode 3 Sym.ofCode .sym p.word
  | 9 => .ok (.diag (aField p.word) (immField p.word))
  | _ => .error .reservedOpcode

/-- Decoding a byte stream: the instruction of the first four bytes, read little-endian (20_memory.md
R63), and the bytes after them. -/
def decodeBytes (t delta : ℚ) : List (BitVec 8) → Except DecodeError (Instr × List (BitVec 8))
  | b0 :: b1 :: b2 :: b3 :: rest =>
    match decode ⟨bytesWord b0 b1 b2 b3, t, delta⟩ with
    | .ok i => .ok (i, rest)
    | .error e => .error e
  | _ => .error .truncated

/-! ### The encoder -/

/-- The word of an instruction whose sidebands carry nothing. -/
def plainWord (op a : BitVec 4) (imm : BitVec 24) : PortWord := ⟨packWord op a imm, 0, 0⟩

/-- The word of an instruction, and for XING its sidebands (R90 to R99). -/
def encode : Instr → PortWord
  | .nop => plainWord 0 0 0
  | .reset => plainWord 1 0 0
  | .cfgwr n val => plainWord 2 n val
  | .start m => plainWord 3 0 (BitVec.ofNat 24 m.code)
  | .endOfStream => plainWord 4 0 0
  | .sample v => plainWord 5 0 (BitVec.ofInt 24 v)
  | .xing d t delta => ⟨packWord 6 0 (BitVec.ofNat 24 d.code), t, delta⟩
  | .bit b => plainWord 7 0 (BitVec.ofNat 24 b.code)
  | .sym s => plainWord 8 0 (BitVec.ofNat 24 s.code)
  | .diag kind seq => plainWord 9 kind seq

/-! ### Mask and match (R105) -/

/-- A row of the opcode table: a word belongs to it when `w &&& mask = pattern`. -/
structure MaskRow where
  mnemonic : String
  mask : Word
  pattern : Word
  deriving DecidableEq, Repr

/-- A word belongs to a row. -/
def MaskRow.covers (r : MaskRow) (w : Word) : Bool := w &&& r.mask == r.pattern

/-- The mask-and-match pairs as R105 lists them. -/
def maskRows : List MaskRow :=
  [⟨"NOP", 0xFFFFFFFF#32, 0x00000000#32⟩,
   ⟨"RESET", 0xFFFFFFFF#32, 0x10000000#32⟩,
   ⟨"CFGWR", 0xF0000000#32, 0x20000000#32⟩,
   ⟨"START", 0xFFFFFFF8#32, 0x30000000#32⟩,
   ⟨"END", 0xFFFFFFFF#32, 0x40000000#32⟩,
   ⟨"SAMPLE", 0xFF000000#32, 0x50000000#32⟩,
   ⟨"XING", 0xFFFFFFFE#32, 0x60000000#32⟩,
   ⟨"BIT", 0xFFFFFFFC#32, 0x70000000#32⟩,
   ⟨"SYM", 0xFFFFFFF8#32, 0x80000000#32⟩,
   ⟨"DIAG", 0xF0000000#32, 0x90000000#32⟩]

/-- The mnemonic of an instruction, as the opcode table spells it (R100). -/
def Instr.mnemonic : Instr → String
  | .nop => "NOP"
  | .reset => "RESET"
  | .cfgwr _ _ => "CFGWR"
  | .start _ => "START"
  | .endOfStream => "END"
  | .sample _ => "SAMPLE"
  | .xing _ _ _ => "XING"
  | .bit _ => "BIT"
  | .sym _ => "SYM"
  | .diag _ _ => "DIAG"

/-! ### The host's question about a table word -/

/-- The word that a table row's bits stand for: the low `nbits` bits of `w`, every bit above them 0. -/
def tableWord (nbits w : Nat) : Word := BitVec.ofNat 32 (w % 2 ^ nbits)

/-- The instruction the decoder reads from a table word, laid out as its four bytes (20_memory.md R63), with both
sidebands 0 (log 1). -/
def decodeTableWord (nbits w : Nat) : Option Instr :=
  match decodeBytes 0 0 (wordBytes (tableWord nbits w)) with
  | .ok (i, _) => some i
  | .error _ => none

end Sys2Proof
end

