-- ==== Sys2Proof/Config.lean ====
section
/-! DEFINITION. The constants of the block (00_scope.md R6), each a named constant so that a later audit
of a literal changes one definition (93_implementation_defined.md U8). They are no state
(10_state.md R21). -/

namespace Sys2Proof.Config

/-- `NOISE_THR`: a sample with `abs(v) < 10` is noise to ZCD (R6, R141). -/
def noiseThr : Int := 10

/-- `ZCD_FIRST_HALF`: the first-crossing special case subtracts it from the after index (R6, R142). -/
def zcdFirstHalf : ℚ := 1 / 2

/-- `PEAK_THR`: the bootstrap threshold of CD, a signed comparison (R6, R201). -/
def peakThr : Int := 50

/-- `HIGH_FACTOR`: highAmplitude is exactly 7/10 of the peak (R6, R196, U2). -/
def highFactor : ℚ := 7 / 10

/-- `LOW_FACTOR`: lowAmplitude is exactly 1/2 of the peak (R6, R196, U2). -/
def lowFactor : ℚ := 1 / 2

/-- `SLOPE_DIV`: the mid-band slope threshold is `highAmplitude / (4 * samplesPerSymbol)` (R6, R205). -/
def slopeDiv : ℚ := 4

/-- `AFC_DEADBAND`: half a sample (R6, R207, R210). -/
def afcDeadband : ℚ := 1 / 2

/-- `BLEND_START`: 3/5 turn, the weight is 0 until here (R6, R244). -/
def blendStart : ℚ := 3 / 5

/-- `BLEND_END`: 9/10 turn, the weight is 1 from here (R6, R244). -/
def blendEnd : ℚ := 9 / 10

/-- `SD_FRAME`: the raw bits of a live symbol, live and filler (R6, R177). -/
abbrev sdFrame : Nat := 4

/-- `SD_FRAME`: of them the first two are live, the others filler (R6, R177). -/
abbrev sdLive : Nat := 2

/-- `SAMPLE_BITS`: the width of a sample at the external source (R6, 30_encoding.md R86). -/
abbrev sampleBits : Nat := 8

/-- `ROUND`: `round(x) = floor(x + 1/2)`, ties toward plus infinity (R8, R9). -/
def round (x : ℚ) : Int := ⌊x + 1 / 2⌋

end Sys2Proof.Config
end

