-- ==== Sys2Proof/Machine/State.lean ====
section
/-! DEFINITION. The state of the block: every register of 10_state.md R23 to R30, the configuration registers of
R40 and the channels of 20_memory.md R61, as plain data, with the reset values of R44. -/

namespace Sys2Proof.Machine

/-! ### PIPE (R23, R25) -/

/-- `PIPE.st`, the pass state. -/
inductive PassState where
  | idle
  | run
  | done
  | faulted
  deriving DecidableEq, Repr

/-- `PIPE.cause`, the cause of the last fatal failure (60_exceptions.md R261). -/
inductive Cause where
  | none
  | zeroSlope
  | ambiguous
  | noMatch
  deriving DecidableEq, Repr

/-- `PIPE.info`, the detail of the last fatal failure (60_exceptions.md R271). -/
structure Info where
  period : Nat
  slot : Fin 4
  value : ℚ
  slope : ℚ
  deriving DecidableEq, Repr

/-- `PIPE.flags`, four sticky diagnostic flags (R25). -/
structure Flags where
  unc : Bool
  badgrp : Bool
  illop : Bool
  cfgerr : Bool
  deriving DecidableEq, Repr

/-- The registers of PIPE (R23). -/
structure Pipe where
  st : PassState
  mode : Mode
  wc : Nat
  cause : Cause
  info : Info
  flags : Flags
  deriving DecidableEq, Repr

/-! ### The units (R26 to R30) -/

/-- `ZCD.pol`, the sign of the last significant sample. -/
inductive Polarity where
  | none
  | pos
  | neg
  deriving DecidableEq, Repr

/-- The index and the value of a sample. -/
structure Mark where
  i : Nat
  v : Int
  deriving DecidableEq, Repr

/-- The registers of ZCD (R26). -/
structure Zcd where
  idx : Nat
  pol : Polarity
  lastPos : Mark
  lastNeg : Mark
  haveX : Bool
  lastT : ℚ
  deriving DecidableEq, Repr

/-- The register of ETD (R27). -/
structure Etd where
  seq : Nat
  deriving DecidableEq, Repr

/-- `SD.st`. -/
inductive SyncState where
  | hunt
  | synced
  deriving DecidableEq, Repr

/-- The registers of SD (R28). `slot` is the place in a frame of `SD_FRAME` bits (00_scope.md R6). -/
structure Sd where
  st : SyncState
  prev1 : Bool
  pos : Nat
  syncpos : Nat
  slot : Fin Config.sdFrame
  b1 : BitVal
  deriving DecidableEq, Repr

/-- `CD.ph`. -/
inductive CdPhase where
  | seek
  | climb
  | decode
  deriving DecidableEq, Repr

/-- `CD.shift`, the set `SHIFT_SET` of 00_scope.md R6. -/
inductive Shift where
  | minus
  | zero
  | plus
  deriving DecidableEq, Repr

/-- The registers of CD (R29). -/
structure Cd where
  ph : CdPhase
  q : List Int
  prev : Int
  peak : Int
  high : ℚ
  low : ℚ
  shift : Shift
  period : Nat
  deriving DecidableEq, Repr

/-- The registers of PS (R30). -/
structure Ps where
  holding : Bool
  cur : Letter
  deriving DecidableEq, Repr

/-! ### Configuration registers (R40) -/

/-- The configuration registers 0 to 12, each an unsigned 24-bit integer. Registers 13 to 15 are hard-wired
and have no storage: `Cfg.read` answers 0 for them. -/
structure Cfg where
  spbNum : BitVec 24
  spbDen : BitVec 24
  muNum : BitVec 24
  muDen : BitVec 24
  spsNum : BitVec 24
  spsDen : BitVec 24
  thrCtl : BitVec 24
  highNum : BitVec 24
  lowNum : BitVec 24
  thrDen : BitVec 24
  psCarrier : BitVec 24
  psRate : BitVec 24
  psAmp : BitVec 24
  deriving DecidableEq, Repr

/-! ### Tokens and channels (30_encoding.md R80, 20_memory.md R61) -/

/-- The fields of a XING token (R80). -/
structure Xing where
  dir : Dir
  t : ℚ
  delta : ℚ
  deriving DecidableEq, Repr

/-- A token of a channel that carries one kind of data token and END (R61). -/
inductive Item (α : Type) where
  | tok (x : α)
  | fin
  deriving DecidableEq, Repr

/-- A token of `OUT`: the product of a pass, then END (R61). -/
inductive Token where
  | sample (v : Int)
  | xing (x : Xing)
  | bit (b : BitVal)
  | sym (s : Sym)
  | fin
  deriving DecidableEq, Repr

/-- The kinds of a DIAG token (R80, 60_exceptions.md R262). -/
inductive DiagKind where
  | unc
  | badgrp
  | illop
  | cfgerr
  deriving DecidableEq, Repr

/-- A DIAG token, with its full sequence number (R99). -/
structure Diag where
  kind : DiagKind
  seq : Nat
  deriving DecidableEq, Repr

/-- The contents of the channels, oldest token first (20_memory.md R61); every queue is unbounded (R62). -/
structure Channels where
  inp : List PortWord
  zcdIn : List (Item Int)
  etdIn : List (Item Xing)
  sdIn : List (Item BitVal)
  cdIn : List (Item Int)
  psIn : List (Item Letter)
  out : List Token
  tapX : List (Item Xing)
  tapB : List (Item BitVal)
  diag : List Diag
  deriving DecidableEq, Repr

/-! ### The whole state (R21) -/

/-- The state of the block. -/
structure State where
  pipe : Pipe
  cfg : Cfg
  zcd : Zcd
  etd : Etd
  sd : Sd
  cd : Cd
  ps : Ps
  ch : Channels
  deriving DecidableEq, Repr

/-- The faults of the interface. The block has none: its three fatal failures are trap entries, next states
(60_exceptions.md R264, R270), so no constructor exists and nothing raises a fault (log 12). -/
inductive Fault where
  deriving DecidableEq, Repr

/-- The refusals of the interface. A word the block refuses is a next state (40_pipeline_control.md R122). -/
inductive Refusal where
  /-- Raised by an arm of `exec` that has no meaning yet; no arm raises it. Safe: the model stops. -/
  | notModelled (mnemonic : String)
  deriving DecidableEq, Repr

/-! ### Reset values (R44, 70_reset_and_hazards.md R291) -/

/-- The info record with nothing in it. -/
def Info.reset : Info := ⟨0, 0, 0, 0⟩

/-- All four flags cleared. -/
def Flags.reset : Flags := ⟨false, false, false, false⟩

def Pipe.reset : Pipe := ⟨.idle, .edge, 0, .none, Info.reset, Flags.reset⟩

def Zcd.reset : Zcd := ⟨0, .none, ⟨0, 0⟩, ⟨0, 0⟩, false, 0⟩

def Etd.reset : Etd := ⟨0⟩

def Sd.reset : Sd := ⟨.hunt, false, 0, 0, 0, .zero⟩

def Cd.reset : Cd := ⟨.seek, [], 0, 0, 0, 0, .zero, 0⟩

def Ps.reset : Ps := ⟨false, .a⟩

/-- `CFG = (0, 1, 1, 3, 0, 1, 0, 0, 0, 1, 0, 0, 0, …)` (R291). -/
def Cfg.reset : Cfg := ⟨0, 1, 1, 3, 0, 1, 0, 0, 0, 1, 0, 0, 0⟩

def Channels.empty : Channels := ⟨[], [], [], [], [], [], [], [], [], []⟩

/-- The machine right after power-on: every register at its reset value and every channel empty (R44, R291). -/
def State.reset : State :=
  ⟨Pipe.reset, Cfg.reset, Zcd.reset, Etd.reset, Sd.reset, Cd.reset, Ps.reset, Channels.empty⟩

end Sys2Proof.Machine
end

