-- ==== Sys2Proof/Machine/Flags.lean ====
section
/-! DEFINITION. The sticky flags (10_state.md R25), the packed status word and the two lines (R43,
60_exceptions.md R267). No operation reads any of them. -/

namespace Sys2Proof.Machine

/-- Setting the flag of a diagnostic kind (R25). -/
def Flags.raise (f : Flags) : DiagKind → Flags
  | .unc => { f with unc := true }
  | .badgrp => { f with badgrp := true }
  | .illop => { f with illop := true }
  | .cfgerr => { f with cfgerr := true }

/-- The flag of a diagnostic kind. -/
def Flags.get (f : Flags) : DiagKind → Bool
  | .unc => f.unc
  | .badgrp => f.badgrp
  | .illop => f.illop
  | .cfgerr => f.cfgerr

/-- What an accepted START does to the flags: UNC, BADGRP and CFGERR are cleared, ILLOP is kept (R25, R44). -/
def Flags.startPass (f : Flags) : Flags := { f with unc := false, badgrp := false, cfgerr := false }

/-- The number of a pass state (R23). -/
def PassState.code : PassState → Nat
  | .idle => 0
  | .run => 1
  | .done => 2
  | .faulted => 3

/-- The number of a cause (R23, 60_exceptions.md R261). -/
def Cause.code : Cause → Nat
  | .none => 0
  | .zeroSlope => 1
  | .ambiguous => 2
  | .noMatch => 3

/-- The kind number of a DIAG token (30_encoding.md R99). -/
def DiagKind.code : DiagKind → Nat
  | .unc => 1
  | .badgrp => 2
  | .illop => 3
  | .cfgerr => 4

/-- The packed status word: `STATUS[1:0] = st`, `[4:2] = mode`, `[6:5] = cause`, `[7] = 0`, `[8] = UNC`,
`[9] = BADGRP`, `[10] = ILLOP`, `[11] = CFGERR`, `[31:12] = 0` (R43). -/
def State.statusWord (s : State) : BitVec 32 :=
  (0#20) ++ BitVec.ofBool s.pipe.flags.cfgerr ++ BitVec.ofBool s.pipe.flags.illop
    ++ BitVec.ofBool s.pipe.flags.badgrp ++ BitVec.ofBool s.pipe.flags.unc ++ (0#1)
    ++ BitVec.ofNat 2 s.pipe.cause.code ++ BitVec.ofNat 3 s.pipe.mode.code
    ++ BitVec.ofNat 2 s.pipe.st.code

/-- The level line `FATAL`: 1 exactly while `PIPE.st = FAULTED` (60_exceptions.md R267). -/
def State.fatalLine (s : State) : Bool := decide (s.pipe.st = .faulted)

/-- The line `DIAG_VALID`: 1 exactly while the channel `DIAG` is not empty (60_exceptions.md R267). -/
def State.diagValid (s : State) : Bool := !s.ch.diag.isEmpty

end Sys2Proof.Machine
end

