-- ==== Sys2Proof/Machine/Operands.lean ====
section
/-! DEFINITION. How an operation reads its operands: the configuration registers by number (10_state.md R40), the
named rational values (R41), the configuration check of START (40_pipeline_control.md R117) and the indexed
access `getSample`, the block's one addressing mode (44_categorizing_demodulator.md R204). -/

namespace Sys2Proof.Machine

/-! ### The configuration register file (R40) -/

/-- `CFG[n]`; the reserved registers 13 to 15 read as 0 (R40, U13). -/
def Cfg.read (c : Cfg) (n : BitVec 4) : BitVec 24 :=
  match n.toNat with
  | 0 => c.spbNum
  | 1 => c.spbDen
  | 2 => c.muNum
  | 3 => c.muDen
  | 4 => c.spsNum
  | 5 => c.spsDen
  | 6 => c.thrCtl
  | 7 => c.highNum
  | 8 => c.lowNum
  | 9 => c.thrDen
  | 10 => c.psCarrier
  | 11 => c.psRate
  | 12 => c.psAmp
  | _ => 0

/-- `CFG[n] <- val`; the reserved registers have no storage (R40). -/
def Cfg.write (c : Cfg) (n : BitVec 4) (val : BitVec 24) : Cfg :=
  match n.toNat with
  | 0 => { c with spbNum := val }
  | 1 => { c with spbDen := val }
  | 2 => { c with muNum := val }
  | 3 => { c with muDen := val }
  | 4 => { c with spsNum := val }
  | 5 => { c with spsDen := val }
  | 6 => { c with thrCtl := val }
  | 7 => { c with highNum := val }
  | 8 => { c with lowNum := val }
  | 9 => { c with thrDen := val }
  | 10 => { c with psCarrier := val }
  | 11 => { c with psRate := val }
  | 12 => { c with psAmp := val }
  | _ => c

/-- The register number and value CFGWR may write: not 13 to 15, `THR_CTL ≤ 1`, `PS_AMP ≤ 2^23 - 1`
(40_pipeline_control.md R114). -/
def cfgWritable (n : BitVec 4) (val : BitVec 24) : Bool :=
  decide (n.toNat ≤ 12) && (decide (n.toNat ≠ 6) || decide (val.toNat ≤ 1))
    && (decide (n.toNat ≠ 12) || decide (val.toNat ≤ 2 ^ 23 - 1))

/-! ### Named configuration values (R41) -/

/-- The exact quotient of two configuration registers. -/
def quotient (num den : BitVec 24) : ℚ := (num.toNat : ℚ) / (den.toNat : ℚ)

/-- `SPB`, samplesPerBit. -/
def Cfg.spb (c : Cfg) : ℚ := quotient c.spbNum c.spbDen

/-- `MU`, maxUncertainty. -/
def Cfg.mu (c : Cfg) : ℚ := quotient c.muNum c.muDen

/-- `SPS`, samplesPerSymbol. -/
def Cfg.sps (c : Cfg) : ℚ := quotient c.spsNum c.spsDen

/-- `HIGH`, the manual highAmplitude. -/
def Cfg.high (c : Cfg) : ℚ := quotient c.highNum c.thrDen

/-- `LOW`, the manual lowAmplitude. -/
def Cfg.low (c : Cfg) : ℚ := quotient c.lowNum c.thrDen

/-- `PS_CARRIER / PS_RATE`, turns per sample (45_phase_synthesizer.md R241). -/
def Cfg.step (c : Cfg) : ℚ := quotient c.psCarrier c.psRate

/-- `THR_CTL.MANUAL`, bit 0 of `CFG[6]`. -/
def Cfg.manual (c : Cfg) : Bool := c.thrCtl.getLsbD 0

/-! ### The configuration check of START (R117) -/

/-- The period-length condition of CAT: `floor(N/2) + 1 ≤ ceil(N) - 2`. -/
def periodLegal (n : ℚ) : Bool := decide (⌊n / 2⌋ + 1 ≤ ⌈n⌉ - 2)

/-- `CfgLegal(mode)` (R117). -/
def Cfg.legal (c : Cfg) : Mode → Bool
  | .edge => decide (c.spbDen ≠ 0) && decide (c.spbNum ≠ 0) && decide (c.muDen ≠ 0)
  | .etdOnly => decide (c.spbDen ≠ 0) && decide (c.spbNum ≠ 0) && decide (c.muDen ≠ 0)
  | .cat => decide (c.spsDen ≠ 0) && periodLegal c.sps && (!c.manual || decide (c.thrDen ≠ 0))
  | .synth => decide (c.psCarrier ≠ 0) && decide (c.psRate ≠ 0)
  | .zcdOnly => true
  | .sdOnly => true

/-! ### The indexed access (R204) -/

/-- `buf[i]`. The START check keeps every index inside `buf` (R204, 20_memory.md R64); outside it, which no run
reaches, the access answers 0 (log 9). -/
def bufAt (buf : List Int) (i : Int) : Int := buf.getD i.toNat 0

/-- A synthetic sample, PO33's DecodedSample. -/
structure Synthetic where
  value : ℚ
  slope : ℚ
  deriving DecidableEq, Repr

/-- `getSample(buf, x)`: `i = floor(x)`, `f = x - i`, `slope = buf[i+1] - buf[i]`, `value = buf[i] + f * slope`
(R204). -/
def getSample (buf : List Int) (x : ℚ) : Synthetic :=
  let i := ⌊x⌋
  let slope : ℚ := (bufAt buf (i + 1) - bufAt buf i : Int)
  ⟨(bufAt buf i : ℚ) + (x - i) * slope, slope⟩

end Sys2Proof.Machine
end

