-- ==== Sys2Proof/Machine/Ops.lean ====
section
/-! DEFINITION. The named operations every meaning is built from: counting a word, the soft diagnostic, the refusal of
a word, trap entry and, beside it, the restart that is the only way back from it. -/

namespace Sys2Proof.Machine

/-! ### Counting and diagnostics -/

/-- `PIPE.wc <- PIPE.wc + 1` (40_pipeline_control.md R111). -/
def State.countWord (s : State) : State := { s with pipe := { s.pipe with wc := s.pipe.wc + 1 } }

/-- A soft diagnostic: set the sticky flag of its kind and push one DIAG token, nothing else (60_exceptions.md
R266). -/
def State.report (kind : DiagKind) (seq : Nat) (s : State) : State :=
  { s with
    pipe := { s.pipe with flags := s.pipe.flags.raise kind }
    ch := { s.ch with diag := s.ch.diag ++ [⟨kind, seq⟩] } }

/-- `refuse(k)` (40_pipeline_control.md R122). -/
def State.refuse (k : Nat) (s : State) : State := s.report .illop k

/-- The refusal of the word being executed: it is counted, and refused with its index (R111, R122). -/
def State.refuseWord (s : State) : State := s.countWord.refuse s.pipe.wc

/-- A START whose configuration its mode cannot run (40_pipeline_control.md R116). -/
def State.configError (k : Nat) (s : State) : State := s.report .cfgerr k

/-! ### The channels -/

/-- The five internal channels emptied (60_exceptions.md R270). -/
def Channels.clearInternal (c : Channels) : Channels :=
  { c with zcdIn := [], etdIn := [], sdIn := [], cdIn := [], psIn := [] }

/-- Every internal channel is empty, the condition for PIPE to take a word (20_memory.md R76). -/
def Channels.internalEmpty (c : Channels) : Bool :=
  c.zcdIn.isEmpty && c.etdIn.isEmpty && c.sdIn.isEmpty && c.cdIn.isEmpty && c.psIn.isEmpty

/-- `Push(OUT, tok)`; the pass is DONE when the token is END (40_pipeline_control.md R110, R120). -/
def State.deliver (tok : Token) (s : State) : State :=
  { s with
    pipe := { s.pipe with st := if tok = .fin then .done else s.pipe.st }
    ch := { s.ch with out := s.ch.out ++ [tok] } }

/-! ### The fatal stop and the way back -/

/-- A fatal failure: its cause and its info record (60_exceptions.md R261, R271). -/
structure Fatal where
  cause : Cause
  info : Info
  deriving DecidableEq, Repr

/-- Trap entry: cause and info latched, the pass FAULTED, every internal channel emptied, nothing pushed
(60_exceptions.md R270). -/
def State.raiseFatal (f : Fatal) (s : State) : State :=
  { s with
    pipe := { s.pipe with st := .faulted, cause := f.cause, info := f.info }
    ch := s.ch.clearInternal }

/-- The registers CD starts a pass with: DECODE with the manual thresholds when the mode is CAT and
`THR_CTL.MANUAL = 1`, else the reset values (40_pipeline_control.md R116). -/
def Cd.atStart (c : Cfg) (m : Mode) : Cd :=
  if m = .cat ∧ c.manual = true then { Cd.reset with ph := .decode, high := c.high, low := c.low } else Cd.reset

/-- The registers PIPE starts a pass with (40_pipeline_control.md R116). -/
def Pipe.atStart (p : Pipe) (m : Mode) : Pipe :=
  { p with st := .run, mode := m, cause := .none, info := Info.reset, flags := p.flags.startPass }

/-- The start of a pass, which is also the return from the fatal stop (60_exceptions.md R272): every per-pass register
at its reset value, the mode selected, RUN entered; `CFG`, `PIPE.wc`, ILLOP and the channels are left alone
(40_pipeline_control.md R116). -/
def State.beginPass (m : Mode) (s : State) : State :=
  { s with
    pipe := s.pipe.atStart m
    zcd := Zcd.reset
    etd := Etd.reset
    sd := Sd.reset
    cd := Cd.atStart s.cfg m
    ps := Ps.reset }

/-- What RESET leaves: the state after power-on, with the words that wait in `IN` (40_pipeline_control.md R113,
70_reset_and_hazards.md R291). -/
def State.resetKeepingInput (s : State) : State :=
  { State.reset with ch := { Channels.empty with inp := s.ch.inp } }

end Sys2Proof.Machine
end

