-- ==== Sys2Proof/Machine/Routing.lean ====
section
/-! DEFINITION. Routing (40_pipeline_control.md R118): which unit a mode feeds, which channel a unit emits to, and the
copies on the taps. -/

namespace Sys2Proof.Machine

/-- The five unit agents (10_state.md R20). -/
inductive UnitId where
  | zcd
  | etd
  | sd
  | cd
  | ps
  deriving DecidableEq, Repr

/-- The four kinds of stream word (R119). -/
inductive StreamKind where
  | sample
  | xing
  | bit
  | sym
  deriving DecidableEq, Repr

/-- The stream word of a mode (R118). -/
def streamKind : Mode → StreamKind
  | .edge => .sample
  | .cat => .sample
  | .synth => .sym
  | .zcdOnly => .sample
  | .etdOnly => .xing
  | .sdOnly => .bit

/-- `head(mode)`, the unit PIPE feeds (R118). -/
def headUnit : Mode → UnitId
  | .edge => .zcd
  | .cat => .cd
  | .synth => .ps
  | .zcdOnly => .zcd
  | .etdOnly => .etd
  | .sdOnly => .sd

/-- The path of a mode, head first (R118). -/
def modePath : Mode → List UnitId
  | .edge => [.zcd, .etd, .sd]
  | .cat => [.cd]
  | .synth => [.ps]
  | .zcdOnly => [.zcd]
  | .etdOnly => [.etd]
  | .sdOnly => [.sd]

/-- Whether `next(unit, mode)` is an internal channel: only ZCD and ETD in mode EDGE; every other unit emits to
`OUT` (R118). -/
def feedsUnit : UnitId → Mode → Bool
  | .zcd, .edge => true
  | .etd, .edge => true
  | _, _ => false

/-- The token of `OUT` for an item of a unit's channel. -/
def Item.onOut {α : Type} (wrap : α → Token) : Item α → Token
  | .tok x => wrap x
  | .fin => .fin

/-- `emit` of ZCD: to `ETD.in` with a copy on `TAPX` in mode EDGE, else to `OUT` (R118). -/
def State.emitZcd (item : Item Xing) (s : State) : State :=
  if feedsUnit .zcd s.pipe.mode then
    { s with ch := { s.ch with etdIn := s.ch.etdIn ++ [item], tapX := s.ch.tapX ++ [item] } }
  else s.deliver (item.onOut .xing)

/-- `emit` of ETD: to `SD.in` with a copy on `TAPB` in mode EDGE, else to `OUT` (R118). -/
def State.emitEtd (item : Item BitVal) (s : State) : State :=
  if feedsUnit .etd s.pipe.mode then
    { s with ch := { s.ch with sdIn := s.ch.sdIn ++ [item], tapB := s.ch.tapB ++ [item] } }
  else s.deliver (item.onOut .bit)

/-- `emit` of SD, the last unit of its paths (R118). -/
def State.emitSd (item : Item Sym) (s : State) : State := s.deliver (item.onOut .sym)

/-- `emit` of CD (R118). -/
def State.emitCd (item : Item Letter) (s : State) : State := s.deliver (item.onOut fun l => .sym (.letter l))

/-- `emit` of PS (R118). -/
def State.emitPs (item : Item Int) (s : State) : State := s.deliver (item.onOut .sample)

/-- Several `emit`s in order (20_memory.md R70). -/
def emitAll {α : Type} (emit : Item α → State → State) (xs : List α) (s : State) : State :=
  xs.foldl (fun s x => emit (.tok x) s) s

end Sys2Proof.Machine
end

