-- ==== Sys2Proof/Machine/Cd.lean ====
section
/-! DEFINITION. The unit CD (44_categorizing_demodulator.md), the one unit that can raise a fatal failure. -/

namespace Sys2Proof.Machine

/-! ### Categories and the pattern (R205, R206, 30_encoding.md R83) -/

/-- The class CD gives a synthetic sample (R205). -/
inductive Category where
  | zeroRising
  | high
  | zeroDropping
  | low
  deriving DecidableEq, Repr

/-- `REF_PATTERN`, 1.5 carrier cycles (00_scope.md R6, 30_encoding.md R83). -/
def refPattern : List Category := [.zeroRising, .high, .zeroDropping, .low, .zeroRising, .high]

/-- The length-3 window of the pattern that a symbol stands for: at its index (R206, 30_encoding.md R82). -/
def refWindow (l : Letter) : List Category := (refPattern.drop l.index).take 3

/-- The phase symbols in the order of their indices (30_encoding.md R82). -/
def letters : List Letter := [.a, .b, .c, .d]

/-- `Match(c0, c1, c2)`: the symbol whose window the categories are (R206). -/
def matchWindow (c0 c1 c2 : Category) : Option Letter :=
  letters.find? fun l => decide (refWindow l = [c0, c1, c2])

/-- `Categorize(v, m)` with highAmplitude `h`, lowAmplitude `l` and period `n`; a cause when the sample is an
inconsistency (R205). All comparisons are strict as printed. -/
def categorize (h l n : ℚ) (x : Synthetic) : Except Cause Category :=
  if h < x.value then .ok .high
  else if x.value < -h then .ok .low
  else if |x.value| < l then
    if 0 < x.slope then .ok .zeroRising
    else if x.slope < 0 then .ok .zeroDropping
    else .error .zeroSlope
  else if h / (Config.slopeDiv * n) < |x.slope| then
    if 0 < x.slope then .ok .zeroRising else .ok .zeroDropping
  else .error .ambiguous

/-! ### One period (R203) -/

/-- `OFFSETS`: 0, N/4, N/2, the offsets of the synthetic samples and the anchors of the clock recovery
(00_scope.md R6). -/
def offset (n : ℚ) (j : Fin 3) : ℚ := (j.val : ℚ) * n / 4

/-- The category of the synthetic sample at offset `j`, or the fatal failure it raises (R203, R205). -/
def categoryAt (h l n : ℚ) (period : Nat) (buf : List Int) (j : Fin 3) : Except Fatal Category :=
  let x := getSample buf (offset n j)
  match categorize h l n x with
  | .ok c => .ok c
  | .error cause => .error ⟨cause, ⟨period, j.castSucc, x.value, x.slope⟩⟩

/-- The failure of a window that matches nothing (R206, 60_exceptions.md R271). -/
def noMatch (period : Nat) : Fatal := ⟨.noMatch, ⟨period, 3, 0, 0⟩⟩

/-- `DecodePeriod`: the three categories in order, then the pattern; the first failure met is the one raised (R203,
60_exceptions.md R269). -/
def decodePeriod (h l n : ℚ) (period : Nat) (buf : List Int) : Except Fatal Letter :=
  match categoryAt h l n period buf 0 with
  | .error f => .error f
  | .ok c0 =>
    match categoryAt h l n period buf 1 with
    | .error f => .error f
    | .ok c1 =>
      match categoryAt h l n period buf 2 with
      | .error f => .error f
      | .ok c2 =>
        match matchWindow c0 c1 c2 with
        | some k => .ok k
        | none => .error (noMatch period)

/-! ### Clock recovery (R207 to R210) -/

/-- The raw sign change of two adjacent samples: `a ≤ 0 < b` or `a ≥ 0 > b` (R208). -/
def signChange (a b : Int) : Bool := decide (a ≤ 0 ∧ 0 < b) || decide (0 ≤ a ∧ b < 0)

/-- The position `i + a / (a - b)` of the first raw sign change, where the list starts at index `i` (R207, R208). -/
def firstCrossing (i : Nat) : List Int → Option ℚ
  | a :: b :: rest =>
    if signChange a b then some ((i : ℚ) + (a : ℚ) / ((a : ℚ) - (b : ℚ))) else firstCrossing (i + 1) (b :: rest)
  | _ => none

/-- The index of the nearest anchor, the least one on a tie (R209). -/
def nearestAnchor (n x : ℚ) : Fin 3 :=
  let d (j : Fin 3) : ℚ := |x - offset n j|
  if d 0 ≤ d 1 ∧ d 0 ≤ d 2 then 0 else if d 1 ≤ d 2 then 1 else 2

/-- The shift for a distance: the band `[-1/2, 1/2]` is closed (R207, R210). -/
def shiftFor (d : ℚ) : Shift :=
  if d < -Config.afcDeadband then .minus else if Config.afcDeadband < d then .plus else .zero

/-- `Afc(buf)`: the next `CD.shift`; 0 when there is no sign change (R207, R210). -/
def afc (n : ℚ) (buf : List Int) : Shift :=
  match firstCrossing 0 buf with
  | some x => shiftFor (x - offset n (nearestAnchor n x))
  | none => .zero

/-- The value of a shift (10_state.md R29). -/
def Shift.toInt : Shift → Int
  | .minus => -1
  | .zero => 0
  | .plus => 1

/-- `need = ceil(SPS) + clockShift` (R202). -/
def pullCount (n : ℚ) (sh : Shift) : Int := ⌈n⌉ + sh.toInt

/-! ### SAMPLE at CD (R200) -/

/-- What a rule of CD produces: the registers, the symbols emitted in order and the fatal failure, if one is
raised. -/
structure CdResult where
  regs : Cd
  syms : List Letter
  fatal : Option Fatal
  deriving DecidableEq, Repr

/-- `Drain()`: decode whole periods while the queue holds one. Every turn removes at least one sample under a legal
`SPS`, so the length of the queue bounds the number of turns (R200). At a raise the registers keep the values they
have then, the failing period's samples removed from the queue (60_exceptions.md R270). -/
def Cd.drain (n : ℚ) : Nat → Cd → CdResult
  | 0, c => ⟨c, [], none⟩
  | fuel + 1, c =>
    let need := pullCount n c.shift
    if (c.q.length : Int) < need then ⟨c, [], none⟩
    else
      let buf := c.q.take need.toNat
      let pulled := { c with q := c.q.drop need.toNat }
      match decodePeriod c.high c.low n c.period buf with
      | .error f => ⟨pulled, [], some f⟩
      | .ok k =>
        let r := Cd.drain n fuel { pulled with shift := afc n buf, period := c.period + 1 }
        { r with syms := k :: r.syms }

/-- The decline ends the climb: the previous sample is the peak and gives both thresholds (R201, R196). -/
def Cd.setPeak (c : Cd) : Cd :=
  { c with
    ph := .decode
    peak := c.prev
    high := Config.highFactor * (c.prev : ℚ)
    low := Config.lowFactor * (c.prev : ℚ) }

/-- SAMPLE at CD: append to the queue, look at it in SEEK and CLIMB, decode in DECODE (R200, R201). -/
def Cd.onSample (n : ℚ) (c : Cd) (v : Int) : CdResult :=
  let c := { c with q := c.q ++ [v] }
  match c.ph with
  | .seek => if Config.peakThr < v then ⟨{ c with ph := .climb, prev := v }, [], none⟩ else ⟨c, [], none⟩
  | .climb => if v < c.prev then c.setPeak.drain n c.q.length else ⟨{ c with prev := v }, [], none⟩
  | .decode => c.drain n c.q.length

/-- END at CD: what does not fill a period is dropped (R215). -/
def Cd.onEnd (c : Cd) : Cd := { c with q := [] }

/-- Trap entry when a failure was raised (60_exceptions.md R270). -/
def raiseIf (f : Option Fatal) (s : State) : State :=
  match f with
  | some f => s.raiseFatal f
  | none => s

/-- CD's rule for a token: R200 for SAMPLE, R215 for END. The symbols of the periods before a failing one are emitted
(60_exceptions.md R273). -/
def cdRule (s : State) : Item Int → State
  | .tok v =>
    let r := s.cd.onSample s.cfg.sps v
    raiseIf r.fatal (emitAll State.emitCd r.syms { s with cd := r.regs })
  | .fin => State.emitCd .fin { s with cd := s.cd.onEnd }

/-- One step of the agent CD (10_state.md R20). -/
def stepCd (s : State) : State :=
  match s.ch.cdIn with
  | [] => s
  | item :: rest => cdRule { s with ch := { s.ch with cdIn := rest } } item

end Sys2Proof.Machine
end

