-- ==== Sys2Proof/Machine/Etd.lean ====
section
/-! DEFINITION. The unit ETD (42_edge_timing_demodulator.md). -/

namespace Sys2Proof.Machine

/-- The bit a direction stands for: to positive 0, to negative 1 (R162, 30_encoding.md R88). -/
def dirBit : Dir → BitVal
  | .rising => .zero
  | .falling => .one

/-- `bitsInInterval = round(delta / SPB)`; a Nat because the ratio is not negative (R162). -/
def bitsInInterval (spb delta : ℚ) : Nat := (Config.round (delta / spb)).toNat

/-- `uncertainty = (bitsInInterval - delta / SPB) / SPB`, the printed formula (R163, conflict C2). -/
def uncertainty (spb delta : ℚ) : ℚ := ((bitsInInterval spb delta : ℚ) - delta / spb) / spb

/-- The diagnostic UNC fires: `abs(uncertainty) > MU`, strictly (R163). -/
def uncertain (spb mu delta : ℚ) : Bool := decide (mu < |uncertainty spb delta|)

/-- The bits of a crossing: its bit value, `bitsInInterval` times (R162). -/
def etdBits (spb : ℚ) (x : Xing) : List BitVal := List.replicate (bitsInInterval spb x.delta) (dirBit x.dir)

/-- ETD's rule for a token: R162 for XING, R164 for END. The diagnostic goes before the bits (R162, R266). -/
def etdRule (s : State) : Item Xing → State
  | .tok x =>
    let k := s.etd.seq
    let s := { s with etd := ⟨k + 1⟩ }
    let s := if uncertain s.cfg.spb s.cfg.mu x.delta then s.report .unc k else s
    emitAll State.emitEtd (etdBits s.cfg.spb x) s
  | .fin => s.emitEtd .fin

/-- One step of the agent ETD (10_state.md R20). -/
def stepEtd (s : State) : State :=
  match s.ch.etdIn with
  | [] => s
  | item :: rest => etdRule { s with ch := { s.ch with etdIn := rest } } item

end Sys2Proof.Machine
end

