-- ==== Sys2Proof/Machine/Oscillator.lean ====
section
/-! DEFINITION. The oscillator of PS, evaluated exactly (45_phase_synthesizer.md R243). The spec's `sin` and `cos` are the
exact real functions and `round` is decided on the exact value, ties included, so the rounded value is computed
here from rational bounds that are refined until they determine it: `roundTone amp f u` is
`floor(amp * (f.s * sin(2πu) + f.c * cos(2πu)) + 1/2)`. That it is so, for every rational phase, is a statement
of this package over Mathlib's `Real.sin` and `Real.cos`; no approximation enters the model (log 7).

The bounds come from Machin's formula for π and the Taylor polynomial of the exponential. Refining stops at a
precision that depends on the operands only: beyond it, two bounds that still have an integer between them can
only enclose that integer itself (the value is an algebraic integer over a known denominator, of degree at most
`totient`, and a nonzero one is not that small), which is how an exact tie is recognised. -/

namespace Sys2Proof.Machine

/-! ### Phasors -/

/-- The waveform `s * sin(2πu) + c * cos(2πu)`. -/
structure Phasor where
  s : ℚ
  c : ℚ
  deriving DecidableEq, Repr

/-- The waveform a quarter turn ahead: `sin(r + π/2) = cos r`, `cos(r + π/2) = -sin r`. -/
def Phasor.quarterTurn (f : Phasor) : Phasor := ⟨-f.c, f.s⟩

/-- `A → sin, B → cos, C → -sin, D → -cos` (R243, 30_encoding.md R87). -/
def oscillator : Letter → Phasor
  | .a => ⟨1, 0⟩
  | .b => ⟨0, 1⟩
  | .c => ⟨-1, 0⟩
  | .d => ⟨0, -1⟩

/-- `w * next + (1 - w) * current` (45_phase_synthesizer.md R242, R244). -/
def Phasor.blend (w : ℚ) (next current : Phasor) : Phasor :=
  ⟨w * next.s + (1 - w) * current.s, w * next.c + (1 - w) * current.c⟩

/-! ### π from below -/

/-- The sum of the first `k` terms `(-1)^m / ((2 (i + m) + 1) n^(2 m))`, as a numerator and a denominator, by Horner's
rule; at `i = 0` it is `n` times the series of the arc tangent of `1/n`. -/
def arctanHorner (n : Int) : Nat → Nat → Int × Int
  | 0, _ => (0, 1)
  | k + 1, i =>
    match arctanHorner n k (i + 1) with
    | (u, v) => (n ^ 2 * v - (2 * (i : Int) + 1) * u, (2 * (i : Int) + 1) * n ^ 2 * v)

/-- `floor(2^p * m)`, where `m` is Machin's formula `16 arctan(1/5) - 4 arctan(1/239)` cut below π: an even number of
terms for 1/5, an odd number for 1/239. So `piScaled p / 2^p` is below π by less than `2 / 2^p`. -/
def piScaled (p : Nat) : Int :=
  match arctanHorner 5 (2 * (p / 8 + 1)) 0, arctanHorner 239 (2 * (p / 8 + 1) + 1) 0 with
  | (u, v), (x, y) => (2 ^ p * (16 * 239 * u * y - 4 * 5 * x * v)) / (5 * 239 * v * y)

/-! ### The exponential -/

/-- `sum_(m < k) (i x/q)^m j! / (j + m)!` as its real numerator, its imaginary numerator and their denominator, by
Horner's rule. -/
def expHorner (x q : Int) : Nat → Nat → Int × Int × Int
  | 0, _ => (0, 0, 1)
  | k + 1, j =>
    match expHorner x q k (j + 1) with
    | (c, s, d) => (((j : Int) + 1) * q * d - x * s, x * c, ((j : Int) + 1) * q * d)

/-- The number of Taylor terms used at precision `p`. -/
def termCount (p : Nat) : Nat := p / 2 + 8

/-! ### Rounding -/

/-- The floors of a lower and an upper bound of `amp * (f.s * sin(2πr) + f.c * cos(2πr)) + 1/2` for `0 ≤ r < 1/4`. The
Taylor polynomials are taken at the angle `2 * (piScaled p / 2^p) * r`; the error of the angle and the remainder
together are at most `8 * r / 2^p`, which is 0 at `r = 0`. -/
def toneFloors (amp : Nat) (f : Phasor) (r : ℚ) (p : Nat) : Int × Int :=
  match expHorner (2 * piScaled p * r.num) (2 ^ p * (r.den : Int)) (termCount p) 0 with
  | (c, s, d) =>
    let a : Int := f.s.num * (f.c.den : Int)
    let b : Int := f.c.num * (f.s.den : Int)
    let den : Int := (f.s.den : Int) * (f.c.den : Int)
    let q : Int := 2 ^ p * (r.den : Int)
    let mid : Int := (2 * (amp : Int) * (a * s + b * c) + den * d) * q
    let err : Int := 16 * (amp : Int) * ((a.natAbs : Int) + (b.natAbs : Int)) * r.num * d
    ((mid - err) / (2 * den * d * q), (mid + err) / (2 * den * d * q))

/-- A bound on every conjugate of `2 D (y - m)`, where `D` is the common denominator of the phasor, `y` the bounded
value and `m` an integer next to it. -/
def conjugateBound (amp : Nat) (f : Phasor) : Nat :=
  4 * amp * ((f.s.num * (f.c.den : Int)).natAbs + (f.c.num * (f.s.den : Int)).natAbs)
    + 5 * (f.s.den * f.c.den)

/-- The precision at which an integer between the bounds is the value itself. -/
def lastPrecision (amp : Nat) (f : Phasor) (r : ℚ) : Nat :=
  (Nat.log2 (conjugateBound amp f) + 1) * (Nat.totient (Nat.lcm 4 r.den) + 3)

/-- Doubling the precision until the bounds have one floor, or the last precision is reached. -/
def refineTone (amp : Nat) (f : Phasor) (r : ℚ) (last : Nat) : Nat → Nat → Int
  | 0, p => (toneFloors amp f r p).2
  | k + 1, p =>
    match toneFloors amp f r p with
    | (lo, hi) => if lo = hi ∨ last ≤ p then hi else refineTone amp f r last k (2 * p)

/-- `floor(amp * (f.s * sin(2πr) + f.c * cos(2πr)) + 1/2)` for `0 ≤ r < 1/4`: a first attempt at 64 bits decides all but
exact ties and values next to one. -/
def roundQuarter (amp : Nat) (f : Phasor) (r : ℚ) : Int :=
  match toneFloors amp f r 64 with
  | (lo, hi) =>
    if lo = hi then hi
    else refineTone amp f r (lastPrecision amp f r) (Nat.log2 (lastPrecision amp f r)) 64

/-- `floor(amp * (f.s * sin(2πu) + f.c * cos(2πu)) + 1/2)`, the quarter turns taken out first. -/
def roundTone (amp : Nat) (f : Phasor) (u : ℚ) : Int :=
  let q := ⌊4 * u⌋
  roundQuarter amp (Phasor.quarterTurn^[(q % 4).toNat] f) (u - (q : ℚ) / 4)

end Sys2Proof.Machine
end

