-- ==== Sys2Proof/Machine/Ps.lean ====
section
/-! DEFINITION. The unit PS (45_phase_synthesizer.md). -/

namespace Sys2Proof.Machine

/-- `Weight(u)`: 0 up to 3/5 turn, 1 from 9/10 turn, linear between (R244). -/
def weight (u : ℚ) : ℚ :=
  if u ≤ Config.blendStart then 0
  else if u < Config.blendEnd then (u - Config.blendStart) / (Config.blendEnd - Config.blendStart)
  else 1

/-- The sample of a cycle at phase `u` turns: `round(PS_AMP * (w * Osc(next, u) + (1 - w) * Osc(cur, u)))` on the
exact real value (R242, R243). -/
def cycleSample (amp : Nat) (cur next : Letter) (u : ℚ) : Int :=
  roundTone amp (Phasor.blend (weight u) (oscillator next) (oscillator cur)) u

/-- The number of samples of a cycle, those with `n * step < 1`: `ceil(PS_RATE / PS_CARRIER)` (R242). -/
def cycleLength (carrier rate : Nat) : Nat := ⌈(rate : ℚ) / (carrier : ℚ)⌉.toNat

/-- `Cycle(cur, next)`: the radian position restarts at 0 for every pair (R242). -/
def cycle (carrier rate amp : Nat) (cur next : Letter) : List Int :=
  (List.range (cycleLength carrier rate)).map fun (n : Nat) =>
    cycleSample amp cur next ((n : ℚ) * ((carrier : ℚ) / (rate : ℚ)))

/-- SYM at PS: the first symbol is held, every later one completes a pair (R245). -/
def Ps.onSym (carrier rate amp : Nat) (p : Ps) (l : Letter) : Ps × List Int :=
  if p.holding then ({ p with cur := l }, cycle carrier rate amp p.cur l) else (⟨true, l⟩, [])

/-- PS's rule for a token: R245 for SYM, R247 for END. -/
def psRule (s : State) : Item Letter → State
  | .tok l =>
    let r := s.ps.onSym s.cfg.psCarrier.toNat s.cfg.psRate.toNat s.cfg.psAmp.toNat l
    emitAll State.emitPs r.2 { s with ps := r.1 }
  | .fin => s.emitPs .fin

/-- One step of the agent PS (10_state.md R20). -/
def stepPs (s : State) : State :=
  match s.ch.psIn with
  | [] => s
  | item :: rest => psRule { s with ch := { s.ch with psIn := rest } } item

end Sys2Proof.Machine
end

