-- ==== Sys2Proof/Machine/Sd.lean ====
section
/-! DEFINITION. The unit SD (43_symbol_decoder.md). -/

namespace Sys2Proof.Machine

/-- `Lookup(b1, b0)`, the fixed table; UNDEC when either bit is X (R180, 30_encoding.md R81). -/
def lookup : BitVal → BitVal → Sym
  | .one, .one => .letter .a
  | .one, .zero => .letter .b
  | .zero, .zero => .letter .c
  | .zero, .one => .letter .d
  | _, _ => .undec

/-- BIT at SD while hunting: the second of two consecutive 1-bits syncs, and the re-prepended 1 fills slot 0
(R177). `self` already counts the bit, whose index is `p`. -/
def Sd.hunt (self : Sd) (p : Nat) (b : BitVal) : Sd :=
  if b = .one ∧ self.prev1 = true then { self with st := .synced, syncpos := p - 1, b1 := .one, slot := 1 }
  else { self with prev1 := decide (b = .one) }

/-- BIT at SD: the registers after it and the symbol it emits (R177). Of the bits of a frame (`SD_FRAME`, 00_scope.md
R6) the live ones stand first: the last of them completes the pair, one before it is held, and filler is dropped. The
slot wraps at the end of the frame. -/
def Sd.onBit (d : Sd) (b : BitVal) : Sd × Option Sym :=
  let e := { d with pos := d.pos + 1 }
  match d.st with
  | .hunt => (e.hunt d.pos b, none)
  | .synced =>
    let e := { e with slot := d.slot + 1 }
    if d.slot.val + 1 < Config.sdLive then ({ e with b1 := b }, none)
    else if d.slot.val + 1 = Config.sdLive then (e, some (lookup d.b1 b))
    else (e, none)

/-- The unmatched-group diagnostic, with the index of the pair's second bit (R181). -/
def reportGroup (x : Option Sym) (p : Nat) (s : State) : State :=
  if x = some .undec then s.report .badgrp p else s

/-- SD's rule for a token: R177 for BIT, R183 for END. -/
def sdRule (s : State) : Item BitVal → State
  | .tok b =>
    let p := s.sd.pos
    let r := s.sd.onBit b
    let s := reportGroup r.2 p { s with sd := r.1 }
    emitAll State.emitSd r.2.toList s
  | .fin => s.emitSd .fin

/-- One step of the agent SD (10_state.md R20). -/
def stepSd (s : State) : State :=
  match s.ch.sdIn with
  | [] => s
  | item :: rest => sdRule { s with ch := { s.ch with sdIn := rest } } item

end Sys2Proof.Machine
end

