-- ==== Sys2Proof/Machine/Zcd.lean ====
section
/-! DEFINITION. The unit ZCD (41_zero_crossing_detector.md). -/

namespace Sys2Proof.Machine

/-- A significant sample, `abs(v) ≥ NOISE_THR` (R141). -/
def significant (v : Int) : Bool := decide (Config.noiseThr ≤ |v|)

/-- The side of a significant sample. -/
def polarityOf (v : Int) : Polarity := if 0 < v then .pos else .neg

/-- The time of the crossing between a before and an after sample: linear interpolation, but `afterIndex - 1/2` when
the before sample has index 0 (R142). -/
def crossingTime (before after : Mark) : ℚ :=
  if before.i = 0 then (after.i : ℚ) - Config.zcdFirstHalf
  else (before.i : ℚ) + ((before.v : ℚ) / ((before.v : ℚ) - (after.v : ℚ))) * ((after.i : ℚ) - (before.i : ℚ))

/-- The crossing a significant sample completes: none unless the last significant sample had the other sign
(R142). -/
def Zcd.crossing (z : Zcd) (here : Mark) : Option Xing :=
  let xing (dir : Dir) (before : Mark) : Xing :=
    let t := crossingTime before here
    ⟨dir, t, if z.haveX then t - z.lastT else 0⟩
  match z.pol, polarityOf here.v with
  | .pos, .neg => some (xing .falling z.lastPos)
  | .neg, .pos => some (xing .rising z.lastNeg)
  | _, _ => none

/-- Remembering the crossing that was emitted. -/
def Zcd.noteCrossing (z : Zcd) : Option Xing → Zcd
  | some x => { z with lastT := x.t, haveX := true }
  | none => z

/-- Remembering the most recent significant sample. -/
def Zcd.noteSample (z : Zcd) (here : Mark) : Zcd :=
  match polarityOf here.v with
  | .pos => { z with pol := .pos, lastPos := here }
  | .neg => { z with pol := .neg, lastNeg := here }
  | .none => z

/-- SAMPLE at ZCD: the registers after it and the crossing it emits (R142). -/
def Zcd.onSample (z : Zcd) (v : Int) : Zcd × Option Xing :=
  if significant v then
    let here : Mark := ⟨z.idx, v⟩
    let x := z.crossing here
    ({ (z.noteCrossing x).noteSample here with idx := z.idx + 1 }, x)
  else ({ z with idx := z.idx + 1 }, none)

/-- ZCD's rule for a token, the token already taken from its channel: R142 for SAMPLE, R143 for END. -/
def zcdRule (s : State) : Item Int → State
  | .tok v =>
    let r := s.zcd.onSample v
    emitAll State.emitZcd r.2.toList { s with zcd := r.1 }
  | .fin => s.emitZcd .fin

/-- One step of the agent ZCD: `Pop(ZCD.in)` and its rule; no step when the channel is empty (10_state.md R20). -/
def stepZcd (s : State) : State :=
  match s.ch.zcdIn with
  | [] => s
  | item :: rest => zcdRule { s with ch := { s.ch with zcdIn := rest } } item

end Sys2Proof.Machine
end

