-- ==== Sys2Proof/Machine/Pipe.lean ====
section
/-! DEFINITION. What PIPE and the units do with one word: forwarding it to the head unit (40_pipeline_control.md R119,
R120) and running the units to exhaustion in path order (20_memory.md R72, R76). -/

namespace Sys2Proof.Machine

/-- One step of a unit agent (10_state.md R20). -/
def stepUnit : UnitId → State → State
  | .zcd => stepZcd
  | .etd => stepEtd
  | .sd => stepSd
  | .cd => stepCd
  | .ps => stepPs

/-- How many tokens wait for a unit. -/
def Channels.waiting (c : Channels) : UnitId → Nat
  | .zcd => c.zcdIn.length
  | .etd => c.etdIn.length
  | .sd => c.sdIn.length
  | .cd => c.cdIn.length
  | .ps => c.psIn.length

/-- A unit run until its input channel is empty: one step consumes one token and no unit pushes to its own
channel (20_memory.md R76). -/
def exhaust (u : UnitId) (s : State) : State := (stepUnit u)^[s.ch.waiting u] s

/-- The units run to exhaustion in path order, the order that fixes `DIAG` within one word (20_memory.md R72). -/
def State.settle (s : State) : State :=
  exhaust .ps (exhaust .cd (exhaust .sd (exhaust .etd (exhaust .zcd s))))

/-- A stream word of this kind is accepted: the pass runs and the kind is its mode's (40_pipeline_control.md R119). -/
def State.accepts (s : State) (k : StreamKind) : Bool :=
  decide (s.pipe.st = .run) && decide (streamKind s.pipe.mode = k)

/-- `Push(head(mode).in, SAMPLE(v))` (R118, R119). -/
def State.feedSample (v : Int) (s : State) : State :=
  match headUnit s.pipe.mode with
  | .zcd => { s with ch := { s.ch with zcdIn := s.ch.zcdIn ++ [.tok v] } }
  | .cd => { s with ch := { s.ch with cdIn := s.ch.cdIn ++ [.tok v] } }
  | _ => s

/-- `Push(ETD.in, XING(dir, t, delta))` (R118, R119). -/
def State.feedXing (x : Xing) (s : State) : State := { s with ch := { s.ch with etdIn := s.ch.etdIn ++ [.tok x] } }

/-- `Push(SD.in, BIT(b))` (R118, R119). -/
def State.feedBit (b : BitVal) (s : State) : State := { s with ch := { s.ch with sdIn := s.ch.sdIn ++ [.tok b] } }

/-- `Push(PS.in, SYM(l))` (R118, R119). -/
def State.feedSym (l : Letter) (s : State) : State := { s with ch := { s.ch with psIn := s.ch.psIn ++ [.tok l] } }

/-- `Push(head(mode).in, END)` (R120). -/
def State.feedEnd (s : State) : State :=
  match headUnit s.pipe.mode with
  | .zcd => { s with ch := { s.ch with zcdIn := s.ch.zcdIn ++ [.fin] } }
  | .etd => { s with ch := { s.ch with etdIn := s.ch.etdIn ++ [.fin] } }
  | .sd => { s with ch := { s.ch with sdIn := s.ch.sdIn ++ [.fin] } }
  | .cd => { s with ch := { s.ch with cdIn := s.ch.cdIn ++ [.fin] } }
  | .ps => { s with ch := { s.ch with psIn := s.ch.psIn ++ [.fin] } }

/-- `STREAMWORD(tok)`: the word is counted; when it is accepted its token is fed and every consequence of it completes
(20_memory.md R76), otherwise it is refused (R119). -/
def streamWord (kind : StreamKind) (feed : State → State) (s : State) : State :=
  if s.accepts kind then (feed s.countWord).settle else s.refuseWord

end Sys2Proof.Machine
end

