-- ==== Sys2Proof/Machine/Control.lean ====
section
/-! DEFINITION. The host words NOP, RESET, CFGWR, START and END (40_pipeline_control.md). Every meaning starts with PIPE's
`PIPE.wc <- PIPE.wc + 1`; the word's index `k` is `PIPE.wc` before it (R111, log 13). -/

namespace Sys2Proof.Machine

/-- NOP does nothing except be counted (R112). -/
def execNop (s : State) : Host.Outcome State Fault Refusal := .next s.countWord

/-- RESET returns the whole block to the reset state, `PIPE.wc` included, and keeps the words behind it in `IN`
(R113). -/
def execReset (s : State) : Host.Outcome State Fault Refusal := .next s.resetKeepingInput

/-- CFGWR writes one configuration register when no pass runs and the register may take the value (R114). -/
def execCfgwr (n : BitVec 4) (val : BitVec 24) (s : State) : Host.Outcome State Fault Refusal :=
  .next <|
    if s.pipe.st = .run then s.refuseWord
    else if cfgWritable n val then { s.countWord with cfg := s.cfg.write n val }
    else s.refuseWord

/-- START checks the configuration the mode needs and begins a pass (R116, R117; order of checks 60_exceptions.md
R269). -/
def execStart (m : Mode) (s : State) : Host.Outcome State Fault Refusal :=
  .next <|
    if s.pipe.st = .run then s.refuseWord
    else if s.cfg.legal m then s.countWord.beginPass m
    else s.countWord.configError s.pipe.wc

/-- END closes the input of the pass: it travels from the head unit to `OUT`, each unit finishing as its own END rule
says (R120). -/
def execEndOfStream (s : State) : Host.Outcome State Fault Refusal :=
  .next <| if s.pipe.st = .run then s.countWord.feedEnd.settle else s.refuseWord

end Sys2Proof.Machine
end

