-- ==== Sys2Proof/Machine/Output.lean ====
section
/-! DEFINITION. The output-only word DIAG (30_encoding.md R99, R100). -/

namespace Sys2Proof.Machine

/-- DIAG presented on `IN` is refused, whatever its kind and sequence number (30_encoding.md R99, R101;
40_pipeline_control.md R122). -/
def execDiag (_kind : BitVec 4) (_seq : BitVec 24) (s : State) : Host.Outcome State Fault Refusal :=
  .next s.refuseWord

end Sys2Proof.Machine
end

