-- ==== Sys2Proof/Machine/Stream.lean ====
section
/-! DEFINITION. The stream words SAMPLE, XING, BIT and SYM on `IN` (40_pipeline_control.md R119). -/

namespace Sys2Proof.Machine

/-- SAMPLE: to ZCD in modes EDGE and ZCD_ONLY, to CD in mode CAT (R119, 41_zero_crossing_detector.md R142,
44_categorizing_demodulator.md R200). -/
def execSample (v : Int) (s : State) : Host.Outcome State Fault Refusal :=
  .next (streamWord .sample (State.feedSample v) s)

/-- XING: to ETD in mode ETD_ONLY (R119, 42_edge_timing_demodulator.md R162). -/
def execXing (dir : Dir) (t delta : ℚ) (s : State) : Host.Outcome State Fault Refusal :=
  .next (streamWord .xing (State.feedXing ⟨dir, t, delta⟩) s)

/-- BIT: to SD in mode SD_ONLY (R119, 43_symbol_decoder.md R177). -/
def execBit (b : BitVal) (s : State) : Host.Outcome State Fault Refusal :=
  .next (streamWord .bit (State.feedBit b) s)

/-- SYM: to PS in mode SYNTH (R119, 45_phase_synthesizer.md R245); code 4, UNDEC, is refused in every mode
(30_encoding.md R93, R101). -/
def execSym (sym : Sym) (s : State) : Host.Outcome State Fault Refusal :=
  match sym with
  | .letter l => .next (streamWord .sym (State.feedSym l) s)
  | .undec => .next s.refuseWord

end Sys2Proof.Machine
end

