-- ==== Sys2Proof/Machine/Dispatch.lean ====
section
/-! DEFINITION. The meaning of every instruction, one arm per constructor of `Instr` (30_encoding.md R100). -/

namespace Sys2Proof.Machine

/-- The operation of a word PIPE has taken from `IN` (40_pipeline_control.md R111). -/
def exec (i : Instr) (s : State) : Host.Outcome State Fault Refusal :=
  match i with
  | .nop => Sys2Proof.Machine.execNop s
  | .reset => Sys2Proof.Machine.execReset s
  | .cfgwr n val => Sys2Proof.Machine.execCfgwr n val s
  | .start m => Sys2Proof.Machine.execStart m s
  | .endOfStream => Sys2Proof.Machine.execEndOfStream s
  | .sample v => Sys2Proof.Machine.execSample v s
  | .xing dir t delta => Sys2Proof.Machine.execXing dir t delta s
  | .bit b => Sys2Proof.Machine.execBit b s
  | .sym sym => Sys2Proof.Machine.execSym sym s
  | .diag kind seq => Sys2Proof.Machine.execDiag kind seq s

end Sys2Proof.Machine
end

