-- ==== Sys2Proof/Machine/Fetch.lean ====
section
/-! DEFINITION. PIPE's step (40_pipeline_control.md R111): take the oldest word of `IN`, decode it, execute or refuse
it. -/

namespace Sys2Proof.Machine

/-- A word put first in `IN`, so that it is the next one PIPE takes (log 1). -/
def State.presentFirst (p : PortWord) (s : State) : State := { s with ch := { s.ch with inp := p :: s.ch.inp } }

/-- A word PIPE has taken: the rule of its operation, or the refusal of a word that is no operation (R111, R122,
30_encoding.md R105). -/
def runWord (p : PortWord) (s : State) : Host.Outcome State Fault Refusal :=
  match decode p with
  | .ok i => exec i s
  | .error _ => .next s.refuseWord

/-- PIPE's step. With no word in `IN` the block does nothing (60_exceptions.md R276, log 2). -/
def State.pipeStep (s : State) : Host.Outcome State Fault Refusal :=
  match s.ch.inp with
  | [] => .next s
  | p :: rest => runWord p { s with ch := { s.ch with inp := rest } }

/-- One step of the block: PIPE's when every internal channel is empty (20_memory.md R76), else the units drain
(10_state.md R20, log 3). -/
def State.blockStep (s : State) : Host.Outcome State Fault Refusal :=
  if s.ch.internalEmpty then s.pipeStep else .next s.settle

end Sys2Proof.Machine
end

