-- ==== Sys2Proof/Machine/Step.lean ====
section
/-! DEFINITION. The step of the machine and where it takes its next word from. -/

namespace Sys2Proof.Machine

/-- One step: one word with all its consequences (20_memory.md R76). -/
def step (s : State) : Host.Outcome State Fault Refusal := s.blockStep

/-- The state whose next step takes the table word `w` from `IN`: the word is first in `IN`, with both sidebands 0
(log 1). -/
def State.withFetchWord (s : State) (nbits w : Nat) : State := s.presentFirst ⟨tableWord nbits w, 0, 0⟩

end Sys2Proof.Machine
end

