-- ==== Sys2Proof/Machine/Ports.lean ====
section
/-! DEFINITION. The host's side of the ports (10_state.md R20, R43): presenting words, taking tokens, the words that
tokens travel as, and the renderings of 30_encoding.md R84 to R86. These are the host's actions, not part of a
step (log 10). -/

namespace Sys2Proof.Machine

/-! ### Words in -/

/-- The host presents words on `IN`, behind those already there (20_memory.md R61). -/
def State.present (ps : List PortWord) (s : State) : State := { s with ch := { s.ch with inp := s.ch.inp ++ ps } }

/-- A source sample, `SAMPLE_BITS` wide, as its value: two's complement (00_scope.md R6, 30_encoding.md R86). -/
def sampleOfByte (b : BitVec Config.sampleBits) : Int := b.toInt

/-- The SAMPLE word of a source byte: the byte sign extended into the immediate (20_memory.md R63, 30_encoding.md
R90). -/
def byteWord (b : BitVec Config.sampleBits) : PortWord := encode (.sample (sampleOfByte b))

/-! ### Tokens out: taking one removes it (20_memory.md R65) -/

/-- `Pop(OUT)`. -/
def State.takeOut (s : State) : Option (Token × State) :=
  match s.ch.out with
  | [] => none
  | x :: rest => some (x, { s with ch := { s.ch with out := rest } })

/-- `Pop(TAPX)`. -/
def State.takeTapX (s : State) : Option (Item Xing × State) :=
  match s.ch.tapX with
  | [] => none
  | x :: rest => some (x, { s with ch := { s.ch with tapX := rest } })

/-- `Pop(TAPB)`. -/
def State.takeTapB (s : State) : Option (Item BitVal × State) :=
  match s.ch.tapB with
  | [] => none
  | x :: rest => some (x, { s with ch := { s.ch with tapB := rest } })

/-- `Pop(DIAG)`. -/
def State.takeDiag (s : State) : Option (Diag × State) :=
  match s.ch.diag with
  | [] => none
  | x :: rest => some (x, { s with ch := { s.ch with diag := rest } })

/-- A status read of a configuration register (10_state.md R40, R43); it changes nothing. -/
def State.readCfg (s : State) (n : BitVec 4) : BitVec 24 := s.cfg.read n

/-! ### The word of a token (30_encoding.md R80, R89) -/

/-- The instruction whose word a token of `OUT` travels as. -/
def Token.instr : Token → Instr
  | .sample v => .sample v
  | .xing x => .xing x.dir x.t x.delta
  | .bit b => .bit b
  | .sym s => .sym s
  | .fin => .endOfStream

/-- The word of a token of `OUT`, with the sidebands of a XING (R91). -/
def Token.word (t : Token) : PortWord := encode t.instr

/-- The word of a DIAG token: only the word truncates `seq`, to `seq mod 2^24` (R99). -/
def Diag.word (d : Diag) : PortWord := encode (.diag (BitVec.ofNat 4 d.kind.code) (BitVec.ofNat 24 d.seq))

/-! ### Renderings (R84, R85) -/

/-- A bit as its ASCII character (R84, log 11). DESIGN CHOICE: the malformed bit, to which R84 gives no character, is
rendered as none (log 15). -/
def renderBit : BitVal → Option Char
  | .zero => some '0'
  | .one => some '1'
  | .x => none

/-- A character of a rendered bit stream as a bit: any other character is X (R84; the codes, log 11). -/
def parseBit (c : Char) : BitVal := if c = '0' then .zero else if c = '1' then .one else .x

/-- A symbol as its ASCII character (R85, log 11). -/
def renderSym : Sym → Char
  | .letter .a => 'A'
  | .letter .b => 'B'
  | .letter .c => 'C'
  | .letter .d => 'D'
  | .undec => '-'

/-- A rendered stream wrapped at 80 columns, where `col` characters stand on the line already (00_scope.md R5(b), R84,
R85). DESIGN CHOICE: the spec names no line-break character and does not say whether the last line ends in one; the
model takes the line feed, between two lines only and never after the last character (log 15). -/
def wrapFrom (col : Nat) : List Char → List Char
  | [] => []
  | c :: rest => if col = 80 then '\n' :: c :: wrapFrom 1 rest else c :: wrapFrom (col + 1) rest

/-- A rendered bit stream read back: the line breaks removed, every other character a bit (R84). DESIGN CHOICE: a line
break is the line feed alone, so that a carriage return reads as X (log 15). -/
def parseBits (cs : List Char) : List BitVal := (cs.filter fun c => decide (c ≠ '\n')).map parseBit

end Sys2Proof.Machine
end

