-- ==== Sys2Proof/Safety.lean ====
section
/-! DEFINITION. The terms the statements use: what a refusal leaves, which words are illegal, runs of several words, the
streams the units compute, and the invariants of the machine. Nothing here is read by a step. -/

namespace Sys2Proof.Machine

/-! ### Words -/

/-- PIPE takes the word of `i` at its next step. -/
def takes (s : State) (i : Instr) : Prop := ∃ p rest, s.ch.inp = p :: rest ∧ decode p = .ok i

/-- A word counted, and nothing else (40_pipeline_control.md R111, R112). -/
def State.counted (s : State) : State := { s with pipe := { s.pipe with wc := s.pipe.wc + 1 } }

/-- What a refused word leaves (40_pipeline_control.md R122). -/
def State.afterRefusal (s : State) : State :=
  { s with
    pipe := { s.pipe with
      wc := s.pipe.wc + 1
      flags := { s.pipe.flags with illop := true } }
    ch := { s.ch with diag := s.ch.diag ++ [⟨.illop, s.pipe.wc⟩] } }

/-- The modes whose stream word is SAMPLE, XING, BIT or SYM, and no other (40_pipeline_control.md R118). -/
def streamLegal (s : State) (ms : List Mode) : Prop := s.pipe.st = .run ∧ s.pipe.mode ∈ ms

/-- A word that decodes and is illegal for its code, register, value, state or mode (30_encoding.md R101). -/
def illegalNow (s : State) : Instr → Prop
  | .nop => False
  | .reset => False
  | .cfgwr n val =>
    s.pipe.st = .run ∨ 13 ≤ n.toNat ∨ (n.toNat = 6 ∧ 1 < val.toNat) ∨ (n.toNat = 12 ∧ 2 ^ 23 - 1 < val.toNat)
  | .start _ => s.pipe.st = .run
  | .endOfStream => s.pipe.st ≠ .run
  | .sample _ => ¬ streamLegal s [.edge, .cat, .zcdOnly]
  | .xing _ _ _ => ¬ streamLegal s [.etdOnly]
  | .bit _ => ¬ streamLegal s [.sdOnly]
  | .sym (.letter _) => ¬ streamLegal s [.synth]
  | .sym .undec => True
  | .diag _ _ => True

/-- Executing the words one after another, each to its end, leads from `s` to `t` (20_memory.md R76). -/
def Runs : List Instr → State → State → Prop
  | [], s, t => s = t
  | i :: is, s, t => ∃ u, exec i s = .next u ∧ Runs is u t

/-! ### What each unit computes from its whole input (40_pipeline_control.md R123) -/

/-- The crossings ZCD emits for a list of samples. -/
def zcdStream (z : Zcd) : List Int → List Xing
  | [] => []
  | v :: vs => (z.onSample v).2.toList ++ zcdStream (z.onSample v).1 vs

/-- The registers of ZCD after a list of samples. -/
def zcdAfter (z : Zcd) (vs : List Int) : Zcd := vs.foldl (fun z v => (z.onSample v).1) z

/-- The bits ETD emits for a list of crossings. -/
def etdStream (spb : ℚ) (xs : List Xing) : List BitVal := xs.flatMap (etdBits spb)

/-- The symbols SD emits for a list of bits. -/
def sdStream (d : Sd) : List BitVal → List Sym
  | [] => []
  | b :: bs => (d.onBit b).2.toList ++ sdStream (d.onBit b).1 bs

/-- The registers of SD after a list of bits. -/
def sdAfter (d : Sd) (bs : List BitVal) : Sd := bs.foldl (fun d b => (d.onBit b).1) d

/-- CD decodes the periods of the queue one after another until it holds no whole period: the symbols, and the
registers before and after (44_categorizing_demodulator.md R200, R202, R203). -/
def Periods (n : ℚ) : List Letter → Cd → Cd → Prop
  | [], c, d => d = c ∧ (c.q.length : Int) < pullCount n c.shift
  | k :: ks, c, d =>
    pullCount n c.shift ≤ (c.q.length : Int) ∧
    decodePeriod c.high c.low n c.period (c.q.take (pullCount n c.shift).toNat) = .ok k ∧
    Periods n ks
      { c with
        q := c.q.drop (pullCount n c.shift).toNat
        shift := afc n (c.q.take (pullCount n c.shift).toNat)
        period := c.period + 1 } d

/-- CD decodes some periods and fails in the next one (60_exceptions.md R270). -/
def PeriodsThenFatal (n : ℚ) : List Letter → Cd → Cd → Fatal → Prop
  | [], c, d, f =>
    pullCount n c.shift ≤ (c.q.length : Int) ∧
    decodePeriod c.high c.low n c.period (c.q.take (pullCount n c.shift).toNat) = .error f ∧
    d = { c with q := c.q.drop (pullCount n c.shift).toNat }
  | k :: ks, c, d, f =>
    pullCount n c.shift ≤ (c.q.length : Int) ∧
    decodePeriod c.high c.low n c.period (c.q.take (pullCount n c.shift).toNat) = .ok k ∧
    PeriodsThenFatal n ks
      { c with
        q := c.q.drop (pullCount n c.shift).toNat
        shift := afc n (c.q.take (pullCount n c.shift).toNat)
        period := c.period + 1 } d f

/-! ### The exact oscillator (45_phase_synthesizer.md R243) -/

/-- `Osc(k, u)`, the exact real function. -/
noncomputable def osc : Letter → ℝ → ℝ
  | .a, u => Real.sin (2 * Real.pi * u)
  | .b, u => Real.cos (2 * Real.pi * u)
  | .c, u => -Real.sin (2 * Real.pi * u)
  | .d, u => -Real.cos (2 * Real.pi * u)

/-! ### Invariants -/

/-- The configuration registers hold legal values (10_state.md R40). -/
def CfgOk (c : Cfg) : Prop := c.thrCtl.toNat ≤ 1 ∧ c.psAmp.toNat ≤ 2 ^ 23 - 1

/-- The registers of PIPE fit one another (10_state.md R23, 40_pipeline_control.md R110, 60_exceptions.md R270 to
R272). -/
structure PassOk (s : State) : Prop where
  /-- `FAULTED` exactly while a cause is latched. -/
  faulted_iff : s.pipe.st = .faulted ↔ s.pipe.cause ≠ .none
  /-- With no cause the info record is clear. -/
  info_clear : s.pipe.cause = .none → s.pipe.info = ⟨0, 0, 0, 0⟩
  /-- Only CAT can end `FAULTED`, and the period latched is CD's. -/
  faulted_cat : s.pipe.st = .faulted → s.pipe.mode = .cat ∧ s.pipe.info.period = s.cd.period
  /-- A pass runs only under a configuration its mode can run. -/
  run_legal : s.pipe.st = .run → s.cfg.legal s.pipe.mode = true
  /-- In mode EDGE no bit pair is ever undecodable. -/
  edge_binary : s.pipe.mode = .edge → s.pipe.flags.badgrp = false ∧ s.sd.b1 ≠ .x

/-- A unit that is not on the path of the mode holds its reset values (40_pipeline_control.md R116, R118). -/
structure OffPathReset (s : State) : Prop where
  zcd : UnitId.zcd ∉ modePath s.pipe.mode → s.zcd = Zcd.reset
  etd : UnitId.etd ∉ modePath s.pipe.mode → s.etd = Etd.reset
  sd : UnitId.sd ∉ modePath s.pipe.mode → s.sd = Sd.reset
  cd : UnitId.cd ∉ modePath s.pipe.mode → s.cd = Cd.reset
  ps : UnitId.ps ∉ modePath s.pipe.mode → s.ps = Ps.reset
  idle : s.pipe.st = .idle → s.zcd = Zcd.reset ∧ s.etd = Etd.reset ∧ s.sd = Sd.reset ∧ s.cd = Cd.reset ∧ s.ps = Ps.reset

/-- The last significant sample is `here`, one of the other sign is `other`: nothing of the other sign was seen, or the
last crossing lies strictly between the two (41_zero_crossing_detector.md R142, R144). -/
def MarksOk (z : Zcd) (here other : Mark) : Prop :=
  here.i < z.idx ∧
  ((z.haveX = false ∧ other = ⟨0, 0⟩) ∨ (z.haveX = true ∧ (other.i : ℚ) < z.lastT ∧ z.lastT < (here.i : ℚ)))

/-- The registers of ZCD (10_state.md R26). -/
structure ZcdOk (z : Zcd) : Prop where
  none : z.pol = .none → z.haveX = false ∧ z.lastPos = ⟨0, 0⟩ ∧ z.lastNeg = ⟨0, 0⟩
  pos : z.pol = .pos → 10 ≤ z.lastPos.v ∧ MarksOk z z.lastPos z.lastNeg
  neg : z.pol = .neg → z.lastNeg.v ≤ -10 ∧ MarksOk z z.lastNeg z.lastPos

/-- The registers of SD: the slot is the place in the frame, counted from the sync pair
(43_symbol_decoder.md R177, R184). -/
structure SdOk (d : Sd) : Prop where
  hunt : d.st = .hunt → d.syncpos = 0 ∧ d.slot = 0 ∧ d.b1 = .zero ∧ (d.prev1 = true → 0 < d.pos)
  synced : d.st = .synced → d.syncpos + 2 ≤ d.pos ∧ d.slot.val = (d.pos - d.syncpos - 1) % Config.sdFrame

/-- The registers of CD in a running pass (44_categorizing_demodulator.md R196, R200, R201, R222). -/
structure CdOk (s : State) : Prop where
  seek : s.cd.ph = .seek → s.cfg.manual = false ∧ s.cd.period = 0 ∧ s.cd.shift = .zero ∧ ∀ v ∈ s.cd.q, v ≤ 50
  climb : s.cd.ph = .climb → s.cfg.manual = false ∧ s.cd.period = 0 ∧ s.cd.shift = .zero ∧ 50 < s.cd.prev ∧
    s.cd.q.getLast? = some s.cd.prev
  automatic : s.cd.ph = .decode → s.cfg.manual = false →
    50 < s.cd.peak ∧ s.cd.high = 7 / 10 * (s.cd.peak : ℚ) ∧ s.cd.low = 1 / 2 * (s.cd.peak : ℚ)
  manual : s.cd.ph = .decode → s.cfg.manual = true → s.cd.high = s.cfg.high ∧ s.cd.low = s.cfg.low
  partial_period : s.cd.ph = .decode → (s.cd.q.length : Int) < pullCount s.cfg.sps s.cd.shift

/-- What every step keeps. -/
structure Inv (s : State) : Prop where
  /-- Between words every internal channel is empty (20_memory.md R76). -/
  drained : s.ch.internalEmpty = true
  cfg : CfgOk s.cfg
  pass : PassOk s
  units : OffPathReset s
  zcd : ZcdOk s.zcd
  sd : SdOk s.sd
  cd : s.pipe.st = .run → s.pipe.mode = .cat → CdOk s
  /-- Every token on `OUT` has a word (30_encoding.md R80). -/
  out : ∀ x ∈ s.ch.out, match x with
    | .sample v => sampleInRange v = true
    | .xing x => 0 ≤ x.delta
    | _ => True

end Sys2Proof.Machine
end

