-- ==== Sys2Proof/Certificates/Slice0/Obligations.lean ====
section
/-! DEFINITION. The statements for the provers, file by file of spec/. Each docstring names the rule. -/

section

open Sys2Proof Sys2Proof.Machine

/-! ### Encoding (30_encoding.md) -/

/-- R89 to R99: decoding the word of a well-formed instruction gives the instruction back, every operand at every
value. That DIAG words decode, and so do SYM words of code 4 and CFGWR words of any register and value, is the model's
choice (log 4): R105 calls a word with op 0x9 illegal, and the meanings refuse these words. That the sidebands carry the
rationals themselves is the model's choice too (log 6). -/
def Obligations.DecodeOfEncode : Prop :=
  ∀ i : Instr, i.wellFormed = true → decode (encode i) = .ok i

/-- R89 to R99: what the decoder accepts is well formed, and its word is the one the encoder writes, so no two words
decode to one instruction; a XING word keeps its sidebands. That a negative DELTA does not decode is the model's choice
(log 5). -/
def Obligations.EncodeOfDecode : Prop :=
  ∀ (p : PortWord) (i : Instr), decode p = .ok i →
    i.wellFormed = true ∧ (encode i).word = p.word ∧
      ∀ d t delta, i = .xing d t delta → encode i = p

/-- R105: the row of the mask-and-match list that covers a decoded word is its instruction's, at most one row covers a word,
and a word that no row covers is no instruction. -/
def Obligations.DecodeFollowsMaskRows : Prop :=
  (∀ p i, decode p = .ok i → ∃ r ∈ maskRows, r.mnemonic = i.mnemonic ∧ r.covers p.word = true) ∧
  (∀ p, (∀ r ∈ maskRows, r.covers p.word = false) → ∃ e, decode p = .error e) ∧
  (∀ w, ∀ r₁ ∈ maskRows, ∀ r₂ ∈ maskRows, r₁.covers w = true → r₂.covers w = true → r₁ = r₂)

/-- R63: a word carried as four bytes is little-endian, and the bytes behind it are left. -/
def Obligations.BytesAreLittleEndian : Prop :=
  ∀ (w : Word) (t delta : ℚ) (rest : List (BitVec 8)),
    (wordBytes w).map BitVec.toNat
      = [w.toNat % 256, w.toNat / 256 % 256, w.toNat / 65536 % 256, w.toNat / 16777216] ∧
    decodeBytes t delta (wordBytes w ++ rest) = (decode ⟨w, t, delta⟩).map fun i => (i, rest)

/-- R90 to R99: words of 95_test_vectors.md and of the encoding rules, one of each family, decode to what they stand
for. The last clause, that a DIAG word decodes, is the model's choice (log 4): R105 calls a word with op 0x9 illegal, and
DIAG's meaning refuses it. -/
def Obligations.SampleWordsDecode : Prop :=
  decode ⟨0x00000000, 0, 0⟩ = .ok .nop ∧
  decode ⟨0x10000000, 0, 0⟩ = .ok .reset ∧
  decode ⟨0x2400000C, 0, 0⟩ = .ok (.cfgwr 4 12) ∧
  decode ⟨0x30000001, 0, 0⟩ = .ok (.start .cat) ∧
  decode ⟨0x40000000, 0, 0⟩ = .ok .endOfStream ∧
  decode ⟨0x50FFFFE2, 0, 0⟩ = .ok (.sample (-30)) ∧
  decode ⟨0x60000001, 19, 9⟩ = .ok (.xing .falling 19 9) ∧
  decode ⟨0x70000002, 0, 0⟩ = .ok (.bit .x) ∧
  decode ⟨0x80000003, 0, 0⟩ = .ok (.sym (.letter .d)) ∧
  decode ⟨0x93000001, 0, 0⟩ = .ok (.diag 3 1)

/-! ### The step (40_pipeline_control.md R111, 20_memory.md R76) -/

/-- R111: when every internal channel is empty and the oldest word of `IN` decodes, the step is that instruction's
operation on the state with the word taken from `IN`, and nothing else. That one step is one word with all its
consequences is the model's reading (log 3); how words come to stand in `IN` is its choice (log 1). -/
def Obligations.StepRunsDecodedWord : Prop :=
  ∀ (s : State) (p : PortWord) (rest : List PortWord) (i : Instr),
    s.ch.internalEmpty = true → s.ch.inp = p :: rest → decode p = .ok i →
    step s = exec i { s with ch := { s.ch with inp := rest } }

/-- R122: a word that is illegal in form changes the count, ILLOP and `DIAG`, and nothing else. That a negative DELTA is
illegal in form is the model's choice (log 5). -/
def Obligations.StepRefusesIllegalForm : Prop :=
  ∀ (s : State) (p : PortWord) (rest : List PortWord) (e : DecodeError),
    s.ch.internalEmpty = true → s.ch.inp = p :: rest → decode p = .error e →
    step s = .next (State.afterRefusal { s with ch := { s.ch with inp := rest } })

/-- R122: so does a word that is illegal for its code, register, value, state or mode. -/
def Obligations.IllegalWordIsRefused : Prop :=
  ∀ (i : Instr) (s : State), illegalNow s i → exec i s = .next s.afterRefusal

/-- R99: a DIAG word on `IN` is refused, whatever its kind and sequence number. That it decodes and is refused by its
meaning, not by the decoder, is the model's choice (log 4). -/
def Obligations.DiagWordIsRefused : Prop :=
  ∀ (kind : BitVec 4) (seq : BitVec 24) (s : State), exec (.diag kind seq) s = .next s.afterRefusal

/-- R276: a block that receives no word does nothing. That there is such a step is the shape of the interface (log 2). -/
def Obligations.StepWithoutWord : Prop :=
  ∀ s : State, s.ch.internalEmpty = true → s.ch.inp = [] → step s = .next s

/-- R264: nothing of the block stops it: every step has a next state (log 12). -/
def Obligations.StepNeverStops : Prop := ∀ s : State, ∃ t, step s = .next t

/-- R76: every consequence of a word is complete before the next word is examined: from any state whatever, a step leaves
every internal channel empty. What a step does from a state with waiting tokens is the model's reading (log 3). -/
def Obligations.StepLeavesChannelsDrained : Prop :=
  ∀ s t : State, step s = .next t → t.ch.internalEmpty = true

/-- R72: two units of the EDGE path that both have a token can step in either order: only the order of `DIAG` shows
it. -/
def Obligations.EdgeUnitStepsCommute : Prop :=
  ∀ (s : State) (u v : UnitId), s.pipe.mode = .edge → u ∈ modePath .edge → v ∈ modePath .edge → u ≠ v →
    0 < s.ch.waiting u → 0 < s.ch.waiting v →
    ∃ ds es, (stepUnit v (stepUnit u s)).ch.diag = s.ch.diag ++ ds ∧ ds.Perm es ∧
      stepUnit u (stepUnit v s)
        = { stepUnit v (stepUnit u s) with
            ch := { (stepUnit v (stepUnit u s)).ch with diag := s.ch.diag ++ es } }

/-! ### Host words (40_pipeline_control.md) -/

/-- R112: NOP does nothing except be counted. -/
def Obligations.NopIsOnlyCounted : Prop :=
  ∀ s : State, exec .nop s = .next { s with pipe := { s.pipe with wc := s.pipe.wc + 1 } }

/-- R113, R291: RESET in any state leaves the state after power-on, with the words behind it in `IN`. -/
def Obligations.ResetWordRestoresEverything : Prop :=
  ∀ s : State, exec .reset s = .next
    { pipe := ⟨.idle, .edge, 0, .none, ⟨0, 0, 0, 0⟩, ⟨false, false, false, false⟩⟩
      cfg := ⟨0, 1, 1, 3, 0, 1, 0, 0, 0, 1, 0, 0, 0⟩
      zcd := ⟨0, .none, ⟨0, 0⟩, ⟨0, 0⟩, false, 0⟩
      etd := ⟨0⟩
      sd := ⟨.hunt, false, 0, 0, 0, .zero⟩
      cd := ⟨.seek, [], 0, 0, 0, 0, .zero, 0⟩
      ps := ⟨false, .a⟩
      ch := ⟨s.ch.inp, [], [], [], [], [], [], [], [], []⟩ }

/-- R114: outside RUN, CFGWR of a legal value writes that register, and the count is the only other change; in RUN, for a
reserved register or for an illegal value it is refused. -/
def Obligations.CfgwrWritesOneRegister : Prop :=
  ∀ (n : BitVec 4) (val : BitVec 24) (s : State),
    (s.pipe.st ≠ .run → n.toNat ≤ 12 → (n.toNat = 6 → val.toNat ≤ 1) → (n.toNat = 12 → val.toNat ≤ 2 ^ 23 - 1) →
      ∃ c : Cfg, exec (.cfgwr n val) s = .next { s.counted with cfg := c } ∧
        c.read n = val ∧ ∀ m, m ≠ n → c.read m = s.cfg.read m) ∧
    (s.pipe.st = .run ∨ 13 ≤ n.toNat ∨ (n.toNat = 6 ∧ 1 < val.toNat) ∨ (n.toNat = 12 ∧ 2 ^ 23 - 1 < val.toNat) →
      exec (.cfgwr n val) s = .next s.afterRefusal)

/-- R40: the reserved registers 13 to 15 read as 0. -/
def Obligations.ReservedRegistersReadZero : Prop :=
  ∀ (c : Cfg) (n : BitVec 4), 13 ≤ n.toNat → c.read n = 0

/-- R117: what START checks, for each mode, and for which periods the CAT inequality holds. -/
def Obligations.ConfigurationCheckPerMode : Prop :=
  ∀ c : Cfg,
    (c.legal .edge = true ↔ c.spbDen ≠ 0 ∧ c.spbNum ≠ 0 ∧ c.muDen ≠ 0) ∧
    (c.legal .etdOnly = true ↔ c.spbDen ≠ 0 ∧ c.spbNum ≠ 0 ∧ c.muDen ≠ 0) ∧
    (c.legal .cat = true ↔
      c.spsDen ≠ 0 ∧ ⌊c.sps / 2⌋ + 1 ≤ ⌈c.sps⌉ - 2 ∧ (c.thrCtl.getLsbD 0 = true → c.thrDen ≠ 0)) ∧
    (c.legal .synth = true ↔ c.psCarrier ≠ 0 ∧ c.psRate ≠ 0) ∧
    c.legal .zcdOnly = true ∧ c.legal .sdOnly = true ∧
    (⌊c.sps / 2⌋ + 1 ≤ ⌈c.sps⌉ - 2 ↔ 4 < c.sps ∨ (3 < c.sps ∧ c.sps < 4))

/-- R116: START is refused in RUN; outside RUN it begins the pass when the configuration is legal for the mode, and is a
configuration error when it is not. -/
def Obligations.StartBeginsPass : Prop :=
  ∀ (m : Mode) (s : State),
    (s.pipe.st = .run → exec (.start m) s = .next s.afterRefusal) ∧
    (s.pipe.st ≠ .run → s.cfg.legal m = false →
      exec (.start m) s = .next
        { s with
          pipe := { s.pipe with
            wc := s.pipe.wc + 1
            flags := { s.pipe.flags with cfgerr := true } }
          ch := { s.ch with diag := s.ch.diag ++ [⟨.cfgerr, s.pipe.wc⟩] } }) ∧
    (s.pipe.st ≠ .run → s.cfg.legal m = true →
      exec (.start m) s = .next
        { pipe := ⟨.run, m, s.pipe.wc + 1, .none, ⟨0, 0, 0, 0⟩, ⟨false, false, s.pipe.flags.illop, false⟩⟩
          cfg := s.cfg
          zcd := Zcd.reset
          etd := Etd.reset
          sd := Sd.reset
          cd :=
            if m = .cat ∧ s.cfg.thrCtl.getLsbD 0 = true then
              { Cd.reset with
                ph := .decode
                high := s.cfg.high
                low := s.cfg.low }
            else Cd.reset
          ps := Ps.reset
          ch := s.ch })

/-- R292: after reset, START gives CFGERR in the four modes that need a parameter, and begins the pass in the other
two. -/
def Obligations.StartAfterReset : Prop :=
  (∀ m ∈ [Mode.edge, .etdOnly, .cat, .synth], ∃ t, exec (.start m) State.reset = .next t ∧
    t.pipe.st = .idle ∧ t.pipe.flags.cfgerr = true ∧ t.ch.diag = [⟨.cfgerr, 0⟩]) ∧
  (∀ m ∈ [Mode.zcdOnly, .sdOnly], ∃ t, exec (.start m) State.reset = .next t ∧ t.pipe.st = .run ∧ t.pipe.mode = m)

/-- R120 with the five END rules R143, R164, R183, R215, R247: in RUN, END reaches `OUT` and the taps of the path, the pass
is DONE, CD drops its queue and nothing else happens; outside RUN it is refused. -/
def Obligations.EndClosesThePass : Prop :=
  ∀ s : State,
    (s.pipe.st ≠ .run → exec .endOfStream s = .next s.afterRefusal) ∧
    (s.pipe.st = .run → s.ch.internalEmpty = true →
      exec .endOfStream s = .next
        { s with
          pipe := { s.pipe with
            wc := s.pipe.wc + 1
            st := .done }
          cd := if s.pipe.mode = .cat then { s.cd with q := [] } else s.cd
          ch := { s.ch with
            out := s.ch.out ++ [.fin]
            tapX := if s.pipe.mode = .edge then s.ch.tapX ++ [.fin] else s.ch.tapX
            tapB := if s.pipe.mode = .edge then s.ch.tapB ++ [.fin] else s.ch.tapB } })

/-! ### SAMPLE at ZCD (41_zero_crossing_detector.md) -/

/-- R141: a noise sample changes no register of ZCD but the index, in both modes that feed ZCD. -/
def Obligations.NoiseSampleTakesAnIndex : Prop :=
  (∀ v : Int, significant v = true ↔ 10 ≤ |v|) ∧
  ∀ (v : Int) (s : State), s.ch.internalEmpty = true → s.pipe.st = .run →
    s.pipe.mode = .edge ∨ s.pipe.mode = .zcdOnly → |v| < 10 →
    exec (.sample v) s = .next { s.counted with zcd := { s.zcd with idx := s.zcd.idx + 1 } }

/-- R142: a significant sample with no transition, the first of the pass or one of the sign already seen, is remembered
and emits nothing, in both modes that feed ZCD. -/
def Obligations.SameSignSampleIsRemembered : Prop :=
  ∀ (v : Int) (s : State), s.ch.internalEmpty = true → s.pipe.st = .run →
    s.pipe.mode = .edge ∨ s.pipe.mode = .zcdOnly →
    (10 ≤ v → s.zcd.pol ≠ .neg →
      exec (.sample v) s = .next
        { s.counted with zcd := { s.zcd with
          idx := s.zcd.idx + 1
          pol := .pos
          lastPos := ⟨s.zcd.idx, v⟩ } }) ∧
    (v ≤ -10 → s.zcd.pol ≠ .pos →
      exec (.sample v) s = .next
        { s.counted with zcd := { s.zcd with
          idx := s.zcd.idx + 1
          pol := .neg
          lastNeg := ⟨s.zcd.idx, v⟩ } })

/-- R142: the crossing of a transition: its direction, its time (interpolated, but the after index less 1/2 when the before
sample has index 0) and its delta, with the registers after it. In registers no run reaches a quotient by 0 is 0 (log 9). -/
def Obligations.TransitionGivesCrossing : Prop :=
  ∀ (z : Zcd) (v : Int),
    (v ≤ -10 → z.pol = .pos →
      ∃ t : ℚ,
        t = (if z.lastPos.i = 0 then (z.idx : ℚ) - 1 / 2
          else z.lastPos.i + ((z.lastPos.v : ℚ) / (z.lastPos.v - v)) * (z.idx - z.lastPos.i)) ∧
        z.onSample v =
          ({ z with
             idx := z.idx + 1
             pol := .neg
             lastNeg := ⟨z.idx, v⟩
             haveX := true
             lastT := t }, some ⟨.falling, t, if z.haveX then t - z.lastT else 0⟩)) ∧
    (10 ≤ v → z.pol = .neg →
      ∃ t : ℚ,
        t = (if z.lastNeg.i = 0 then (z.idx : ℚ) - 1 / 2
          else z.lastNeg.i + ((z.lastNeg.v : ℚ) / (z.lastNeg.v - v)) * (z.idx - z.lastNeg.i)) ∧
        z.onSample v =
          ({ z with
             idx := z.idx + 1
             pol := .pos
             lastPos := ⟨z.idx, v⟩
             haveX := true
             lastT := t }, some ⟨.rising, t, if z.haveX then t - z.lastT else 0⟩))

/-- R118, R119, R142: in mode ZCD_ONLY a SAMPLE runs ZCD's rule, and its crossing, if any, goes to `OUT`; nothing else
changes. -/
def Obligations.SampleInZcdOnly : Prop :=
  ∀ (v : Int) (s : State), s.ch.internalEmpty = true → s.pipe.st = .run → s.pipe.mode = .zcdOnly →
    exec (.sample v) s = .next
      { s.counted with
        zcd := (s.zcd.onSample v).1
        ch := { s.ch with out := s.ch.out ++ (s.zcd.onSample v).2.toList.map .xing } }

/-- R118, R119, R123: in mode EDGE a SAMPLE that completes a crossing puts it on `TAPX`, its bits on `TAPB`, the symbols they
complete on `OUT` and the uncertainty diagnostic on `DIAG`, and changes the registers of the three units, the count
and UNC only. -/
def Obligations.SampleCrossingInEdge : Prop :=
  ∀ (v : Int) (s : State) (x : Xing), s.ch.internalEmpty = true → s.pipe.st = .run → s.pipe.mode = .edge →
    s.sd.b1 ≠ .x → (s.zcd.onSample v).2 = some x →
    exec (.sample v) s = .next
      { s with
        pipe := { s.pipe with
          wc := s.pipe.wc + 1
          flags := { s.pipe.flags with unc := s.pipe.flags.unc || uncertain s.cfg.spb s.cfg.mu x.delta } }
        zcd := (s.zcd.onSample v).1
        etd := ⟨s.etd.seq + 1⟩
        sd := sdAfter s.sd (etdBits s.cfg.spb x)
        ch := { s.ch with
          tapX := s.ch.tapX ++ [.tok x]
          tapB := s.ch.tapB ++ (etdBits s.cfg.spb x).map .tok
          out := s.ch.out ++ (sdStream s.sd (etdBits s.cfg.spb x)).map .sym
          diag := s.ch.diag ++ (if uncertain s.cfg.spb s.cfg.mu x.delta then [⟨.unc, s.etd.seq⟩] else []) } }

/-- R144, R145: the crossings of a pass: the first has delta 0; after each, the next has a later time, the other
direction, and a delta that is the difference of the two times and above 0. -/
def Obligations.CrossingsAlternateAndIncrease : Prop :=
  ∀ vs : List Int,
    (∀ x, (zcdStream Zcd.reset vs)[0]? = some x → x.delta = 0) ∧
    (∀ j x y, (zcdStream Zcd.reset vs)[j]? = some x → (zcdStream Zcd.reset vs)[j + 1]? = some y →
      x.t < y.t ∧ x.dir ≠ y.dir ∧ y.delta = y.t - x.t ∧ 0 < y.delta)

/-! ### XING at ETD (42_edge_timing_demodulator.md) -/

/-- R162, R163: XING in mode ETD_ONLY: the bit of the direction, `round(delta / SPB)` times, and the uncertainty
diagnostic; the operand `t` is not used. -/
def Obligations.XingInEtdOnly : Prop :=
  ∀ (dir : Dir) (t delta : ℚ) (s : State) (n : Nat) (u : ℚ), s.ch.internalEmpty = true → s.pipe.st = .run →
    s.pipe.mode = .etdOnly → 0 < s.cfg.spb → 0 ≤ delta →
    (n : Int) = ⌊delta / s.cfg.spb + 1 / 2⌋ → u = ((n : ℚ) - delta / s.cfg.spb) / s.cfg.spb →
    exec (.xing dir t delta) s = .next
      { s with
        pipe := { s.pipe with
          wc := s.pipe.wc + 1
          flags := { s.pipe.flags with unc := s.pipe.flags.unc || decide (s.cfg.mu < |u|) } }
        etd := ⟨s.etd.seq + 1⟩
        ch := { s.ch with
          out := s.ch.out ++ List.replicate n (.bit (if dir = .rising then .zero else .one))
          diag := s.ch.diag ++ (if s.cfg.mu < |u| then [⟨.unc, s.etd.seq⟩] else []) } }

/-- R165: an interval of exactly `k * SPB` gives exactly `k` bits of the correct polarity with uncertainty 0. -/
def Obligations.ExactIntervalGivesExactRun : Prop :=
  ∀ (spb : ℚ) (k : Nat) (x : Xing), 0 < spb → x.delta = k * spb →
    etdBits spb x = List.replicate k (if x.dir = .rising then .zero else .one) ∧ uncertainty spb x.delta = 0

/-- R163: the uncertainty is at most `1 / (2 * SPB)`, so above `SPB = 3/2` the diagnostic cannot fire at the reset `MU`. -/
def Obligations.UncertaintyIsBounded : Prop :=
  ∀ spb delta : ℚ, 0 < spb → 0 ≤ delta →
    |uncertainty spb delta| ≤ 1 / (2 * spb) ∧
    (3 / 2 < spb → uncertain spb Cfg.reset.mu delta = false)

/-! ### BIT at SD (43_symbol_decoder.md) -/

/-- R180: the bit-pair table, UNDEC when either bit is X. -/
def Obligations.BitPairTable : Prop :=
  lookup .one .one = .letter .a ∧ lookup .one .zero = .letter .b ∧ lookup .zero .zero = .letter .c ∧
    lookup .zero .one = .letter .d ∧ ∀ b, lookup .x b = .undec ∧ lookup b .x = .undec

/-- R177: BIT in mode SD_ONLY while SD hunts: the second of two 1-bits syncs, with the re-prepended 1 in slot 0; any other
bit is only noted. -/
def Obligations.BitWhileHunting : Prop :=
  ∀ (b : BitVal) (s : State), s.ch.internalEmpty = true → s.pipe.st = .run → s.pipe.mode = .sdOnly →
    s.sd.st = .hunt →
    exec (.bit b) s = .next
      { s.counted with sd :=
          if b = .one ∧ s.sd.prev1 = true then
            { s.sd with
              pos := s.sd.pos + 1
              st := .synced
              syncpos := s.sd.pos - 1
              b1 := .one
              slot := 1 }
          else
            { s.sd with
              pos := s.sd.pos + 1
              prev1 := decide (b = .one) } }

/-- R177, R181: BIT in mode SD_ONLY once synced: slot 0 holds the bit, slot 1 completes the live pair and emits its symbol
(with the diagnostic when it is UNDEC), slots 2 and 3 drop it. -/
def Obligations.BitOnceSynced : Prop :=
  ∀ (b : BitVal) (s : State), s.ch.internalEmpty = true → s.pipe.st = .run → s.pipe.mode = .sdOnly →
    s.sd.st = .synced →
    (s.sd.slot = 0 → exec (.bit b) s = .next
      { s.counted with sd := { s.sd with
        pos := s.sd.pos + 1
        b1 := b
        slot := 1 } }) ∧
    (s.sd.slot = 1 → exec (.bit b) s = .next
      { s with
        pipe := { s.pipe with
          wc := s.pipe.wc + 1
          flags := { s.pipe.flags with
            badgrp := s.pipe.flags.badgrp || decide (lookup s.sd.b1 b = .undec) } }
        sd := { s.sd with
          pos := s.sd.pos + 1
          slot := 2 }
        ch := { s.ch with
          out := s.ch.out ++ [.sym (lookup s.sd.b1 b)]
          diag := s.ch.diag ++ (if lookup s.sd.b1 b = .undec then [⟨.badgrp, s.sd.pos⟩] else []) } }) ∧
    (s.sd.slot = 2 → exec (.bit b) s = .next
      { s.counted with sd := { s.sd with
        pos := s.sd.pos + 1
        slot := 3 } }) ∧
    (s.sd.slot = 3 → exec (.bit b) s = .next
      { s.counted with sd := { s.sd with
        pos := s.sd.pos + 1
        slot := 0 } })

/-- R184: after the first two consecutive 1-bits, at indices `p` and `p + 1`, SD emits exactly one symbol on each bit of
index `p + 2 + 4 * j`, the lookup of the pair it completes. -/
def Obligations.OneSymbolPerFourBits : Prop :=
  ∀ (bs : List BitVal) (p : Nat), bs[p]? = some .one → bs[p + 1]? = some .one →
    (∀ k, k < p → ¬ (bs[k]? = some .one ∧ bs[k + 1]? = some .one)) →
    ∀ j : Nat, (sdStream Sd.reset bs)[j]? =
      (bs[p + 2 + 4 * j]?).map fun b0 =>
        lookup (if j = 0 then .one else (bs[p + 1 + 4 * j]?).getD .x) b0

/-! ### SAMPLE at CD (44_categorizing_demodulator.md) -/

/-- R200, R201: in mode CAT a SAMPLE during the peak scan that does not end the climb is stored, and starts or continues the
climb; nothing is emitted. -/
def Obligations.CatStoresDuringPeakScan : Prop :=
  ∀ (v : Int) (s : State), s.ch.internalEmpty = true → s.pipe.st = .run → s.pipe.mode = .cat →
    (s.cd.ph = .seek → v ≤ 50 →
      exec (.sample v) s = .next { s.counted with cd := { s.cd with q := s.cd.q ++ [v] } }) ∧
    (s.cd.ph = .seek → 50 < v →
      exec (.sample v) s = .next
        { s.counted with cd := { s.cd with
          q := s.cd.q ++ [v]
          ph := .climb
          prev := v } }) ∧
    (s.cd.ph = .climb → s.cd.prev ≤ v →
      exec (.sample v) s = .next
        { s.counted with cd := { s.cd with
          q := s.cd.q ++ [v]
          prev := v } })

/-- R200 to R203, R196: in mode CAT, the sample that ends the climb (which sets the peak and both thresholds) and every
sample in DECODE decode all the whole periods the queue then holds, and change nothing but CD, `OUT` and the count. -/
def Obligations.CatDecodesWholePeriods : Prop :=
  ∀ (v : Int) (s : State) (c d : Cd) (ks : List Letter), s.ch.internalEmpty = true → s.pipe.st = .run →
    s.pipe.mode = .cat → s.cfg.legal .cat = true →
    (s.cd.ph = .decode ∧ c = { s.cd with q := s.cd.q ++ [v] }) ∨
      (s.cd.ph = .climb ∧ v < s.cd.prev ∧
        c = { s.cd with
          q := s.cd.q ++ [v]
          ph := .decode
          peak := s.cd.prev
          high := 7 / 10 * (s.cd.prev : ℚ)
          low := 1 / 2 * (s.cd.prev : ℚ) }) →
    Periods s.cfg.sps ks c d →
    exec (.sample v) s = .next
      { s.counted with
        cd := d
        ch := { s.ch with out := s.ch.out ++ ks.map (fun k => .sym (.letter k)) } }

/-- R270, R273: when a period fails, the symbols of the periods before it are on `OUT`, cause and info are latched, the pass is
FAULTED, and nothing else is pushed anywhere. -/
def Obligations.CatTrapEntry : Prop :=
  ∀ (v : Int) (s : State) (c d : Cd) (ks : List Letter) (f : Fatal), s.ch.internalEmpty = true →
    s.pipe.st = .run → s.pipe.mode = .cat → s.cfg.legal .cat = true →
    (s.cd.ph = .decode ∧ c = { s.cd with q := s.cd.q ++ [v] }) ∨
      (s.cd.ph = .climb ∧ v < s.cd.prev ∧
        c = { s.cd with
          q := s.cd.q ++ [v]
          ph := .decode
          peak := s.cd.prev
          high := 7 / 10 * (s.cd.prev : ℚ)
          low := 1 / 2 * (s.cd.prev : ℚ) }) →
    PeriodsThenFatal s.cfg.sps ks c d f →
    exec (.sample v) s = .next
      { s with
        pipe := { s.pipe with
          wc := s.pipe.wc + 1
          st := .faulted
          cause := f.cause
          info := f.info }
        cd := d
        ch := { s.ch with out := s.ch.out ++ ks.map (fun k => .sym (.letter k)) } }

/-- R203, R206, R269, R271: the three categories are taken in order; the first that fails is the failure, with its cause, its slot and the
synthetic sample; with all three, the window decides, and no match is `NO_MATCH` with slot 3. -/
def Obligations.PeriodFailureOrder : Prop :=
  ∀ (h l n : ℚ) (period : Nat) (buf : List Int),
    let x (j : Nat) : Synthetic := getSample buf (j * n / 4)
    (∀ e, categorize h l n (x 0) = .error e →
      decodePeriod h l n period buf = .error ⟨e, ⟨period, 0, (x 0).value, (x 0).slope⟩⟩) ∧
    (∀ c₀ e, categorize h l n (x 0) = .ok c₀ → categorize h l n (x 1) = .error e →
      decodePeriod h l n period buf = .error ⟨e, ⟨period, 1, (x 1).value, (x 1).slope⟩⟩) ∧
    (∀ c₀ c₁ e, categorize h l n (x 0) = .ok c₀ → categorize h l n (x 1) = .ok c₁ →
      categorize h l n (x 2) = .error e →
      decodePeriod h l n period buf = .error ⟨e, ⟨period, 2, (x 2).value, (x 2).slope⟩⟩) ∧
    (∀ c₀ c₁ c₂, categorize h l n (x 0) = .ok c₀ → categorize h l n (x 1) = .ok c₁ →
      categorize h l n (x 2) = .ok c₂ →
      (∀ k, matchWindow c₀ c₁ c₂ = some k → decodePeriod h l n period buf = .ok k) ∧
      (matchWindow c₀ c₁ c₂ = none →
        decodePeriod h l n period buf = .error ⟨.noMatch, ⟨period, 3, 0, 0⟩⟩))

/-- R205: the tests of Categorize in their order. With `n = 0`, which no run has, the limit `h / (4 * n)` is 0 (log 9). -/
def Obligations.CategorizeTests : Prop :=
  ∀ h l n v m : ℚ,
    (h < v → categorize h l n ⟨v, m⟩ = .ok .high) ∧
    (v ≤ h → v < -h → categorize h l n ⟨v, m⟩ = .ok .low) ∧
    (v ≤ h → -h ≤ v → |v| < l →
      (0 < m → categorize h l n ⟨v, m⟩ = .ok .zeroRising) ∧
      (m < 0 → categorize h l n ⟨v, m⟩ = .ok .zeroDropping) ∧
      (m = 0 → categorize h l n ⟨v, m⟩ = .error .zeroSlope)) ∧
    (v ≤ h → -h ≤ v → l ≤ |v| →
      (h / (4 * n) < |m| → 0 < m → categorize h l n ⟨v, m⟩ = .ok .zeroRising) ∧
      (h / (4 * n) < |m| → m ≤ 0 → categorize h l n ⟨v, m⟩ = .ok .zeroDropping) ∧
      (|m| ≤ h / (4 * n) → categorize h l n ⟨v, m⟩ = .error .ambiguous))

/-- R206: exactly four windows match, each its symbol. -/
def Obligations.FourWindowsMatch : Prop :=
  matchWindow .zeroRising .high .zeroDropping = some .a ∧
  matchWindow .high .zeroDropping .low = some .b ∧
  matchWindow .zeroDropping .low .zeroRising = some .c ∧
  matchWindow .low .zeroRising .high = some .d ∧
  ∀ c₀ c₁ c₂,
    (c₀, c₁, c₂) ∉ [(Category.zeroRising, Category.high, Category.zeroDropping), (.high, .zeroDropping, .low),
      (.zeroDropping, .low, .zeroRising), (.low, .zeroRising, .high)] →
    matchWindow c₀ c₁ c₂ = none

/-- R204: the synthetic sample at an offset inside the buffer is the linear interpolation of its two neighbours, and its slope
the forward difference; at an integer offset its value is the sample. -/
def Obligations.SyntheticSampleInterpolates : Prop :=
  ∀ (buf : List Int) (x f : ℚ) (i : Nat) (a b : Int), 0 ≤ f → f < 1 → x = i + f →
    buf[i]? = some a → buf[i + 1]? = some b →
    getSample buf x = ⟨a + f * (b - a), b - a⟩ ∧ (f = 0 → (getSample buf x).value = a)

/-- R64, R117, R204: under a configuration CAT can run, every index of the three offsets is inside the pulled period, for every
value of the clock shift. -/
def Obligations.PeriodIndicesInRange : Prop :=
  ∀ (c : Cfg) (sh : Shift) (j : Fin 3), c.legal .cat = true →
    0 ≤ ⌊offset c.sps j⌋ ∧ ⌊offset c.sps j⌋ + 1 < pullCount c.sps sh

/-- R207 to R210: with no raw sign change the shift is 0; with the first one at index `i`, the shift is set by the distance of
its interpolated position from the nearest anchor, the lower one on a tie, with the band `[-1/2, 1/2]` closed. -/
def Obligations.ClockRecoveryShift : Prop :=
  ∀ (n : ℚ) (buf : List Int),
    ((∀ i a b, buf[i]? = some a → buf[i + 1]? = some b → ¬ ((a ≤ 0 ∧ 0 < b) ∨ (0 ≤ a ∧ b < 0))) →
      afc n buf = .zero) ∧
    (∀ (i : Nat) (a b : Int) (j : Fin 3) (x d : ℚ), buf[i]? = some a → buf[i + 1]? = some b →
      (a ≤ 0 ∧ 0 < b) ∨ (0 ≤ a ∧ b < 0) →
      (∀ k a' b', k < i → buf[k]? = some a' → buf[k + 1]? = some b' → ¬ ((a' ≤ 0 ∧ 0 < b') ∨ (0 ≤ a' ∧ b' < 0))) →
      x = i + (a : ℚ) / (a - b) →
      (∀ k : Fin 3, k < j → |x - j.val * n / 4| < |x - k.val * n / 4|) →
      (∀ k : Fin 3, |x - j.val * n / 4| ≤ |x - k.val * n / 4|) →
      d = x - j.val * n / 4 →
      (d < -1 / 2 → afc n buf = .minus) ∧ (1 / 2 < d → afc n buf = .plus) ∧
      (-1 / 2 ≤ d → d ≤ 1 / 2 → afc n buf = .zero))

/-! ### SYM at PS (45_phase_synthesizer.md) -/

/-- R245, R242: in mode SYNTH the first SYM of a pass is only held; every later one emits the cycle from the held symbol to it,
one sample for each `n` with `n * step < 1`, and is held. -/
def Obligations.SymHoldsThenEmitsCycle : Prop :=
  ∀ (l : Letter) (s : State) (len : Nat), s.ch.internalEmpty = true → s.pipe.st = .run → s.pipe.mode = .synth →
    s.cfg.psCarrier ≠ 0 → s.cfg.psRate ≠ 0 → (∀ n : Nat, n < len ↔ (n : ℚ) * s.cfg.step < 1) →
    (s.ps.holding = false →
      exec (.sym (.letter l)) s = .next
        { s.counted with ps := { s.ps with
          holding := true
          cur := l } }) ∧
    (s.ps.holding = true →
      exec (.sym (.letter l)) s = .next
        { s.counted with
          ps := { s.ps with cur := l }
          ch := { s.ch with
            out := s.ch.out ++ (List.range len).map (fun (n : Nat) =>
              Token.sample (cycleSample s.cfg.psAmp.toNat s.ps.cur l ((n : ℚ) * s.cfg.step))) } })

/-- R242, R243, R244: a synthesized sample is the rounding of the exact real value of the blended oscillators, ties toward plus
infinity, at every rational phase. It is the spec's exact oscillator, not an approximation `OSC` (log 7). -/
def Obligations.CycleSampleIsExactRounding : Prop :=
  ∀ (amp : Nat) (cur nxt : Letter) (u w : ℚ),
    (u ≤ 3 / 5 → w = 0) → (3 / 5 < u → u < 9 / 10 → w = (u - 3 / 5) / (3 / 10)) → (9 / 10 ≤ u → w = 1) →
    cycleSample amp cur nxt u = ⌊(amp : ℝ) * (w * osc nxt u + (1 - w) * osc cur u) + 1 / 2⌋

/-- R245: the magnitude of a synthesized sample never exceeds the amplitude. -/
def Obligations.CycleSampleIsBounded : Prop :=
  ∀ (amp : Nat) (cur nxt : Letter) (u : ℚ), |cycleSample amp cur nxt u| ≤ amp

/-- R250: a SYNTH pass of the symbols `ls` runs to its end and emits `max(k - 1, 0) * ceil(PS_RATE / PS_CARRIER)` samples and
END. -/
def Obligations.SynthSampleCount : Prop :=
  ∀ (s : State) (ls : List Letter), s.ch.internalEmpty = true → s.pipe.st ≠ .run → s.cfg.legal .synth = true →
    ∃ (t : State) (vs : List Int),
      Runs (.start .synth :: ls.map (fun l => .sym (.letter l)) ++ [.endOfStream]) s t ∧
      t.pipe.st = .done ∧ t.ch.out = s.ch.out ++ vs.map .sample ++ [.fin] ∧
      (vs.length : Int) = ((ls.length - 1 : Nat) : Int) * ⌈(s.cfg.psRate.toNat : ℚ) / s.cfg.psCarrier.toNat⌉

/-! ### Status, lines and reset (10_state.md, 60_exceptions.md, 70_reset_and_hazards.md) -/

/-- R43: the packed status word, field by field. -/
def Obligations.StatusWordLayout : Prop :=
  ∀ s : State,
    (s.statusWord.extractLsb' 0 2).toNat = s.pipe.st.code ∧
    (s.statusWord.extractLsb' 2 3).toNat = s.pipe.mode.code ∧
    (s.statusWord.extractLsb' 5 2).toNat = s.pipe.cause.code ∧
    s.statusWord.getLsbD 7 = false ∧
    s.statusWord.getLsbD 8 = s.pipe.flags.unc ∧
    s.statusWord.getLsbD 9 = s.pipe.flags.badgrp ∧
    s.statusWord.getLsbD 10 = s.pipe.flags.illop ∧
    s.statusWord.getLsbD 11 = s.pipe.flags.cfgerr ∧
    s.statusWord.extractLsb' 12 20 = 0

/-- R267: the two lines. -/
def Obligations.LinesFollowState : Prop :=
  ∀ s : State, (s.fatalLine = true ↔ s.pipe.st = .faulted) ∧ (s.diagValid = true ↔ s.ch.diag ≠ [])

/-- R44, R291: the state after power-on. -/
def Obligations.PowerOnState : Prop :=
  State.reset =
    { pipe := ⟨.idle, .edge, 0, .none, ⟨0, 0, 0, 0⟩, ⟨false, false, false, false⟩⟩
      cfg := ⟨0, 1, 1, 3, 0, 1, 0, 0, 0, 1, 0, 0, 0⟩
      zcd := ⟨0, .none, ⟨0, 0⟩, ⟨0, 0⟩, false, 0⟩
      etd := ⟨0⟩
      sd := ⟨.hunt, false, 0, 0, 0, .zero⟩
      cd := ⟨.seek, [], 0, 0, 0, 0, .zero, 0⟩
      ps := ⟨false, .a⟩
      ch := ⟨[], [], [], [], [], [], [], [], [], []⟩ } ∧
  State.reset.statusWord = 0 ∧ State.reset.fatalLine = false ∧ State.reset.diagValid = false

/-! ### Whole-machine rules -/

/-- The invariants hold after reset. -/
def Obligations.InvariantsAtReset : Prop := Inv State.reset

/-- Every step keeps the invariants. -/
def Obligations.InvariantsKeptByStep : Prop := ∀ s t : State, Inv s → step s = .next t → Inv t

/-- R110: the transitions of `PIPE.st` and the words that make them; `PIPE.mode` changes with START and RESET only. -/
def Obligations.PassTransitions : Prop :=
  ∀ s t : State, s.ch.internalEmpty = true → step s = .next t →
    (t.pipe.st = s.pipe.st ∧ t.pipe.mode = s.pipe.mode) ∨
    (takes s .reset ∧ t.pipe.st = .idle ∧ t.pipe.mode = .edge) ∨
    (s.pipe.st ≠ .run ∧ ∃ m, takes s (.start m) ∧ s.cfg.legal m = true ∧ t.pipe.st = .run ∧ t.pipe.mode = m) ∨
    (s.pipe.st = .run ∧ takes s .endOfStream ∧ t.pipe.st = .done ∧ t.pipe.mode = s.pipe.mode) ∨
    (s.pipe.st = .run ∧ s.pipe.mode = .cat ∧ (∃ v, takes s (.sample v)) ∧ t.pipe.st = .faulted ∧ t.pipe.mode = .cat)

/-- R272: in FAULTED the stream words and END are refused; NOP and CFGWR leave the stop as it is; an accepted START and RESET
leave it. -/
def Obligations.FaultedUntilRestart : Prop :=
  ∀ (i : Instr) (s t : State), s.pipe.st = .faulted → exec i s = .next t →
    (t.pipe.st = .faulted ∧ t.pipe.cause = s.pipe.cause ∧ t.pipe.info = s.pipe.info ∧ t.ch.out = s.ch.out ∧
      ((∃ v, i = .sample v) ∨ (∃ d x y, i = .xing d x y) ∨ (∃ b, i = .bit b) ∨ (∃ y, i = .sym y) ∨ i = .endOfStream →
        t = s.afterRefusal)) ∨
    ((∃ m, i = .start m) ∧ t.pipe.st = .run ∧ t.pipe.cause = .none ∧ t.pipe.info = ⟨0, 0, 0, 0⟩) ∨
    (i = .reset ∧ t.pipe.st = .idle ∧ t.pipe.cause = .none ∧ t.pipe.info = ⟨0, 0, 0, 0⟩)

/-- R114, R300: while a pass runs, the configuration is frozen for every word but RESET. -/
def Obligations.ConfigurationFrozenInRun : Prop :=
  ∀ s t : State, s.ch.internalEmpty = true → s.pipe.st = .run → ¬ takes s .reset → step s = .next t → t.cfg = s.cfg

/-- R24, R111: every word taken is counted once, and RESET restarts the count. -/
def Obligations.EveryWordIsCounted : Prop :=
  ∀ (s t : State) (p : PortWord) (rest : List PortWord), s.ch.internalEmpty = true → s.ch.inp = p :: rest →
    step s = .next t →
    t.ch.inp = rest ∧ t.pipe.wc = if decode p = .ok .reset then 0 else s.pipe.wc + 1

/-- R70, R15: the output channels only grow at their ends, except under RESET, and ILLOP stays set. -/
def Obligations.OutputsAppendOnly : Prop :=
  ∀ s t : State, s.ch.internalEmpty = true → ¬ takes s .reset → step s = .next t →
    s.ch.out <+: t.ch.out ∧ s.ch.tapX <+: t.ch.tapX ∧ s.ch.tapB <+: t.ch.tapB ∧ s.ch.diag <+: t.ch.diag ∧
      (s.pipe.flags.illop = true → t.pipe.flags.illop = true)

/-- R22, R116: what a pass puts on `OUT` and the taps, its soft diagnostics and every register it leaves are a function of the
configuration, the mode and the words of the pass: two states that differ in everything else agree on them. -/
def Obligations.PassDependsOnNothingBefore : Prop :=
  ∀ (s₁ s₂ t₁ t₂ : State) (m : Mode) (ws : List Instr), s₁.ch.internalEmpty = true → s₂.ch.internalEmpty = true →
    s₁.cfg = s₂.cfg → s₁.pipe.st ≠ .run → s₂.pipe.st ≠ .run → s₁.cfg.legal m = true → Instr.reset ∉ ws →
    Runs (.start m :: ws) s₁ t₁ → Runs (.start m :: ws) s₂ t₂ →
    (∃ out tapX tapB,
      t₁.ch.out = s₁.ch.out ++ out ∧ t₂.ch.out = s₂.ch.out ++ out ∧
      t₁.ch.tapX = s₁.ch.tapX ++ tapX ∧ t₂.ch.tapX = s₂.ch.tapX ++ tapX ∧
      t₁.ch.tapB = s₁.ch.tapB ++ tapB ∧ t₂.ch.tapB = s₂.ch.tapB ++ tapB) ∧
    (∃ ds₁ ds₂, t₁.ch.diag = s₁.ch.diag ++ ds₁ ∧ t₂.ch.diag = s₂.ch.diag ++ ds₂ ∧
      ds₁.filter (fun d => decide (d.kind = .unc ∨ d.kind = .badgrp))
        = ds₂.filter (fun d => decide (d.kind = .unc ∨ d.kind = .badgrp))) ∧
    t₁.zcd = t₂.zcd ∧ t₁.etd = t₂.etd ∧ t₁.sd = t₂.sd ∧ t₁.cd = t₂.cd ∧ t₁.ps = t₂.ps ∧ t₁.cfg = t₂.cfg ∧
    t₁.pipe.st = t₂.pipe.st ∧ t₁.pipe.mode = t₂.pipe.mode ∧ t₁.pipe.cause = t₂.pipe.cause ∧
    t₁.pipe.info = t₂.pipe.info ∧ t₁.pipe.flags.unc = t₂.pipe.flags.unc ∧
    t₁.pipe.flags.badgrp = t₂.pipe.flags.badgrp ∧ t₁.pipe.flags.cfgerr = t₂.pipe.flags.cfgerr

/-- R123: an EDGE pass runs to its end and is the composition of its three stages: `TAPX` is ZCD of the samples, `TAPB` is ETD
of that, `OUT` is SD of that. -/
def Obligations.EdgePassIsComposition : Prop :=
  ∀ (s : State) (vs : List Int), s.ch.internalEmpty = true → s.pipe.st ≠ .run → s.cfg.legal .edge = true →
    ∃ t : State, Runs (.start .edge :: vs.map .sample ++ [.endOfStream]) s t ∧ t.pipe.st = .done ∧
      t.ch.tapX = s.ch.tapX ++ (zcdStream Zcd.reset vs).map .tok ++ [.fin] ∧
      t.ch.tapB = s.ch.tapB ++ (etdStream s.cfg.spb (zcdStream Zcd.reset vs)).map .tok ++ [.fin] ∧
      t.ch.out = s.ch.out ++ (sdStream Sd.reset (etdStream s.cfg.spb (zcdStream Zcd.reset vs))).map .sym ++ [.fin]

/-- R251: with a period of `4 * m` samples (`m` at least 3) matched between the two modes, manual thresholds with `L` above 0
and `H` below the amplitude, and an amplitude at which the first sample of a sine does not round to 0, what SYNTH
makes of a list of symbols CAT decodes to all of them but the last. -/
def Obligations.SynthCatRoundTrip : Prop :=
  ∀ (s : State) (ls : List Letter) (m : Nat), s.ch.internalEmpty = true → s.pipe.st ≠ .run → 3 ≤ m →
    s.cfg.psCarrier ≠ 0 → s.cfg.psRate.toNat = 4 * m * s.cfg.psCarrier.toNat →
    s.cfg.spsDen ≠ 0 → s.cfg.spsNum.toNat = 4 * m * s.cfg.spsDen.toNat →
    s.cfg.manual = true → s.cfg.thrDen ≠ 0 → 0 < s.cfg.low → s.cfg.high < s.cfg.psAmp.toNat →
    1 < 2 * (s.cfg.psAmp.toNat : ℝ) * Real.sin (2 * Real.pi / (4 * m)) →
    ∃ (t u : State) (vs : List Int),
      Runs (.start .synth :: ls.map (fun l => .sym (.letter l)) ++ [.endOfStream]) s t ∧
      t.ch.out = s.ch.out ++ vs.map .sample ++ [.fin] ∧
      Runs (.start .cat :: vs.map .sample ++ [.endOfStream]) t u ∧ u.pipe.st = .done ∧
      u.ch.out = t.ch.out ++ ls.dropLast.map (fun l => .sym (.letter l)) ++ [.fin]

end
end

