-- ==== Sys2Proof/Laws/Oscillator.lean ====
section
/-! SUPPORT. `roundTone` is the rounding of the exact real waveform (45_phase_synthesizer.md R243): the bounds of π and of
the exponential, the bounds of a tone, and the gap an algebraic integer keeps from 0. -/

namespace Sys2Proof.Machine
open Finset

/-! ### π from below -/

theorem arctanHorner_eq (n : Int) (hn : 0 < n) (k i : Nat) :
    0 < (arctanHorner n k i).2 ∧
      ((arctanHorner n k i).1 : ℝ) / (arctanHorner n k i).2
        = ∑ m ∈ range k, (-1) ^ m / ((2 * ((i + m : Nat) : ℝ) + 1) * (n : ℝ) ^ (2 * m)) := by
  induction k generalizing i with
  | zero => simp [arctanHorner]
  | succ k ih =>
    obtain ⟨hv, hs⟩ := ih (i + 1)
    rcases h : arctanHorner n k (i + 1) with ⟨u, v⟩
    simp only [h] at hv hs
    have hn' : (n : ℝ) ≠ 0 := by exact_mod_cast hn.ne'
    have hv' : (v : ℝ) ≠ 0 := by exact_mod_cast hv.ne'
    have hi : (2 * (i : ℝ) + 1) ≠ 0 := by positivity
    simp only [arctanHorner, h]
    refine ⟨by positivity, ?_⟩
    rw [sum_range_succ']
    have hrec : ∑ m ∈ range k, (-1 : ℝ) ^ (m + 1) / ((2 * ((i + (m + 1) : Nat) : ℝ) + 1) * (n : ℝ) ^ (2 * (m + 1)))
        = -(1 / (n : ℝ) ^ 2) * ((u : ℝ) / v) := by
      rw [hs, mul_sum]
      refine sum_congr rfl fun m _ => ?_
      have : (2 * ((i + (m + 1) : Nat) : ℝ) + 1) ≠ 0 := by positivity
      have e : i + 1 + m = i + (m + 1) := by omega
      rw [e]
      field_simp
      ring
    rw [hrec]
    push_cast
    simp only [pow_zero]
    field_simp
    ring

/-- The partial sums of the arc tangent series are `(1/n) * u/v`. -/
theorem arctanHorner_partial (n : Int) (hn : 0 < n) (k : Nat) :
    ∑ m ∈ range k, (-1 : ℝ) ^ m * ((n : ℝ)⁻¹ ^ (2 * m + 1) / ((2 * m + 1 : Nat) : ℝ))
      = (n : ℝ)⁻¹ * ((arctanHorner n k 0).1 / (arctanHorner n k 0).2) := by
  rw [(arctanHorner_eq n hn k 0).2, mul_sum]
  refine sum_congr rfl fun m _ => ?_
  have hn' : (n : ℝ) ≠ 0 := by exact_mod_cast hn.ne'
  have : (2 * (m : ℝ) + 1) ≠ 0 := by positivity
  push_cast
  simp only [zero_add, inv_pow]
  field_simp
  ring

theorem arctan_term_antitone (x : ℝ) (h0 : 0 ≤ x) (h1 : x ≤ 1) :
    Antitone fun m : ℕ => x ^ (2 * m + 1) / ((2 * m + 1 : Nat) : ℝ) := by
  refine antitone_nat_of_succ_le fun m => ?_
  have hp : x ^ (2 * (m + 1) + 1) ≤ x ^ (2 * m + 1) := pow_le_pow_of_le_one h0 h1 (by omega)
  exact div_le_div₀ (by positivity) hp (by positivity) (by push_cast; linarith)

theorem arctan_tendsto (x : ℝ) (h : ‖x‖ < 1) :
    Filter.Tendsto (fun k => ∑ m ∈ range k, (-1 : ℝ) ^ m * (x ^ (2 * m + 1) / ((2 * m + 1 : Nat) : ℝ)))
      Filter.atTop (nhds (Real.arctan x)) := by
  have := (Real.hasSum_arctan h).tendsto_sum_nat
  refine this.congr fun k => sum_congr rfl fun m _ => by rw [mul_div_assoc]

/-- An even partial sum is at most the arc tangent, the next one at least, and they differ by one term. -/
theorem arctan_between (x : ℝ) (h0 : 0 ≤ x) (h1 : x < 1) (k : ℕ) :
    (∑ m ∈ range (2 * k), (-1 : ℝ) ^ m * (x ^ (2 * m + 1) / ((2 * m + 1 : Nat) : ℝ))) ≤ Real.arctan x ∧
    Real.arctan x ≤ ∑ m ∈ range (2 * k + 1), (-1 : ℝ) ^ m * (x ^ (2 * m + 1) / ((2 * m + 1 : Nat) : ℝ)) ∧
    (∑ m ∈ range (2 * k + 1), (-1 : ℝ) ^ m * (x ^ (2 * m + 1) / ((2 * m + 1 : Nat) : ℝ)))
      ≤ (∑ m ∈ range (2 * k), (-1 : ℝ) ^ m * (x ^ (2 * m + 1) / ((2 * m + 1 : Nat) : ℝ))) + x ^ (4 * k + 1) := by
  have hn : ‖x‖ < 1 := by rwa [Real.norm_of_nonneg h0]
  have ha := arctan_term_antitone x h0 h1.le
  refine ⟨ha.alternating_series_le_tendsto (arctan_tendsto x hn) k,
    ha.tendsto_le_alternating_series (arctan_tendsto x hn) k, ?_⟩
  rw [sum_range_succ]
  have e : (-1 : ℝ) ^ (2 * k) = 1 := by rw [pow_mul]; simp
  have e2 : 2 * (2 * k) + 1 = 4 * k + 1 := by ring
  rw [e, one_mul, e2]
  have : x ^ (4 * k + 1) / ((4 * k + 1 : Nat) : ℝ) ≤ x ^ (4 * k + 1) :=
    div_le_self (by positivity) (by push_cast; linarith [(Nat.cast_nonneg k : (0:ℝ) ≤ k)])
  linarith

theorem small_power (n : ℝ) (hn : 5 ≤ n) (p : ℕ) : n⁻¹ ^ (4 * (p / 8 + 1) + 1) ≤ 1 / (20 * 2 ^ p) := by
  have hp : p + 2 ≤ 9 * (p / 8 + 1) := by omega
  have h1 : (n⁻¹) ^ (4 * (p / 8 + 1) + 1) ≤ (5⁻¹ : ℝ) ^ (4 * (p / 8 + 1) + 1) :=
    pow_le_pow_left₀ (by positivity) (inv_anti₀ (by norm_num) hn) _
  have h2 : (5⁻¹ : ℝ) ^ (4 * (p / 8 + 1) + 1) = (625⁻¹ : ℝ) ^ (p / 8 + 1) * 5⁻¹ := by
    rw [pow_succ, pow_mul]; norm_num
  have h3 : (625⁻¹ : ℝ) ^ (p / 8 + 1) ≤ (512⁻¹ : ℝ) ^ (p / 8 + 1) :=
    pow_le_pow_left₀ (by norm_num) (by norm_num) _
  have h4 : (512⁻¹ : ℝ) ^ (p / 8 + 1) = (2⁻¹ : ℝ) ^ (9 * (p / 8 + 1)) := by
    rw [pow_mul]; norm_num only
  have h5 : (2⁻¹ : ℝ) ^ (9 * (p / 8 + 1)) ≤ (2⁻¹ : ℝ) ^ (p + 2) :=
    pow_le_pow_of_le_one (by norm_num) (by norm_num) hp
  have h6 : (2⁻¹ : ℝ) ^ (p + 2) * 5⁻¹ = 1 / (20 * 2 ^ p) := by
    rw [pow_add, inv_pow]; field_simp; norm_num
  rw [← h6]
  nlinarith

/-- `piScaled p / 2^p` is below π, by less than `2 / 2^p`. -/
theorem piScaled_bounds (p : Nat) :
    (piScaled p : ℝ) ≤ 2 ^ p * Real.pi ∧ 2 ^ p * Real.pi < piScaled p + 2 := by
  set k := p / 8 + 1 with hk
  obtain ⟨hv, -⟩ := arctanHorner_eq 5 (by norm_num) (2 * k) 0
  obtain ⟨hy, -⟩ := arctanHorner_eq 239 (by norm_num) (2 * k + 1) 0
  have s5 := arctanHorner_partial 5 (by norm_num) (2 * k)
  have s239 := arctanHorner_partial 239 (by norm_num) (2 * k + 1)
  rcases h5 : arctanHorner 5 (2 * k) 0 with ⟨u, v⟩
  rcases h239 : arctanHorner 239 (2 * k + 1) 0 with ⟨x, y⟩
  simp only [h5] at hv s5
  simp only [h239] at hy s239
  obtain ⟨a1, a2, a3⟩ := arctan_between 5⁻¹ (by norm_num) (by norm_num) k
  obtain ⟨b1, b2, b3⟩ := arctan_between 239⁻¹ (by norm_num) (by norm_num) k
  have e1 := small_power 5 (by norm_num) p
  have e2 := small_power 239 (by norm_num) p
  rw [← hk] at e1 e2
  push_cast at s5 s239 a1 a2 a3 b1 b2 b3
  rw [s5] at a1 a3
  rw [s239] at b2 b3
  have hpi := Real.four_mul_arctan_inv_5_sub_arctan_inv_239
  have hv' : (0 : ℝ) < v := by exact_mod_cast hv
  have hy' : (0 : ℝ) < y := by exact_mod_cast hy
  have hden : 0 < 5 * 239 * v * y := by positivity
  set m : ℝ := 16 * (5⁻¹ * (u / v)) - 4 * (239⁻¹ * (x / y)) with hm
  have hpow : (0 : ℝ) < 2 ^ p := by positivity
  have lo : m ≤ Real.pi := by rw [hm]; linarith
  have hi : Real.pi ≤ m + 1 / 2 ^ p := by
    have : (1 : ℝ) / (20 * 2 ^ p) = (1 / 20) * (1 / 2 ^ p) := by field_simp
    have hp1 : (0 : ℝ) < 1 / 2 ^ p := by positivity
    rw [this] at e1 e2
    rw [hm]; linarith
  have hPI : piScaled p = (2 ^ p * (16 * 239 * u * y - 4 * 5 * x * v)) / (5 * 239 * v * y) := by
    simp only [piScaled, ← hk, h5, h239]
  have hmn : (2 : ℝ) ^ p * m * (5 * 239 * v * y) = ((2 ^ p * (16 * 239 * u * y - 4 * 5 * x * v) : Int) : ℝ) := by
    rw [hm]; push_cast; field_simp; ring
  have f1 := Int.ediv_mul_le (2 ^ p * (16 * 239 * u * y - 4 * 5 * x * v)) hden.ne'
  have f2 := Int.lt_ediv_add_one_mul_self (2 ^ p * (16 * 239 * u * y - 4 * 5 * x * v)) hden
  rw [← hPI] at f1 f2
  have g1 : (piScaled p : ℝ) * (5 * 239 * v * y) ≤ 2 ^ p * m * (5 * 239 * v * y) := by
    rw [hmn]; exact_mod_cast f1
  have g2 : 2 ^ p * m * (5 * 239 * v * y) < ((piScaled p : ℝ) + 1) * (5 * 239 * v * y) := by
    rw [hmn]; exact_mod_cast f2
  have hd : (0 : ℝ) < 5 * 239 * v * y := by positivity
  have g1' := le_of_mul_le_mul_right g1 hd
  have g2' := lt_of_mul_lt_mul_right g2 hd.le
  refine ⟨g1'.trans (by gcongr), ?_⟩
  have : (2 : ℝ) ^ p * Real.pi ≤ 2 ^ p * m + 1 := by
    calc (2 : ℝ) ^ p * Real.pi ≤ 2 ^ p * (m + 1 / 2 ^ p) := by gcongr
      _ = 2 ^ p * m + 1 := by field_simp
  linarith

/-! ### The exponential -/

theorem expHorner_den_pos (x q : Int) (hq : 0 < q) (k j : Nat) : 0 < (expHorner x q k j).2.2 := by
  induction k generalizing j with
  | zero => simp [expHorner]
  | succ k ih =>
    have := ih (j + 1)
    rcases h : expHorner x q k (j + 1) with ⟨c, s, d⟩
    simp only [h] at this
    simp only [expHorner, h]
    positivity

/-- The tail `sum_(m < k) z^m j! / (j + m)!` that Horner's rule builds up. -/
theorem expHorner_eq (x q : Int) (hq : 0 < q) (k j : Nat) :
    (((expHorner x q k j).1 : ℂ) + (expHorner x q k j).2.1 * Complex.I) / (expHorner x q k j).2.2
      = ∑ m ∈ range k, ((x / q : ℂ) * Complex.I) ^ m * (j.factorial / (j + m).factorial : ℂ) := by
  induction k generalizing j with
  | zero => simp [expHorner]
  | succ k ih =>
    have hd := expHorner_den_pos x q hq k (j + 1)
    have hs := ih (j + 1)
    rcases h : expHorner x q k (j + 1) with ⟨c, s, d⟩
    simp only [h] at hd hs
    have hd' : (d : ℂ) ≠ 0 := by exact_mod_cast hd.ne'
    have hq' : (q : ℂ) ≠ 0 := by exact_mod_cast hq.ne'
    have hj : ((j : ℂ) + 1) ≠ 0 := by exact_mod_cast Nat.succ_ne_zero j
    simp only [expHorner, h]
    rw [sum_range_succ']
    have hrec : ∑ m ∈ range k, ((x / q : ℂ) * Complex.I) ^ (m + 1) * (j.factorial / (j + (m + 1)).factorial : ℂ)
        = (x / q : ℂ) * Complex.I / (j + 1) * (((c : ℂ) + s * Complex.I) / d) := by
      rw [hs, mul_sum]
      refine sum_congr rfl fun m _ => ?_
      have e : j + 1 + m = j + (m + 1) := by omega
      have hf : ((j + (m + 1)).factorial : ℂ) ≠ 0 := by exact_mod_cast Nat.factorial_ne_zero _
      rw [e, Nat.factorial_succ, pow_succ]
      push_cast
      generalize (x / q : ℂ) * Complex.I = z
      field_simp
    rw [hrec]
    have hf : (j.factorial : ℂ) ≠ 0 := by exact_mod_cast Nat.factorial_ne_zero _
    push_cast
    simp only [pow_zero, Nat.add_zero, div_self hf]
    field_simp
    linear_combination (-(x : ℂ) * s) * Complex.I_sq

theorem factorial_large (m : Nat) : 8 ^ (m + 8) ≤ 2 ^ 14 * (m + 8).factorial := by
  induction m with
  | zero => decide
  | succ m ih =>
    rw [show m + 1 + 8 = (m + 8) + 1 by ring, pow_succ, Nat.factorial_succ]
    nlinarith

/-- The Taylor remainder at the number of terms of precision `p` is far below the precision. -/
theorem remainder_small (p : Nat) (x : ℝ) (h0 : 0 ≤ x) (h2 : x ≤ 2) :
    x ^ termCount p / (termCount p).factorial * 2 ≤ x / (2 ^ p * 2) := by
  obtain ⟨m, hm⟩ : ∃ m, termCount p = m + 8 := ⟨p / 2, rfl⟩
  have hp : p + 2 ^ 0 * 15 ≤ 2 * (m + 8) := by simp only [termCount] at hm; omega
  have hfac : (8 : ℝ) ^ (m + 8) ≤ 2 ^ 14 * ((m + 8).factorial : ℝ) := by exact_mod_cast factorial_large m
  have hfp : (0 : ℝ) < ((m + 8).factorial : ℝ) := by exact_mod_cast Nat.factorial_pos _
  rw [hm, show m + 8 = (m + 7) + 1 by ring, pow_succ, show (m + 7) + 1 = m + 8 by ring]
  have hx : x ^ (m + 7) ≤ 2 ^ (m + 7) := pow_le_pow_left₀ h0 h2 _
  have key : (2 : ℝ) ^ (m + 7) * (2 ^ p * 4) ≤ (m + 8).factorial := by
    have e1 : (2 : ℝ) ^ (m + 7) * (2 ^ p * 4) * 2 ^ 14 ≤ 8 ^ (m + 8) := by
      rw [show (8 : ℝ) = 2 ^ 3 by norm_num, ← pow_mul]
      calc (2 : ℝ) ^ (m + 7) * (2 ^ p * 4) * 2 ^ 14 = 2 ^ (m + 7 + p + 16) := by
            ring
        _ ≤ 2 ^ (3 * (m + 8)) := pow_le_pow_right₀ (by norm_num) (by omega)
    have : (0 : ℝ) < 2 ^ 14 := by positivity
    nlinarith
  rw [div_mul_eq_mul_div, div_le_div_iff₀ hfp (by positivity)]
  calc x ^ (m + 7) * x * 2 * (2 ^ p * 2) ≤ 2 ^ (m + 7) * x * 2 * (2 ^ p * 2) := by gcongr
    _ = x * (2 ^ (m + 7) * (2 ^ p * 4)) := by ring
    _ ≤ x * ((m + 8).factorial : ℝ) := by gcongr

/-- The Taylor polynomials of precision `p` against the cosine and sine of their own angle. -/
theorem expHorner_near (p : Nat) (x q : Int) (hq : 0 < q) (h0 : 0 ≤ x) (h2 : (x : ℝ) / q ≤ 2) :
    |Real.cos (x / q) - (expHorner x q (termCount p) 0).1 / (expHorner x q (termCount p) 0).2.2|
        ≤ (x / q : ℝ) / (2 ^ p * 2) ∧
    |Real.sin (x / q) - (expHorner x q (termCount p) 0).2.1 / (expHorner x q (termCount p) 0).2.2|
        ≤ (x / q : ℝ) / (2 ^ p * 2) := by
  set M := termCount p with hM
  have hq' : (0 : ℝ) < q := by exact_mod_cast hq
  have hx0 : (0 : ℝ) ≤ x / q := div_nonneg (by exact_mod_cast h0) hq'.le
  set θ : ℝ := x / q with hθ
  have hnorm : ‖((θ : ℂ) * Complex.I)‖ = θ := by
    rw [norm_mul, Complex.norm_I, mul_one, Complex.norm_real, Real.norm_of_nonneg hx0]
  have hM8 : 8 ≤ M := by simp [hM, termCount]
  have hcond : ‖((θ : ℂ) * Complex.I)‖ / (M.succ : ℝ) ≤ 1 / 2 := by
    rw [hnorm, div_le_div_iff₀ (by positivity) (by norm_num)]
    have : (8 : ℝ) ≤ M := by exact_mod_cast hM8
    push_cast
    linarith
  have hb := Complex.exp_bound' hcond
  have hE := expHorner_eq x q hq M 0
  rcases h : expHorner x q M 0 with ⟨c, s, d⟩
  simp only [h] at hE ⊢
  have hsum : ∑ m ∈ range M, ((θ : ℂ) * Complex.I) ^ m / (m.factorial : ℂ) = ((c : ℂ) + s * Complex.I) / d := by
    rw [hE]
    refine sum_congr rfl fun m _ => ?_
    rw [hθ]
    push_cast
    simp [div_eq_mul_inv]
  rw [hsum, hnorm, Complex.exp_mul_I, ← Complex.ofReal_cos, ← Complex.ofReal_sin] at hb
  have hsplit : (Real.cos θ : ℂ) + (Real.sin θ : ℂ) * Complex.I - ((c : ℂ) + s * Complex.I) / d
      = (((Real.cos θ - c / d : ℝ)) : ℂ) + ((Real.sin θ - s / d : ℝ) : ℂ) * Complex.I := by
    push_cast
    ring
  rw [hsplit] at hb
  have hrem := remainder_small p θ hx0 h2
  rw [← hM] at hrem
  have hre := (Complex.abs_re_le_norm _).trans (hb.trans hrem)
  have him := (Complex.abs_im_le_norm _).trans (hb.trans hrem)
  simp only [Complex.add_re, Complex.add_im, Complex.ofReal_re, Complex.ofReal_im, Complex.re_ofReal_mul,
    Complex.im_ofReal_mul, Complex.I_re, Complex.I_im, mul_zero, mul_one, add_zero, zero_add] at hre him
  exact ⟨hre, him⟩

/-! ### The bounds of a tone -/

/-- The real number a phasor stands for at phase `u` turns. -/
noncomputable def Phasor.value (f : Phasor) (u : ℝ) : ℝ :=
  (f.s : ℝ) * Real.sin (2 * Real.pi * u) + (f.c : ℝ) * Real.cos (2 * Real.pi * u)

theorem floor_intDiv (a b : Int) (hb : 0 < b) : ⌊(a : ℝ) / b⌋ = a / b := by
  have hb' : (0 : ℝ) < b := by exact_mod_cast hb
  rw [Int.floor_eq_iff, le_div_iff₀ hb', div_lt_iff₀ hb']
  have f1 := Int.ediv_mul_le a hb.ne'
  have f2 := Int.lt_ediv_add_one_mul_self a hb
  exact ⟨by exact_mod_cast f1, by exact_mod_cast f2⟩

theorem ratCast_num_div_den (x : ℚ) : (x : ℝ) = (x.num : ℝ) / (x.den : ℝ) := by
  conv_lhs => rw [← Rat.num_div_den x]
  push_cast
  rfl

/-- What `toneFloors` answers: the floors of two bounds at the same distance from a middle, which the real value is at
most that distance from. -/
theorem toneFloors_spec (amp : Nat) (f : Phasor) (r : ℚ) (h0 : 0 ≤ r) (h1 : r < 1 / 4) (p : Nat) :
    ∃ mid : ℝ,
      |((amp : ℝ) * f.value r + 1 / 2) - mid| ≤ (amp : ℝ) * (|(f.s : ℝ)| + |(f.c : ℝ)|) * (8 * r / 2 ^ p) ∧
      (toneFloors amp f r p).1 = ⌊mid - (amp : ℝ) * (|(f.s : ℝ)| + |(f.c : ℝ)|) * (8 * r / 2 ^ p)⌋ ∧
      (toneFloors amp f r p).2 = ⌊mid + (amp : ℝ) * (|(f.s : ℝ)| + |(f.c : ℝ)|) * (8 * r / 2 ^ p)⌋ := by
  obtain ⟨pl, ph⟩ := piScaled_bounds p
  have hP : (0 : ℝ) < 2 ^ p := by positivity
  have hP1 : (1 : ℝ) ≤ 2 ^ p := one_le_pow₀ (by norm_num)
  have hrn : 0 ≤ r.num := Rat.num_nonneg.mpr h0
  have hrd : (0 : Int) < r.den := by exact_mod_cast r.den_pos
  have hPI : 0 ≤ piScaled p := by
    have h : (-1 : ℝ) < piScaled p := by nlinarith [Real.pi_gt_three]
    have h' : (-1 : Int) < piScaled p := by exact_mod_cast h
    omega
  set x : Int := 2 * piScaled p * r.num with hx
  set q : Int := 2 ^ p * (r.den : Int) with hq
  have hqpos : 0 < q := by positivity
  have hx0 : 0 ≤ x := by positivity
  have hr : (r : ℝ) = (r.num : ℝ) / (r.den : ℝ) := ratCast_num_div_den r
  have hr0 : (0 : ℝ) ≤ r := by exact_mod_cast h0
  have hr1 : (r : ℝ) < 1 / 4 := by
    have : ((r : ℚ) : ℝ) < ((1 / 4 : ℚ) : ℝ) := by exact_mod_cast h1
    simpa using this
  have hrd' : (0 : ℝ) < (r.den : ℝ) := by exact_mod_cast r.den_pos
  have hangle : (x : ℝ) / q = 2 * (piScaled p / 2 ^ p) * r := by
    rw [hr, hx, hq]; push_cast; field_simp
  have hpl : (piScaled p : ℝ) / 2 ^ p ≤ Real.pi := by rw [div_le_iff₀ hP]; linarith
  have hph : Real.pi ≤ (piScaled p : ℝ) / 2 ^ p + 2 / 2 ^ p := by
    rw [← add_div, le_div_iff₀ hP]; linarith
  have hPI0 : (0 : ℝ) ≤ (piScaled p : ℝ) / 2 ^ p := div_nonneg (by exact_mod_cast hPI) hP.le
  have hle2 : (x : ℝ) / q ≤ 2 := by
    rw [hangle]; nlinarith [Real.pi_lt_four]
  obtain ⟨hc, hs⟩ := expHorner_near p x q hqpos hx0 hle2
  have hdpos := expHorner_den_pos x q hqpos (termCount p) 0
  have hrem : (x / q : ℝ) / (2 ^ p * 2) ≤ 4 * r / 2 ^ p := by
    rw [hangle, div_le_div_iff₀ (by positivity) hP]
    have : (piScaled p : ℝ) / 2 ^ p ≤ 4 := hpl.trans Real.pi_lt_four.le
    nlinarith [mul_nonneg hr0 hP.le, mul_nonneg hPI0 (mul_nonneg hr0 hP.le)]
  have hdist : |2 * Real.pi * (r : ℝ) - (x : ℝ) / q| ≤ 4 * r / 2 ^ p := by
    rw [hangle, show 2 * Real.pi * (r : ℝ) - 2 * ((piScaled p : ℝ) / 2 ^ p) * r
      = 2 * r * (Real.pi - (piScaled p : ℝ) / 2 ^ p) by ring, abs_of_nonneg (by nlinarith)]
    have : 2 * (r : ℝ) * (Real.pi - (piScaled p : ℝ) / 2 ^ p) ≤ 2 * r * (2 / 2 ^ p) := by
      gcongr; linarith
    linarith [show 2 * (r : ℝ) * (2 / 2 ^ p) = 4 * r / 2 ^ p by ring]
  have hS := (Real.abs_sin_sub_sin_le (2 * Real.pi * r) ((x : ℝ) / q)).trans hdist
  have hC := (Real.abs_cos_sub_cos_le (2 * Real.pi * r) ((x : ℝ) / q)).trans hdist
  rcases h : expHorner x q (termCount p) 0 with ⟨c, s, d⟩
  simp only [h] at hc hs hdpos
  have hd : (0 : ℝ) < d := by exact_mod_cast hdpos
  have hS' : |Real.sin (2 * Real.pi * r) - s / d| ≤ 8 * r / 2 ^ p := by
    calc _ ≤ _ := abs_sub_le _ (Real.sin ((x : ℝ) / q)) _
      _ ≤ 4 * r / 2 ^ p + 4 * r / 2 ^ p := add_le_add hS (hs.trans hrem)
      _ = 8 * r / 2 ^ p := by ring
  have hC' : |Real.cos (2 * Real.pi * r) - c / d| ≤ 8 * r / 2 ^ p := by
    calc _ ≤ _ := abs_sub_le _ (Real.cos ((x : ℝ) / q)) _
      _ ≤ 4 * r / 2 ^ p + 4 * r / 2 ^ p := add_le_add hC (hc.trans hrem)
      _ = 8 * r / 2 ^ p := by ring
  have fs : (f.s : ℝ) = (f.s.num : ℝ) / (f.s.den : ℝ) := ratCast_num_div_den f.s
  have fc : (f.c : ℝ) = (f.c.num : ℝ) / (f.c.den : ℝ) := ratCast_num_div_den f.c
  have hsd : (0 : ℝ) < (f.s.den : ℝ) := by exact_mod_cast f.s.den_pos
  have hcd : (0 : ℝ) < (f.c.den : ℝ) := by exact_mod_cast f.c.den_pos
  refine ⟨(amp : ℝ) * ((f.s : ℝ) * (s / d) + (f.c : ℝ) * (c / d)) + 1 / 2, ?_, ?_, ?_⟩
  · have e : (amp : ℝ) * f.value r + 1 / 2 - ((amp : ℝ) * ((f.s : ℝ) * (s / d) + (f.c : ℝ) * (c / d)) + 1 / 2)
        = amp * ((f.s : ℝ) * (Real.sin (2 * Real.pi * r) - s / d)
          + (f.c : ℝ) * (Real.cos (2 * Real.pi * r) - c / d)) := by
      simp only [Phasor.value]; ring
    rw [e, abs_mul, Nat.abs_cast, mul_assoc (amp : ℝ)]
    refine mul_le_mul_of_nonneg_left ?_ (by positivity)
    calc _ ≤ _ := abs_add_le _ _
      _ = |(f.s : ℝ)| * |Real.sin (2 * Real.pi * r) - s / d|
          + |(f.c : ℝ)| * |Real.cos (2 * Real.pi * r) - c / d| := by rw [abs_mul, abs_mul]
      _ ≤ |(f.s : ℝ)| * (8 * r / 2 ^ p) + |(f.c : ℝ)| * (8 * r / 2 ^ p) := by gcongr
      _ = _ := by ring
  all_goals
    have hden : (0 : Int) < 2 * ((f.s.den : Int) * (f.c.den : Int)) * d * q := by
      have a1 : (0 : Int) < f.s.den := by exact_mod_cast f.s.den_pos
      have a2 : (0 : Int) < f.c.den := by exact_mod_cast f.c.den_pos
      positivity
    simp only [toneFloors, ← hx, ← hq, h, Int.natCast_natAbs]
    rw [← floor_intDiv _ _ hden]
    congr 1
    have hq' : (q : ℝ) = 2 ^ p * (r.den : ℝ) := by rw [hq]; push_cast; ring
    push_cast
    rw [fs, fc, hr, abs_div, abs_div, abs_mul, abs_mul]
    simp only [Nat.abs_cast]
    rw [hq']
    field_simp
    ring

/-! ### Integer polynomials in a root of unity are zero or not small -/

theorem cyclotomic_gap_in (n : ℕ) [NeZero n] (K : Type) [Field K] [Algebra ℚ K] [IsCyclotomicExtension {n} ℚ K]
    (P : Polynomial ℤ) (b : ℝ) (hb : 1 ≤ b) (hbound : ∀ w : ℂ, w ^ n = 1 → ‖Polynomial.aeval w P‖ ≤ b)
    (ζ : ℂ) (hζ : IsPrimitiveRoot ζ n) (hne : Polynomial.aeval ζ P ≠ 0) :
    1 ≤ ‖Polynomial.aeval ζ P‖ * b ^ n.totient := by
  classical
  have hn : 0 < n := Nat.pos_of_neZero n
  have hfin : FiniteDimensional ℚ K := IsCyclotomicExtension.finiteDimensional {n} ℚ K
  have hz := IsCyclotomicExtension.zeta_spec n ℚ K
  set z : K := IsCyclotomicExtension.zeta n ℚ K
  have hirr : Irreducible (Polynomial.cyclotomic n ℚ) := Polynomial.cyclotomic.irreducible_rat hn
  obtain ⟨σ₀, hσ₀⟩ : ∃ σ : K →ₐ[ℚ] ℂ, σ z = ζ := by
    refine ⟨(hz.embeddingsEquivPrimitiveRoots ℂ hirr).symm ⟨ζ, (mem_primitiveRoots hn).mpr hζ⟩, ?_⟩
    rw [← hz.embeddingsEquivPrimitiveRoots_apply_coe ℂ hirr, Equiv.apply_symm_apply]
  have hmap : ∀ σ : K →ₐ[ℚ] ℂ, σ (Polynomial.aeval z P) = Polynomial.aeval (σ z) P := fun σ =>
    (Polynomial.aeval_algHom_apply (σ.restrictScalars ℤ) z P).symm
  have hx0 : Polynomial.aeval z P ≠ 0 := fun h => hne (by rw [← hσ₀, ← hmap, h, map_zero])
  have hnorm := Algebra.norm_eq_prod_embeddings ℚ ℂ (Polynomial.aeval z P)
  have hint : IsIntegral ℤ (Algebra.norm ℚ (Polynomial.aeval z P)) := by
    refine Algebra.isIntegral_norm ℚ ?_
    have hzi : IsIntegral ℤ z := hz.isIntegral hn
    exact IsIntegral.of_mem_of_fg _ hzi.fg_adjoin_singleton _ (Polynomial.aeval_mem_adjoin_singleton ℤ z)
  obtain ⟨k, hk⟩ := IsIntegrallyClosed.isIntegral_iff.mp hint
  have hk0 : k ≠ 0 := by
    rintro rfl
    rw [map_zero] at hk
    exact hx0 (Algebra.norm_eq_zero_iff.mp hk.symm)
  have hone : (1 : ℝ) ≤ ‖∏ σ : K →ₐ[ℚ] ℂ, σ (Polynomial.aeval z P)‖ := by
    rw [← hnorm, ← hk]
    simp only [eq_intCast, Complex.norm_intCast, map_intCast]
    exact_mod_cast Int.one_le_abs hk0
  have hle : ∀ σ : K →ₐ[ℚ] ℂ, ‖σ (Polynomial.aeval z P)‖ ≤ b := fun σ => by
    rw [hmap]
    exact hbound _ (by rw [← map_pow, hz.pow_eq_one, map_one])
  have hcard : Fintype.card (K →ₐ[ℚ] ℂ) = n.totient := by
    rw [AlgHom.card ℚ K ℂ, IsCyclotomicExtension.finrank K hirr]
  rw [norm_prod, ← mul_prod_erase univ (fun σ => ‖σ (Polynomial.aeval z P)‖) (mem_univ σ₀), hmap, hσ₀] at hone
  have hrest : ∏ σ ∈ univ.erase σ₀, ‖σ (Polynomial.aeval z P)‖ ≤ b ^ n.totient := by
    calc ∏ σ ∈ univ.erase σ₀, ‖σ (Polynomial.aeval z P)‖ ≤ ∏ _σ ∈ univ.erase σ₀, b :=
          prod_le_prod (fun _ _ => norm_nonneg _) fun σ _ => hle σ
      _ = b ^ (univ.erase σ₀).card := by rw [prod_const]
      _ ≤ b ^ n.totient := by
          refine pow_le_pow_right₀ hb ?_
          rw [← hcard]
          exact card_le_card (erase_subset _ _)
  exact hone.trans (mul_le_mul_of_nonneg_left hrest (norm_nonneg _))

/-- An integer polynomial at a primitive `n`-th root of unity, all of whose values at `n`-th roots of unity are at
most `b`, is 0 there or at least `b ^ -totient n`. -/
theorem cyclotomic_gap (n : ℕ) (hn : 0 < n) (P : Polynomial ℤ) (b : ℝ) (hb : 1 ≤ b)
    (hbound : ∀ w : ℂ, w ^ n = 1 → ‖Polynomial.aeval w P‖ ≤ b)
    (ζ : ℂ) (hζ : IsPrimitiveRoot ζ n) (hne : Polynomial.aeval ζ P ≠ 0) :
    1 ≤ ‖Polynomial.aeval ζ P‖ * b ^ n.totient := by
  have : NeZero n := ⟨hn.ne'⟩
  have : NeZero ((n : ℕ) : ℚ) := ⟨by exact_mod_cast hn.ne'⟩
  exact @cyclotomic_gap_in n _ (CyclotomicField n ℚ) _ (CyclotomicField.algebra n ℚ)
    (CyclotomicField.isCyclotomicExtension n ℚ) P b hb hbound ζ hζ hne

/-! ### The value of a tone is an integer or keeps its distance -/

/-- The common denominator of a phasor. -/
def Phasor.denominator (f : Phasor) : Nat := f.s.den * f.c.den

theorem Phasor.denominator_pos (f : Phasor) : 0 < f.denominator := Nat.mul_pos f.s.den_pos f.c.den_pos

theorem phasor_s_mul (f : Phasor) :
    (f.s : ℝ) * f.denominator = ((f.s.num * (f.c.den : Int) : Int) : ℝ) := by
  have h : (f.s.den : ℝ) ≠ 0 := by exact_mod_cast f.s.den_pos.ne'
  rw [ratCast_num_div_den, Phasor.denominator]; push_cast; field_simp

theorem phasor_c_mul (f : Phasor) :
    (f.c : ℝ) * f.denominator = ((f.c.num * (f.s.den : Int) : Int) : ℝ) := by
  have h : (f.c.den : ℝ) ≠ 0 := by exact_mod_cast f.c.den_pos.ne'
  rw [ratCast_num_div_den, Phasor.denominator]; push_cast; field_simp

theorem conjugateBound_eq (amp : Nat) (f : Phasor) :
    (conjugateBound amp f : ℝ)
      = 4 * (amp * (|(f.s : ℝ)| + |(f.c : ℝ)|)) * f.denominator + 5 * f.denominator := by
  have hD : (0 : ℝ) ≤ f.denominator := Nat.cast_nonneg _
  have e1 : |(f.s : ℝ)| * f.denominator = ((f.s.num * (f.c.den : Int)).natAbs : ℝ) := by
    rw [Nat.cast_natAbs, Int.cast_abs, ← phasor_s_mul, abs_mul, abs_of_nonneg hD]
  have e2 : |(f.c : ℝ)| * f.denominator = ((f.c.num * (f.s.den : Int)).natAbs : ℝ) := by
    rw [Nat.cast_natAbs, Int.cast_abs, ← phasor_c_mul, abs_mul, abs_of_nonneg hD]
  have e3 : ((f.s.den * f.c.den : Nat) : ℝ) = f.denominator := rfl
  rw [conjugateBound]
  push_cast [← e1, ← e2] at e3 ⊢
  rw [e3]
  ring

theorem phasor_value_bound (f : Phasor) (u : ℝ) : |f.value u| ≤ |(f.s : ℝ)| + |(f.c : ℝ)| := by
  have h1 : |(f.s : ℝ) * Real.sin (2 * Real.pi * u)| ≤ |(f.s : ℝ)| := by
    rw [abs_mul]; exact mul_le_of_le_one_right (abs_nonneg _) (Real.abs_sin_le_one _)
  have h2 : |(f.c : ℝ) * Real.cos (2 * Real.pi * u)| ≤ |(f.c : ℝ)| := by
    rw [abs_mul]; exact mul_le_of_le_one_right (abs_nonneg _) (Real.abs_cos_le_one _)
  exact (abs_add_le _ _).trans (add_le_add h1 h2)

open Polynomial in
/-- `2 D (amp * value + 1/2 - m)` as an integer polynomial in a root of unity. -/
noncomputable def tonePoly (amp : Nat) (f : Phasor) (n k : Nat) (m : Int) : Polynomial ℤ :=
  C (amp : ℤ) * (C (f.s.num * (f.c.den : Int)) * (X ^ (3 * (n / 4)) * (X ^ k - X ^ ((n - 1) * k)))
    + C (f.c.num * (f.s.den : Int)) * (X ^ k + X ^ ((n - 1) * k))) + C ((f.denominator : ℤ) * (1 - 2 * m))

theorem tonePoly_aeval (amp : Nat) (f : Phasor) (n k : Nat) (m : Int) (w : ℂ) :
    Polynomial.aeval w (tonePoly amp f n k m)
      = amp * (((f.s.num * (f.c.den : Int) : Int) : ℂ) * (w ^ (3 * (n / 4)) * (w ^ k - w ^ ((n - 1) * k)))
        + ((f.c.num * (f.s.den : Int) : Int) : ℂ) * (w ^ k + w ^ ((n - 1) * k)))
        + ((f.denominator : ℂ) * (1 - 2 * (m : ℂ))) := by
  simp only [tonePoly, map_add, map_mul, map_sub, map_pow, Polynomial.aeval_X, eq_intCast, Int.cast_mul,
    Int.cast_natCast, map_intCast, map_natCast, map_one, map_ofNat]

theorem tonePoly_bound (amp : Nat) (f : Phasor) (n k : Nat) (m : Int) (hn : 0 < n)
    (hm : |(m : ℝ)| ≤ amp * (|(f.s : ℝ)| + |(f.c : ℝ)|) + 2) (w : ℂ) (hw : w ^ n = 1) :
    ‖Polynomial.aeval w (tonePoly amp f n k m)‖ ≤ conjugateBound amp f := by
  have hw1 : ‖w‖ = 1 := Complex.norm_eq_one_of_pow_eq_one hw hn.ne'
  have hD : (0 : ℝ) ≤ f.denominator := Nat.cast_nonneg _
  have ha : ‖((f.s.num * (f.c.den : Int) : Int) : ℂ)‖ = |(f.s : ℝ)| * f.denominator := by
    rw [Complex.norm_intCast, ← phasor_s_mul, abs_mul, abs_of_nonneg hD]
  have hb : ‖((f.c.num * (f.s.den : Int) : Int) : ℂ)‖ = |(f.c : ℝ)| * f.denominator := by
    rw [Complex.norm_intCast, ← phasor_c_mul, abs_mul, abs_of_nonneg hD]
  have hp : ∀ j : ℕ, ‖w ^ j‖ = 1 := fun j => by rw [norm_pow, hw1, one_pow]
  have hsub : ‖w ^ (3 * (n / 4)) * (w ^ k - w ^ ((n - 1) * k))‖ ≤ 2 := by
    rw [norm_mul, hp, one_mul]
    exact (norm_sub_le _ _).trans (by rw [hp, hp]; norm_num)
  have hadd : ‖w ^ k + w ^ ((n - 1) * k)‖ ≤ 2 := (norm_add_le _ _).trans (by rw [hp, hp]; norm_num)
  have hone : ‖(f.denominator : ℂ) * (1 - 2 * (m : ℂ))‖ ≤ f.denominator * (1 + 2 * |(m : ℝ)|) := by
    rw [norm_mul, Complex.norm_natCast]
    refine mul_le_mul_of_nonneg_left ((norm_sub_le _ _).trans ?_) hD
    rw [norm_mul, Complex.norm_intCast]
    simp
  rw [tonePoly_aeval, conjugateBound_eq]
  calc _ ≤ ‖(amp : ℂ) * (((f.s.num * (f.c.den : Int) : Int) : ℂ) * (w ^ (3 * (n / 4)) * (w ^ k - w ^ ((n - 1) * k)))
        + ((f.c.num * (f.s.den : Int) : Int) : ℂ) * (w ^ k + w ^ ((n - 1) * k)))‖
        + ‖(f.denominator : ℂ) * (1 - 2 * (m : ℂ))‖ := norm_add_le _ _
    _ ≤ amp * (|(f.s : ℝ)| * f.denominator * 2 + |(f.c : ℝ)| * f.denominator * 2)
        + f.denominator * (1 + 2 * |(m : ℝ)|) := by
      refine add_le_add ?_ hone
      rw [norm_mul, Complex.norm_natCast]
      refine mul_le_mul_of_nonneg_left ((norm_add_le _ _).trans ?_) (Nat.cast_nonneg _)
      refine add_le_add ?_ ?_
      · rw [norm_mul, ha]; exact mul_le_mul_of_nonneg_left hsub (by positivity)
      · rw [norm_mul, hb]; exact mul_le_mul_of_nonneg_left hadd (by positivity)
    _ ≤ _ := by nlinarith [mul_le_mul_of_nonneg_left hm hD]

/-- At the root of unity that belongs to the phase, the polynomial is the distance from `m`. -/
theorem tonePoly_at (amp : Nat) (f : Phasor) (r : ℚ) (h0 : 0 ≤ r) (m : Int) :
    Polynomial.aeval (Complex.exp (2 * Real.pi * Complex.I / (Nat.lcm 4 r.den : ℕ)))
        (tonePoly amp f (Nat.lcm 4 r.den) (r.num.toNat * (Nat.lcm 4 r.den / r.den)) m)
      = ((2 * f.denominator * ((amp * f.value r + 1 / 2) - m) : ℝ) : ℂ) := by
  set n := Nat.lcm 4 r.den with hn
  set k := r.num.toNat * (n / r.den) with hk
  set ζ := Complex.exp (2 * Real.pi * Complex.I / (n : ℕ)) with hζ
  have hnpos : 0 < n := Nat.lcm_pos (by norm_num) r.den_pos
  have hnC : (n : ℂ) ≠ 0 := by exact_mod_cast hnpos.ne'
  obtain ⟨c4, hc4⟩ : 4 ∣ n := Nat.dvd_lcm_left 4 r.den
  obtain ⟨cd, hcd⟩ : r.den ∣ n := Nat.dvd_lcm_right 4 r.den
  have hpow : ∀ j : ℕ, ζ ^ j = Complex.exp (2 * Real.pi * Complex.I * j / n) := fun j => by
    rw [hζ, ← Complex.exp_nat_mul]; congr 1; ring
  have hζn : ζ ^ n = 1 := (Complex.isPrimitiveRoot_exp n hnpos.ne').pow_eq_one
  have hquarter : ζ ^ (3 * (n / 4)) = -Complex.I := by
    have e : n / 4 = c4 := by omega
    have h4 : ζ ^ c4 = Complex.I := by
      rw [hpow]
      refine Eq.trans (congrArg Complex.exp ?_) Complex.exp_pi_div_two_mul_I
      have : (c4 : ℂ) ≠ 0 := by
        have : c4 ≠ 0 := by rintro rfl; omega
        exact_mod_cast this
      rw [hc4]; push_cast; field_simp; norm_num
    rw [e, mul_comm, pow_mul, h4, pow_succ, Complex.I_sq]; ring
  set φ : ℝ := 2 * Real.pi * r with hφ
  have hz : ζ ^ k = Complex.exp (φ * Complex.I) := by
    rw [hpow]
    congr 1
    have hnd : n / r.den = cd := by rw [hcd]; exact Nat.mul_div_cancel_left _ r.den_pos
    have hcd0 : (cd : ℂ) ≠ 0 := by
      have : cd ≠ 0 := by rintro rfl; omega
      exact_mod_cast this
    have hrd : (r.den : ℂ) ≠ 0 := by exact_mod_cast r.den_pos.ne'
    have hrn : ((r.num.toNat : ℕ) : ℂ) = (r.num : ℂ) := by
      have : ((r.num.toNat : ℕ) : ℤ) = r.num := Int.toNat_of_nonneg (Rat.num_nonneg.mpr h0)
      exact_mod_cast congrArg (Int.cast : ℤ → ℂ) this
    have hr : (r : ℂ) = (r.num : ℂ) / r.den := Rat.cast_def r
    rw [hφ, hk, hnd]
    push_cast
    rw [hr, hrn, hcd]
    push_cast
    field_simp
  have hinv : ζ ^ ((n - 1) * k) = Complex.exp (-(φ * Complex.I)) := by
    have h1 : ζ ^ ((n - 1) * k) * ζ ^ k = 1 := by
      rw [← pow_add, show (n - 1) * k + k = n * k by
        obtain ⟨n', hn'⟩ : ∃ n', n = n' + 1 := ⟨n - 1, by omega⟩
        rw [hn']; simp; ring, pow_mul, hζn, one_pow]
    rw [Complex.exp_neg, ← hz]
    exact eq_inv_of_mul_eq_one_left h1
  rw [tonePoly_aeval, hquarter, hz, hinv]
  have hcos : Complex.exp (φ * Complex.I) + Complex.exp (-(φ * Complex.I)) = 2 * (Real.cos φ : ℂ) := by
    rw [Complex.ofReal_cos, Complex.cos, neg_mul]; ring
  have hsin : -Complex.I * (Complex.exp (φ * Complex.I) - Complex.exp (-(φ * Complex.I))) = 2 * (Real.sin φ : ℂ) := by
    rw [Complex.ofReal_sin, Complex.sin, neg_mul]; ring_nf
  rw [hcos, hsin]
  have ea := congrArg (Complex.ofReal) (phasor_s_mul f)
  have eb := congrArg (Complex.ofReal) (phasor_c_mul f)
  rw [Complex.ofReal_intCast] at ea eb
  rw [← ea, ← eb]
  have hv : f.value r = f.s * Real.sin φ + f.c * Real.cos φ := rfl
  rw [hv]
  push_cast
  ring

/-- The value of a tone plus one half is the integer `m`, or it is not that close to it. -/
theorem tone_gap (amp : Nat) (f : Phasor) (r : ℚ) (h0 : 0 ≤ r) (m : Int)
    (hm : |(m : ℝ)| ≤ amp * (|(f.s : ℝ)| + |(f.c : ℝ)|) + 2) (hne : amp * f.value r + 1 / 2 ≠ (m : ℝ)) :
    1 ≤ 2 * f.denominator * |(amp * f.value r + 1 / 2) - m|
      * (conjugateBound amp f : ℝ) ^ (Nat.lcm 4 r.den).totient := by
  have hn : 0 < Nat.lcm 4 r.den := Nat.lcm_pos (by norm_num) r.den_pos
  have hD : (1 : ℝ) ≤ f.denominator := by exact_mod_cast f.denominator_pos
  have hat := tonePoly_at amp f r h0 m
  have hb : (1 : ℝ) ≤ conjugateBound amp f := by
    rw [conjugateBound_eq]; have := abs_nonneg (f.s : ℝ); have := abs_nonneg (f.c : ℝ)
    have : (0 : ℝ) ≤ 4 * (amp * (|(f.s : ℝ)| + |(f.c : ℝ)|)) * f.denominator := by positivity
    linarith
  have := cyclotomic_gap _ hn _ _ hb
    (fun w hw => tonePoly_bound amp f _ (r.num.toNat * (Nat.lcm 4 r.den / r.den)) m hn hm w hw)
    _ (Complex.isPrimitiveRoot_exp _ hn.ne') (by
      rw [hat, Complex.ofReal_ne_zero]
      refine mul_ne_zero (by positivity) (sub_ne_zero.mpr hne))
  rw [hat, Complex.norm_real, Real.norm_eq_abs, abs_mul, abs_of_nonneg (by positivity)] at this
  exact this

/-- At the last precision the floor of the upper bound is the floor of the value. -/
theorem toneFloors_last (amp : Nat) (f : Phasor) (r : ℚ) (h0 : 0 ≤ r) (h1 : r < 1 / 4) (p : Nat)
    (hp : lastPrecision amp f r ≤ p) : (toneFloors amp f r p).2 = ⌊(amp : ℝ) * f.value r + 1 / 2⌋ := by
  obtain ⟨mid, hmid, -, hhi⟩ := toneFloors_spec amp f r h0 h1 p
  set S : ℝ := amp * (|(f.s : ℝ)| + |(f.c : ℝ)|) with hS
  set w : ℝ := S * (8 * r / 2 ^ p) with hw
  set y : ℝ := (amp : ℝ) * f.value r + 1 / 2 with hy
  set B : ℝ := (conjugateBound amp f : ℝ) with hB
  set D : ℝ := (f.denominator : ℝ) with hDdef
  set t := (Nat.lcm 4 r.den).totient with ht
  have hS0 : 0 ≤ S := by positivity
  have hD : (1 : ℝ) ≤ D := by rw [hDdef]; exact_mod_cast f.denominator_pos
  have hBe : B = 4 * S * D + 5 * D := conjugateBound_eq amp f
  have hB5 : 5 ≤ B := by nlinarith
  have hr0 : (0 : ℝ) ≤ r := by exact_mod_cast h0
  have hr1 : (r : ℝ) < 1 / 4 := by
    have : ((r : ℚ) : ℝ) < ((1 / 4 : ℚ) : ℝ) := by exact_mod_cast h1
    simpa using this
  have hP : (0 : ℝ) < 2 ^ p := by positivity
  have hbig : 25 * B ^ (t + 1) ≤ 2 ^ p := by
    have hlog : B ≤ 2 ^ (Nat.log2 (conjugateBound amp f) + 1) := by
      have := (Nat.lt_log2_self (n := conjugateBound amp f)).le
      rw [hB]; exact_mod_cast this
    calc 25 * B ^ (t + 1) ≤ B ^ 2 * B ^ (t + 1) := by gcongr; nlinarith
      _ = B ^ (t + 3) := by rw [← pow_add]; ring_nf
      _ ≤ (2 ^ (Nat.log2 (conjugateBound amp f) + 1)) ^ (t + 3) := by gcongr
      _ = 2 ^ lastPrecision amp f r := by rw [← pow_mul]; rfl
      _ ≤ 2 ^ p := pow_le_pow_right₀ (by norm_num) hp
  have hw2 : 2 * w * (2 * D) * 2 ^ p ≤ 2 * B := by
    have : w * 2 ^ p = S * (8 * r) := by rw [hw]; field_simp
    have h2 : 2 * w * (2 * D) * 2 ^ p = 4 * D * (S * (8 * r)) := by rw [← this]; ring
    rw [h2, hBe]
    nlinarith [mul_nonneg hS0 (zero_le_one.trans hD), mul_nonneg (mul_nonneg hS0 (zero_le_one.trans hD)) hr0]
  have hB1 : 1 ≤ B ^ t := one_le_pow₀ (by linarith)
  have hw0 : 0 ≤ w := by positivity
  have hwB : 2 * w * (2 * D) * B ^ t < 1 := by
    have hBt : 0 < B ^ t := by positivity
    have h3 : 2 * w * (2 * D) * B ^ t * 2 ^ p ≤ 2 * B ^ (t + 1) := by
      calc 2 * w * (2 * D) * B ^ t * 2 ^ p = (2 * w * (2 * D) * 2 ^ p) * B ^ t := by ring
        _ ≤ 2 * B * B ^ t := by gcongr
        _ = 2 * B ^ (t + 1) := by ring
    have h4 : 2 * w * (2 * D) * B ^ t * 2 ^ p < 1 * 2 ^ p := by
      have : 0 < B ^ (t + 1) := by positivity
      linarith
    exact lt_of_mul_lt_mul_right h4 hP.le
  have hw1 : 2 * w < 1 := by
    have : 2 * w * 1 * 1 ≤ 2 * w * (2 * D) * B ^ t := by gcongr; linarith
    linarith
  obtain ⟨hlo', hhi'⟩ := abs_le.mp hmid
  have hyub : y ≤ S + 1 / 2 ∧ -S + 1 / 2 ≤ y := by
    have := abs_le.mp (phasor_value_bound f r)
    have ha : (0 : ℝ) ≤ amp := Nat.cast_nonneg _
    constructor
    · have := mul_le_mul_of_nonneg_left this.2 ha; rw [hy, hS]; linarith
    · have := mul_le_mul_of_nonneg_left this.1 ha; rw [hy, hS]; linarith
  rw [hhi]
  refine le_antisymm ?_ (Int.floor_le_floor (by linarith))
  by_contra hlt
  push Not at hlt
  set m := ⌊mid + w⌋ with hmdef
  have hmy : y < m := Int.floor_lt.mp hlt
  have hmhi : (m : ℝ) ≤ mid + w := Int.floor_le _
  have hmle : (m : ℝ) ≤ y + 2 * w := by linarith
  have hgap := tone_gap amp f r h0 m (by rw [abs_le]; constructor <;> linarith) hmy.ne
  have habs : |y - m| ≤ 2 * w := by rw [abs_sub_comm, abs_of_nonneg (by linarith)]; linarith
  have : 2 * D * |y - m| * B ^ t ≤ 2 * w * (2 * D) * B ^ t := by
    calc 2 * D * |y - m| * B ^ t ≤ 2 * D * (2 * w) * B ^ t := by gcongr
      _ = _ := by ring
  linarith

/-- Equal floors of the two bounds are the floor of the value. -/
theorem toneFloors_eq (amp : Nat) (f : Phasor) (r : ℚ) (h0 : 0 ≤ r) (h1 : r < 1 / 4) (p : Nat)
    (h : (toneFloors amp f r p).1 = (toneFloors amp f r p).2) :
    (toneFloors amp f r p).2 = ⌊(amp : ℝ) * f.value r + 1 / 2⌋ := by
  obtain ⟨mid, hmid, hlo, hhi⟩ := toneFloors_spec amp f r h0 h1 p
  obtain ⟨hl, hu⟩ := abs_le.mp hmid
  refine le_antisymm ?_ ?_
  · rw [← h, hlo]; exact Int.floor_le_floor (by linarith)
  · rw [hhi]; exact Int.floor_le_floor (by linarith)

theorem refineTone_eq (amp : Nat) (f : Phasor) (r : ℚ) (h0 : 0 ≤ r) (h1 : r < 1 / 4) (k p : Nat)
    (hk : lastPrecision amp f r ≤ p * 2 ^ k) :
    refineTone amp f r (lastPrecision amp f r) k p = ⌊(amp : ℝ) * f.value r + 1 / 2⌋ := by
  induction k generalizing p with
  | zero => exact toneFloors_last amp f r h0 h1 p (by simpa using hk)
  | succ k ih =>
    simp only [refineTone]
    split_ifs with h
    · rcases h with h | h
      · exact toneFloors_eq amp f r h0 h1 p h
      · exact toneFloors_last amp f r h0 h1 p h
    · exact ih (2 * p) (by rw [pow_succ] at hk; nlinarith)

/-- `roundQuarter` is the rounded real value. -/
theorem roundQuarter_eq (amp : Nat) (f : Phasor) (r : ℚ) (h0 : 0 ≤ r) (h1 : r < 1 / 4) :
    roundQuarter amp f r = ⌊(amp : ℝ) * f.value r + 1 / 2⌋ := by
  simp only [roundQuarter]
  split_ifs with h
  · exact toneFloors_eq amp f r h0 h1 64 h
  · refine refineTone_eq amp f r h0 h1 _ 64 ?_
    have := (Nat.lt_log2_self (n := lastPrecision amp f r)).le
    rw [pow_succ] at this
    omega

/-! ### Quarter turns -/

theorem quarterTurn_value (f : Phasor) (u : ℝ) : f.quarterTurn.value u = f.value (u + 1 / 4) := by
  have h : 2 * Real.pi * (u + 1 / 4) = 2 * Real.pi * u + Real.pi / 2 := by ring
  simp only [Phasor.value, Phasor.quarterTurn, h, Real.sin_add_pi_div_two, Real.cos_add_pi_div_two]
  push_cast
  ring

theorem quarterTurns_value (f : Phasor) (u : ℝ) (k : Nat) :
    (Phasor.quarterTurn^[k] f).value u = f.value (u + k / 4) := by
  induction k generalizing u with
  | zero => simp
  | succ k ih =>
    rw [Function.iterate_succ_apply', quarterTurn_value, ih]
    congr 1
    push_cast
    ring

theorem phasor_value_periodic (f : Phasor) (u : ℝ) (n : Int) : f.value (u + n) = f.value u := by
  have h : 2 * Real.pi * (u + n) = 2 * Real.pi * u + n * (2 * Real.pi) := by ring
  simp only [Phasor.value, h, Real.sin_add_int_mul_two_pi, Real.cos_add_int_mul_two_pi]

/-- `roundTone` is the rounded real value at every rational phase: no approximation is left. -/
theorem roundTone_eq (amp : Nat) (f : Phasor) (u : ℚ) :
    roundTone amp f u = ⌊(amp : ℝ) * f.value u + 1 / 2⌋ := by
  rw [roundTone]
  set q := ⌊4 * u⌋ with hq
  have hle : (q : ℚ) ≤ 4 * u := Int.floor_le _
  have hlt : 4 * u < q + 1 := Int.lt_floor_add_one _
  rw [roundQuarter_eq _ _ _ (by linarith) (by linarith), quarterTurns_value]
  have h4 : 0 ≤ q % 4 := Int.emod_nonneg _ (by norm_num)
  have hcast : (((q % 4).toNat : ℕ) : ℝ) = ((q % 4 : Int) : ℝ) := by
    have : (((q % 4).toNat : ℕ) : Int) = q % 4 := Int.toNat_of_nonneg h4
    exact_mod_cast congrArg (Int.cast : Int → ℝ) this
  have hq4 : ((q % 4 : Int) : ℝ) = q - 4 * ((q / 4 : Int) : ℝ) := by
    have := Int.emod_add_mul_ediv q 4
    have h' : (q % 4 : Int) = q - 4 * (q / 4) := by omega
    exact_mod_cast congrArg (Int.cast : Int → ℝ) h'
  have e : (((u - (q : ℚ) / 4 : ℚ) : ℝ)) + ((q % 4).toNat : ℕ) / 4 = (u : ℝ) + ((-(q / 4) : Int) : ℝ) := by
    rw [hcast, hq4]; push_cast; ring
  rw [e, phasor_value_periodic]

end Sys2Proof.Machine
end

