-- ==== Sys2Proof/Laws/State.lean ====
section
/-! SUPPORT. One lemma per field per update, so that no later proof unfolds a record update. -/

namespace Sys2Proof.Machine

variable (s : State)

/-! ### Counting -/

@[simp] theorem State.countWord_st : s.countWord.pipe.st = s.pipe.st := rfl
@[simp] theorem State.countWord_mode : s.countWord.pipe.mode = s.pipe.mode := rfl
@[simp] theorem State.countWord_wc : s.countWord.pipe.wc = s.pipe.wc + 1 := rfl
@[simp] theorem State.countWord_cause : s.countWord.pipe.cause = s.pipe.cause := rfl
@[simp] theorem State.countWord_info : s.countWord.pipe.info = s.pipe.info := rfl
@[simp] theorem State.countWord_flags : s.countWord.pipe.flags = s.pipe.flags := rfl
@[simp] theorem State.countWord_cfg : s.countWord.cfg = s.cfg := rfl
@[simp] theorem State.countWord_zcd : s.countWord.zcd = s.zcd := rfl
@[simp] theorem State.countWord_etd : s.countWord.etd = s.etd := rfl
@[simp] theorem State.countWord_sd : s.countWord.sd = s.sd := rfl
@[simp] theorem State.countWord_cd : s.countWord.cd = s.cd := rfl
@[simp] theorem State.countWord_ps : s.countWord.ps = s.ps := rfl
@[simp] theorem State.countWord_ch : s.countWord.ch = s.ch := rfl

/-! ### Soft diagnostics -/

@[simp] theorem Flags.raise_unc (f : Flags) (k : DiagKind) :
    (f.raise k).unc = (f.unc || decide (k = .unc)) := by cases k <;> simp [Flags.raise]
@[simp] theorem Flags.raise_badgrp (f : Flags) (k : DiagKind) :
    (f.raise k).badgrp = (f.badgrp || decide (k = .badgrp)) := by cases k <;> simp [Flags.raise]
@[simp] theorem Flags.raise_illop (f : Flags) (k : DiagKind) :
    (f.raise k).illop = (f.illop || decide (k = .illop)) := by cases k <;> simp [Flags.raise]
@[simp] theorem Flags.raise_cfgerr (f : Flags) (k : DiagKind) :
    (f.raise k).cfgerr = (f.cfgerr || decide (k = .cfgerr)) := by cases k <;> simp [Flags.raise]

variable (k : DiagKind) (q : Nat)

@[simp] theorem State.report_st : (s.report k q).pipe.st = s.pipe.st := rfl
@[simp] theorem State.report_mode : (s.report k q).pipe.mode = s.pipe.mode := rfl
@[simp] theorem State.report_wc : (s.report k q).pipe.wc = s.pipe.wc := rfl
@[simp] theorem State.report_cause : (s.report k q).pipe.cause = s.pipe.cause := rfl
@[simp] theorem State.report_info : (s.report k q).pipe.info = s.pipe.info := rfl
@[simp] theorem State.report_flags : (s.report k q).pipe.flags = s.pipe.flags.raise k := rfl
@[simp] theorem State.report_cfg : (s.report k q).cfg = s.cfg := rfl
@[simp] theorem State.report_zcd : (s.report k q).zcd = s.zcd := rfl
@[simp] theorem State.report_etd : (s.report k q).etd = s.etd := rfl
@[simp] theorem State.report_sd : (s.report k q).sd = s.sd := rfl
@[simp] theorem State.report_cd : (s.report k q).cd = s.cd := rfl
@[simp] theorem State.report_ps : (s.report k q).ps = s.ps := rfl
@[simp] theorem State.report_ch : (s.report k q).ch = { s.ch with diag := s.ch.diag ++ [⟨k, q⟩] } := rfl

/-! ### Delivery on `OUT` -/

variable (x : Token)

@[simp] theorem State.deliver_pipe :
    (s.deliver x).pipe = { s.pipe with st := if x = .fin then .done else s.pipe.st } := rfl
@[simp] theorem State.deliver_cfg : (s.deliver x).cfg = s.cfg := rfl
@[simp] theorem State.deliver_zcd : (s.deliver x).zcd = s.zcd := rfl
@[simp] theorem State.deliver_etd : (s.deliver x).etd = s.etd := rfl
@[simp] theorem State.deliver_sd : (s.deliver x).sd = s.sd := rfl
@[simp] theorem State.deliver_cd : (s.deliver x).cd = s.cd := rfl
@[simp] theorem State.deliver_ps : (s.deliver x).ps = s.ps := rfl
@[simp] theorem State.deliver_ch : (s.deliver x).ch = { s.ch with out := s.ch.out ++ [x] } := rfl

/-! ### Trap entry -/

variable (f : Fatal)

@[simp] theorem State.raiseFatal_pipe :
    (s.raiseFatal f).pipe = { s.pipe with
      st := .faulted
      cause := f.cause
      info := f.info } := rfl
@[simp] theorem State.raiseFatal_cfg : (s.raiseFatal f).cfg = s.cfg := rfl
@[simp] theorem State.raiseFatal_zcd : (s.raiseFatal f).zcd = s.zcd := rfl
@[simp] theorem State.raiseFatal_etd : (s.raiseFatal f).etd = s.etd := rfl
@[simp] theorem State.raiseFatal_sd : (s.raiseFatal f).sd = s.sd := rfl
@[simp] theorem State.raiseFatal_cd : (s.raiseFatal f).cd = s.cd := rfl
@[simp] theorem State.raiseFatal_ps : (s.raiseFatal f).ps = s.ps := rfl
@[simp] theorem State.raiseFatal_ch : (s.raiseFatal f).ch = s.ch.clearInternal := rfl

@[simp] theorem Channels.clearInternal_internalEmpty (c : Channels) : c.clearInternal.internalEmpty = true := rfl
@[simp] theorem Channels.clearInternal_inp (c : Channels) : c.clearInternal.inp = c.inp := rfl
@[simp] theorem Channels.clearInternal_out (c : Channels) : c.clearInternal.out = c.out := rfl
@[simp] theorem Channels.clearInternal_tapX (c : Channels) : c.clearInternal.tapX = c.tapX := rfl
@[simp] theorem Channels.clearInternal_tapB (c : Channels) : c.clearInternal.tapB = c.tapB := rfl
@[simp] theorem Channels.clearInternal_diag (c : Channels) : c.clearInternal.diag = c.diag := rfl

/-! ### The start of a pass and RESET -/

variable (m : Mode)

@[simp] theorem State.beginPass_st : (s.beginPass m).pipe.st = .run := rfl
@[simp] theorem State.beginPass_mode : (s.beginPass m).pipe.mode = m := rfl
@[simp] theorem State.beginPass_wc : (s.beginPass m).pipe.wc = s.pipe.wc := rfl
@[simp] theorem State.beginPass_cause : (s.beginPass m).pipe.cause = .none := rfl
@[simp] theorem State.beginPass_info : (s.beginPass m).pipe.info = ⟨0, 0, 0, 0⟩ := rfl
@[simp] theorem State.beginPass_flags : (s.beginPass m).pipe.flags = ⟨false, false, s.pipe.flags.illop, false⟩ := rfl
@[simp] theorem State.beginPass_cfg : (s.beginPass m).cfg = s.cfg := rfl
@[simp] theorem State.beginPass_zcd : (s.beginPass m).zcd = Zcd.reset := rfl
@[simp] theorem State.beginPass_etd : (s.beginPass m).etd = Etd.reset := rfl
@[simp] theorem State.beginPass_sd : (s.beginPass m).sd = Sd.reset := rfl
@[simp] theorem State.beginPass_cd : (s.beginPass m).cd = Cd.atStart s.cfg m := rfl
@[simp] theorem State.beginPass_ps : (s.beginPass m).ps = Ps.reset := rfl
@[simp] theorem State.beginPass_ch : (s.beginPass m).ch = s.ch := rfl

@[simp] theorem State.resetKeepingInput_pipe : s.resetKeepingInput.pipe = Pipe.reset := rfl
@[simp] theorem State.resetKeepingInput_cfg : s.resetKeepingInput.cfg = Cfg.reset := rfl
@[simp] theorem State.resetKeepingInput_zcd : s.resetKeepingInput.zcd = Zcd.reset := rfl
@[simp] theorem State.resetKeepingInput_etd : s.resetKeepingInput.etd = Etd.reset := rfl
@[simp] theorem State.resetKeepingInput_sd : s.resetKeepingInput.sd = Sd.reset := rfl
@[simp] theorem State.resetKeepingInput_cd : s.resetKeepingInput.cd = Cd.reset := rfl
@[simp] theorem State.resetKeepingInput_ps : s.resetKeepingInput.ps = Ps.reset := rfl
@[simp] theorem State.resetKeepingInput_ch :
    s.resetKeepingInput.ch = { Channels.empty with inp := s.ch.inp } := rfl

end Sys2Proof.Machine
end

