-- ==== Sys2Proof/Laws/Pipe.lean ====
section
/-! SUPPORT. What the shared operations can do, once each: refusing, emitting, running a unit to exhaustion and settling
a word. -/

namespace Sys2Proof.Machine

/-! ### Refusal -/

/-- A refused word changes the count, ILLOP and `DIAG` (R122). -/
theorem refuseWord_eq (s : State) : s.refuseWord = s.afterRefusal := rfl

/-! ### Empty channels -/

theorem internalEmpty_iff (c : Channels) :
    c.internalEmpty = true ↔ c.zcdIn = [] ∧ c.etdIn = [] ∧ c.sdIn = [] ∧ c.cdIn = [] ∧ c.psIn = [] := by
  simp [Channels.internalEmpty, and_assoc]

/-- The channels of a drained state, field by field. -/
theorem channels_of_internalEmpty {c : Channels} (h : c.internalEmpty = true) :
    c = { c with
      zcdIn := []
      etdIn := []
      sdIn := []
      cdIn := []
      psIn := [] } := by
  obtain ⟨h1, h2, h3, h4, h5⟩ := (internalEmpty_iff c).mp h
  cases c
  simp_all

/-! ### Emitting -/

theorem deliver_of_ne_fin (s : State) {x : Token} (h : x ≠ .fin) :
    s.deliver x = { s with ch := { s.ch with out := s.ch.out ++ [x] } } := by
  simp [State.deliver, h]

/-- Emitting a list to `OUT`. -/
theorem emitAll_out {α : Type} (emit : Item α → State → State) (wrap : α → Token)
    (h : ∀ x s, emit (.tok x) s = { s with ch := { s.ch with out := s.ch.out ++ [wrap x] } }) (xs : List α) (s : State) :
    emitAll emit xs s = { s with ch := { s.ch with out := s.ch.out ++ xs.map wrap } } := by
  induction xs generalizing s with
  | nil => simp [emitAll]
  | cons x xs ih =>
    have : emitAll emit (x :: xs) s = emitAll emit xs (emit (.tok x) s) := rfl
    rw [this, ih, h]
    simp

theorem emitSd_tok (y : Sym) (s : State) :
    s.emitSd (.tok y) = { s with ch := { s.ch with out := s.ch.out ++ [.sym y] } } :=
  deliver_of_ne_fin s (by simp [Item.onOut])

theorem emitCd_tok (l : Letter) (s : State) :
    s.emitCd (.tok l) = { s with ch := { s.ch with out := s.ch.out ++ [.sym (.letter l)] } } :=
  deliver_of_ne_fin s (by simp [Item.onOut])

theorem emitPs_tok (v : Int) (s : State) :
    s.emitPs (.tok v) = { s with ch := { s.ch with out := s.ch.out ++ [.sample v] } } :=
  deliver_of_ne_fin s (by simp [Item.onOut])

theorem emitAll_emitSd (ys : List Sym) (s : State) :
    emitAll State.emitSd ys s = { s with ch := { s.ch with out := s.ch.out ++ ys.map .sym } } :=
  emitAll_out _ _ emitSd_tok ys s

theorem emitAll_emitCd (ls : List Letter) (s : State) :
    emitAll State.emitCd ls s
      = { s with ch := { s.ch with out := s.ch.out ++ ls.map (fun l => .sym (.letter l)) } } :=
  emitAll_out _ _ emitCd_tok ls s

theorem emitAll_emitPs (vs : List Int) (s : State) :
    emitAll State.emitPs vs s = { s with ch := { s.ch with out := s.ch.out ++ vs.map .sample } } :=
  emitAll_out _ _ emitPs_tok vs s

theorem feedsUnit_zcd (m : Mode) : feedsUnit .zcd m = decide (m = .edge) := by cases m <;> rfl

theorem feedsUnit_etd (m : Mode) : feedsUnit .etd m = decide (m = .edge) := by cases m <;> rfl

/-- A token ZCD emits goes to `ETD.in` and `TAPX` in mode EDGE, else to `OUT` (R118). -/
theorem emitZcd_tok (x : Xing) (s : State) :
    s.emitZcd (.tok x) = { s with ch := { s.ch with
      etdIn := s.ch.etdIn ++ if s.pipe.mode = .edge then [.tok x] else []
      tapX := s.ch.tapX ++ if s.pipe.mode = .edge then [.tok x] else []
      out := s.ch.out ++ if s.pipe.mode = .edge then [] else [.xing x] } } := by
  by_cases h : s.pipe.mode = .edge
  · simp [State.emitZcd, feedsUnit_zcd, h]
  · simp [State.emitZcd, feedsUnit_zcd, h, Item.onOut, deliver_of_ne_fin s (x := .xing x) (by simp)]

/-- A token ETD emits goes to `SD.in` and `TAPB` in mode EDGE, else to `OUT` (R118). -/
theorem emitEtd_tok (y : BitVal) (s : State) :
    s.emitEtd (.tok y) = { s with ch := { s.ch with
      sdIn := s.ch.sdIn ++ if s.pipe.mode = .edge then [.tok y] else []
      tapB := s.ch.tapB ++ if s.pipe.mode = .edge then [.tok y] else []
      out := s.ch.out ++ if s.pipe.mode = .edge then [] else [.bit y] } } := by
  by_cases h : s.pipe.mode = .edge
  · simp [State.emitEtd, feedsUnit_etd, h]
  · simp [State.emitEtd, feedsUnit_etd, h, Item.onOut, deliver_of_ne_fin s (x := .bit y) (by simp)]

/-- ZCD's emissions, by mode. -/
theorem emitAll_emitZcd (xs : List Xing) (s : State) :
    emitAll State.emitZcd xs s = { s with ch := { s.ch with
      etdIn := s.ch.etdIn ++ if s.pipe.mode = .edge then xs.map .tok else []
      tapX := s.ch.tapX ++ if s.pipe.mode = .edge then xs.map .tok else []
      out := s.ch.out ++ if s.pipe.mode = .edge then [] else xs.map .xing } } := by
  induction xs generalizing s with
  | nil => simp [emitAll]
  | cons x xs ih =>
    have : emitAll State.emitZcd (x :: xs) s = emitAll State.emitZcd xs (s.emitZcd (.tok x)) := rfl
    rw [this, ih, emitZcd_tok]
    by_cases h : s.pipe.mode = .edge <;> simp [h]

/-- ETD's emissions, by mode. -/
theorem emitAll_emitEtd (bs : List BitVal) (s : State) :
    emitAll State.emitEtd bs s = { s with ch := { s.ch with
      sdIn := s.ch.sdIn ++ if s.pipe.mode = .edge then bs.map .tok else []
      tapB := s.ch.tapB ++ if s.pipe.mode = .edge then bs.map .tok else []
      out := s.ch.out ++ if s.pipe.mode = .edge then [] else bs.map .bit } } := by
  induction bs generalizing s with
  | nil => simp [emitAll]
  | cons y ys ih =>
    have : emitAll State.emitEtd (y :: ys) s = emitAll State.emitEtd ys (s.emitEtd (.tok y)) := rfl
    rw [this, ih, emitEtd_tok]
    by_cases h : s.pipe.mode = .edge <;> simp [h]

/-! ### The rules of the units, one record each -/

/-- ZCD's rule for a SAMPLE (R142). -/
theorem zcdRule_tok (s : State) (v : Int) :
    zcdRule s (.tok v) = { s with
      zcd := (s.zcd.onSample v).1
      ch := { s.ch with
        etdIn := s.ch.etdIn ++ if s.pipe.mode = .edge then (s.zcd.onSample v).2.toList.map .tok else []
        tapX := s.ch.tapX ++ if s.pipe.mode = .edge then (s.zcd.onSample v).2.toList.map .tok else []
        out := s.ch.out ++ if s.pipe.mode = .edge then [] else (s.zcd.onSample v).2.toList.map .xing } } := by
  simp only [zcdRule, emitAll_emitZcd]

/-- ZCD's rule for END (R143). -/
theorem zcdRule_fin (s : State) :
    zcdRule s .fin = { s with
      pipe := { s.pipe with st := if s.pipe.mode = .edge then s.pipe.st else .done }
      ch := { s.ch with
        etdIn := s.ch.etdIn ++ if s.pipe.mode = .edge then [.fin] else []
        tapX := s.ch.tapX ++ if s.pipe.mode = .edge then [.fin] else []
        out := s.ch.out ++ if s.pipe.mode = .edge then [] else [.fin] } } := by
  by_cases h : s.pipe.mode = .edge <;>
    simp [zcdRule, State.emitZcd, feedsUnit_zcd, h, State.deliver, Item.onOut]
  cases hp : s.pipe
  simp_all

/-- ETD's rule for a XING (R162, R163). -/
theorem etdRule_tok (s : State) (x : Xing) :
    etdRule s (.tok x) = { s with
      pipe := { s.pipe with flags := { s.pipe.flags with
        unc := s.pipe.flags.unc || uncertain s.cfg.spb s.cfg.mu x.delta } }
      etd := ⟨s.etd.seq + 1⟩
      ch := { s.ch with
        sdIn := s.ch.sdIn ++ if s.pipe.mode = .edge then (etdBits s.cfg.spb x).map .tok else []
        tapB := s.ch.tapB ++ if s.pipe.mode = .edge then (etdBits s.cfg.spb x).map .tok else []
        out := s.ch.out ++ if s.pipe.mode = .edge then [] else (etdBits s.cfg.spb x).map .bit
        diag := s.ch.diag ++ if uncertain s.cfg.spb s.cfg.mu x.delta then [⟨.unc, s.etd.seq⟩] else [] } } := by
  by_cases h : uncertain s.cfg.spb s.cfg.mu x.delta = true <;>
    simp [etdRule, h, emitAll_emitEtd, State.report, Flags.raise]

/-- ETD's rule for END (R164). -/
theorem etdRule_fin (s : State) :
    etdRule s .fin = { s with
      pipe := { s.pipe with st := if s.pipe.mode = .edge then s.pipe.st else .done }
      ch := { s.ch with
        sdIn := s.ch.sdIn ++ if s.pipe.mode = .edge then [.fin] else []
        tapB := s.ch.tapB ++ if s.pipe.mode = .edge then [.fin] else []
        out := s.ch.out ++ if s.pipe.mode = .edge then [] else [.fin] } } := by
  by_cases h : s.pipe.mode = .edge <;>
    simp [etdRule, State.emitEtd, feedsUnit_etd, h, State.deliver, Item.onOut]
  cases hp : s.pipe
  simp_all

/-- SD's rule for a BIT (R177, R181). -/
theorem sdRule_tok (s : State) (y : BitVal) :
    sdRule s (.tok y) = { s with
      pipe := { s.pipe with flags := { s.pipe.flags with
        badgrp := s.pipe.flags.badgrp || decide ((s.sd.onBit y).2 = some .undec) } }
      sd := (s.sd.onBit y).1
      ch := { s.ch with
        out := s.ch.out ++ (s.sd.onBit y).2.toList.map .sym
        diag := s.ch.diag ++ if (s.sd.onBit y).2 = some .undec then [⟨.badgrp, s.sd.pos⟩] else [] } } := by
  by_cases h : (s.sd.onBit y).2 = some .undec <;>
    simp [sdRule, reportGroup, h, emitAll_emitSd, State.report, Flags.raise]

/-- SD's rule for END (R183). -/
theorem sdRule_fin (s : State) :
    sdRule s .fin = { s with
      pipe := { s.pipe with st := .done }
      ch := { s.ch with out := s.ch.out ++ [.fin] } } := by
  simp [sdRule, State.emitSd, State.deliver, Item.onOut]

/-- CD's rule for a SAMPLE (R200, R270). -/
theorem cdRule_tok (s : State) (v : Int) :
    cdRule s (.tok v) = raiseIf (s.cd.onSample s.cfg.sps v).fatal
      { s with
        cd := (s.cd.onSample s.cfg.sps v).regs
        ch := { s.ch with
          out := s.ch.out ++ (s.cd.onSample s.cfg.sps v).syms.map (fun l => .sym (.letter l)) } } := by
  simp only [cdRule, emitAll_emitCd]

/-- CD's rule for END (R215). -/
theorem cdRule_fin (s : State) :
    cdRule s .fin = { s with
      pipe := { s.pipe with st := .done }
      cd := { s.cd with q := [] }
      ch := { s.ch with out := s.ch.out ++ [.fin] } } := by
  simp [cdRule, State.emitCd, State.deliver, Item.onOut, Cd.onEnd]

/-- PS's rule for a SYM (R245). -/
theorem psRule_tok (s : State) (l : Letter) :
    psRule s (.tok l) = { s with
      ps := (s.ps.onSym s.cfg.psCarrier.toNat s.cfg.psRate.toNat s.cfg.psAmp.toNat l).1
      ch := { s.ch with out := s.ch.out ++
        (s.ps.onSym s.cfg.psCarrier.toNat s.cfg.psRate.toNat s.cfg.psAmp.toNat l).2.map .sample } } := by
  simp only [psRule, emitAll_emitPs]

/-- PS's rule for END (R247). -/
theorem psRule_fin (s : State) :
    psRule s .fin = { s with
      pipe := { s.pipe with st := .done }
      ch := { s.ch with out := s.ch.out ++ [.fin] } } := by
  simp [psRule, State.emitPs, State.deliver, Item.onOut]

/-! ### Running a unit to exhaustion -/

/-- A unit with no token does not step. -/
theorem exhaust_idle (u : UnitId) (s : State) (h : s.ch.waiting u = 0) : exhaust u s = s := by
  simp [exhaust, h]

/-- A drained state stays as it is. -/
theorem settle_drained (s : State) (h : s.ch.internalEmpty = true) : s.settle = s := by
  obtain ⟨h1, h2, h3, h4, h5⟩ := (internalEmpty_iff _).mp h
  simp [State.settle, exhaust_idle, Channels.waiting, h1, h2, h3, h4, h5]

/-- A unit that may ignore how long its own channel is consumes it token by token. -/
theorem iterate_step_eq_foldl {α : Type} (get : State → List α) (set : List α → State → State) (stp : State → State)
    (rule : State → α → State) (hstep : ∀ s x xs, get s = x :: xs → stp s = rule (set xs s) x)
    (hget : ∀ s xs, get (set xs s) = xs) (hset : ∀ s xs ys, set xs (set ys s) = set xs s)
    (hself : ∀ s, set (get s) s = s) (hrule : ∀ s x xs, rule (set xs s) x = set xs (rule s x)) (s : State) :
    stp^[(get s).length] s = (get s).foldl rule (set [] s) := by
  generalize hxs : get s = xs
  induction xs generalizing s with
  | nil => rw [← hxs, hself]; simp [hxs]
  | cons x xs ih =>
    rw [List.length_cons, Function.iterate_succ_apply, hstep s x xs hxs, ih _ (by rw [hrule, hget]), List.foldl_cons,
      hrule, hset, hrule]

theorem sdRule_sdIn (s : State) (item : Item BitVal) (l : List (Item BitVal)) :
    sdRule { s with ch := { s.ch with sdIn := l } } item
      = { sdRule s item with ch := { (sdRule s item).ch with sdIn := l } } := by
  cases item <;> simp only [sdRule_tok, sdRule_fin]

/-- SD run to exhaustion: its rule, token by token. -/
theorem exhaust_sd (s : State) :
    exhaust .sd s = s.ch.sdIn.foldl sdRule { s with ch := { s.ch with sdIn := [] } } :=
  iterate_step_eq_foldl (fun s => s.ch.sdIn) (fun l s => { s with ch := { s.ch with sdIn := l } }) stepSd sdRule
    (fun s x xs h => by simp only [stepSd]; rw [h]) (fun _ _ => rfl) (fun _ _ _ => rfl) (fun _ => rfl)
    (fun s x xs => sdRule_sdIn s x xs) s

theorem psRule_psIn (s : State) (item : Item Letter) (l : List (Item Letter)) :
    psRule { s with ch := { s.ch with psIn := l } } item
      = { psRule s item with ch := { (psRule s item).ch with psIn := l } } := by
  cases item <;> simp only [psRule_tok, psRule_fin]

/-- PS run to exhaustion. -/
theorem exhaust_ps (s : State) :
    exhaust .ps s = s.ch.psIn.foldl psRule { s with ch := { s.ch with psIn := [] } } :=
  iterate_step_eq_foldl (fun s => s.ch.psIn) (fun l s => { s with ch := { s.ch with psIn := l } }) stepPs psRule
    (fun s x xs h => by simp only [stepPs]; rw [h]) (fun _ _ => rfl) (fun _ _ _ => rfl) (fun _ => rfl)
    (fun s x xs => psRule_psIn s x xs) s

theorem etdRule_etdIn (s : State) (item : Item Xing) (l : List (Item Xing)) :
    etdRule { s with ch := { s.ch with etdIn := l } } item
      = { etdRule s item with ch := { (etdRule s item).ch with etdIn := l } } := by
  cases item <;> simp only [etdRule_tok, etdRule_fin]

/-- ETD run to exhaustion. -/
theorem exhaust_etd (s : State) :
    exhaust .etd s = s.ch.etdIn.foldl etdRule { s with ch := { s.ch with etdIn := [] } } :=
  iterate_step_eq_foldl (fun s => s.ch.etdIn) (fun l s => { s with ch := { s.ch with etdIn := l } }) stepEtd etdRule
    (fun s x xs h => by simp only [stepEtd]; rw [h]) (fun _ _ => rfl) (fun _ _ _ => rfl) (fun _ => rfl)
    (fun s x xs => etdRule_etdIn s x xs) s

theorem zcdRule_zcdIn (s : State) (item : Item Int) (l : List (Item Int)) :
    zcdRule { s with ch := { s.ch with zcdIn := l } } item
      = { zcdRule s item with ch := { (zcdRule s item).ch with zcdIn := l } } := by
  cases item <;> simp only [zcdRule_tok, zcdRule_fin]

/-- ZCD run to exhaustion. -/
theorem exhaust_zcd (s : State) :
    exhaust .zcd s = s.ch.zcdIn.foldl zcdRule { s with ch := { s.ch with zcdIn := [] } } :=
  iterate_step_eq_foldl (fun s => s.ch.zcdIn) (fun l s => { s with ch := { s.ch with zcdIn := l } }) stepZcd zcdRule
    (fun s x xs h => by simp only [stepZcd]; rw [h]) (fun _ _ => rfl) (fun _ _ _ => rfl) (fun _ => rfl)
    (fun s x xs => zcdRule_zcdIn s x xs) s

/-- CD with one token: its rule. -/
theorem exhaust_cd_one (s : State) (item : Item Int) (h : s.ch.cdIn = [item]) :
    exhaust .cd s = cdRule { s with ch := { s.ch with cdIn := [] } } item := by
  simp [exhaust, Channels.waiting, h, stepUnit, stepCd]

/-! ### Settling one token of a drained state -/

/-- One token at ZCD outside mode EDGE. -/
theorem settle_zcd (s : State) (item : Item Int) (h : s.ch.internalEmpty = true) (hm : s.pipe.mode ≠ .edge) :
    State.settle { s with ch := { s.ch with zcdIn := s.ch.zcdIn ++ [item] } } = zcdRule s item := by
  obtain ⟨h1, h2, h3, h4, h5⟩ := (internalEmpty_iff _).mp h
  have hs : ({ s with ch := { s.ch with zcdIn := [] } } : State) = s := by
    rcases s with ⟨_, _, _, _, _, _, _, ⟨_, _, _, _, _, _, _, _, _, _⟩⟩
    simp_all
  have h0 : exhaust .zcd { s with ch := { s.ch with zcdIn := s.ch.zcdIn ++ [item] } } = zcdRule s item := by
    rw [exhaust_zcd]
    simp [h1, hs]
  have hd : (zcdRule s item).ch.internalEmpty = true := by
    cases item <;> simp [zcdRule_tok, zcdRule_fin, internalEmpty_iff, h1, h2, h3, h4, h5, hm]
  rw [State.settle, h0]
  obtain ⟨g1, g2, g3, g4, g5⟩ := (internalEmpty_iff _).mp hd
  simp [exhaust_idle, Channels.waiting, g2, g3, g4, g5]

/-- One token at ETD outside mode EDGE. -/
theorem settle_etd (s : State) (item : Item Xing) (h : s.ch.internalEmpty = true) (hm : s.pipe.mode ≠ .edge) :
    State.settle { s with ch := { s.ch with etdIn := s.ch.etdIn ++ [item] } } = etdRule s item := by
  obtain ⟨h1, h2, h3, h4, h5⟩ := (internalEmpty_iff _).mp h
  have hs : ({ s with ch := { s.ch with etdIn := [] } } : State) = s := by
    rcases s with ⟨_, _, _, _, _, _, _, ⟨_, _, _, _, _, _, _, _, _, _⟩⟩
    simp_all
  have h0 : exhaust .etd { s with ch := { s.ch with etdIn := s.ch.etdIn ++ [item] } } = etdRule s item := by
    rw [exhaust_etd]
    simp [h2, hs]
  have hd : (etdRule s item).ch.internalEmpty = true := by
    cases item <;> simp [etdRule_tok, etdRule_fin, internalEmpty_iff, h1, h2, h3, h4, h5, hm]
  rw [State.settle, exhaust_idle .zcd _ (by simp [Channels.waiting, h1]), h0]
  obtain ⟨g1, g2, g3, g4, g5⟩ := (internalEmpty_iff _).mp hd
  simp [exhaust_idle, Channels.waiting, g3, g4, g5]

/-- One token at SD. -/
theorem settle_sd (s : State) (item : Item BitVal) (h : s.ch.internalEmpty = true) :
    State.settle { s with ch := { s.ch with sdIn := s.ch.sdIn ++ [item] } } = sdRule s item := by
  obtain ⟨h1, h2, h3, h4, h5⟩ := (internalEmpty_iff _).mp h
  have hs : ({ s with ch := { s.ch with sdIn := [] } } : State) = s := by
    rcases s with ⟨_, _, _, _, _, _, _, ⟨_, _, _, _, _, _, _, _, _, _⟩⟩
    simp_all
  have h0 : exhaust .sd { s with ch := { s.ch with sdIn := s.ch.sdIn ++ [item] } } = sdRule s item := by
    rw [exhaust_sd]
    simp [h3, hs]
  have hd : (sdRule s item).ch.internalEmpty = true := by
    cases item <;> simp [sdRule_tok, sdRule_fin, internalEmpty_iff, h1, h2, h3, h4, h5]
  rw [State.settle, exhaust_idle .zcd _ (by simp [Channels.waiting, h1]),
    exhaust_idle .etd _ (by simp [Channels.waiting, h2]), h0]
  obtain ⟨g1, g2, g3, g4, g5⟩ := (internalEmpty_iff _).mp hd
  simp [exhaust_idle, Channels.waiting, g4, g5]

/-- One token at CD. -/
theorem settle_cd (s : State) (item : Item Int) (h : s.ch.internalEmpty = true) :
    State.settle { s with ch := { s.ch with cdIn := s.ch.cdIn ++ [item] } } = cdRule s item := by
  obtain ⟨h1, h2, h3, h4, h5⟩ := (internalEmpty_iff _).mp h
  have hs : ({ s with ch := { s.ch with cdIn := [] } } : State) = s := by
    rcases s with ⟨_, _, _, _, _, _, _, ⟨_, _, _, _, _, _, _, _, _, _⟩⟩
    simp_all
  have h0 : exhaust .cd { s with ch := { s.ch with cdIn := s.ch.cdIn ++ [item] } } = cdRule s item := by
    rw [exhaust_cd_one _ item (by simp [h4])]
    simp [hs]
  have hd : (cdRule s item).ch.psIn = [] := by
    cases item with
    | fin => simp [cdRule_fin, h5]
    | tok v =>
      rw [cdRule_tok]
      cases (s.cd.onSample s.cfg.sps v).fatal with
      | none => exact h5
      | some f => rfl
  rw [State.settle, exhaust_idle .zcd _ (by simp [Channels.waiting, h1]),
    exhaust_idle .etd _ (by simp [Channels.waiting, h2]), exhaust_idle .sd _ (by simp [Channels.waiting, h3]), h0]
  simp [exhaust_idle, Channels.waiting, hd]

/-- One token at PS. -/
theorem settle_ps (s : State) (item : Item Letter) (h : s.ch.internalEmpty = true) :
    State.settle { s with ch := { s.ch with psIn := s.ch.psIn ++ [item] } } = psRule s item := by
  obtain ⟨h1, h2, h3, h4, h5⟩ := (internalEmpty_iff _).mp h
  have hs : ({ s with ch := { s.ch with psIn := [] } } : State) = s := by
    rcases s with ⟨_, _, _, _, _, _, _, ⟨_, _, _, _, _, _, _, _, _, _⟩⟩
    simp_all
  rw [State.settle, exhaust_idle .zcd _ (by simp [Channels.waiting, h1]),
    exhaust_idle .etd _ (by simp [Channels.waiting, h2]), exhaust_idle .sd _ (by simp [Channels.waiting, h3]),
    exhaust_idle .cd _ (by simp [Channels.waiting, h4]), exhaust_ps]
  simp [h5, hs]

/-! ### Mode EDGE -/

/-- The bits of a crossing are binary (R160). -/
theorem etdBits_ne_x (spb : ℚ) (x : Xing) : ∀ y ∈ etdBits spb x, y ≠ .x := by
  intro y hy
  have := List.eq_of_mem_replicate hy
  subst this
  cases x.dir <;> simp [dirBit]

/-- On binary bits SD has no undecodable pair (R181). -/
theorem onBit_binary (d : Sd) (y : BitVal) (hd : d.b1 ≠ .x) (hy : y ≠ .x) :
    (d.onBit y).2 ≠ some .undec ∧ (d.onBit y).1.b1 ≠ .x := by
  rcases d with ⟨st, prev1, pos, syncpos, slot, b1⟩
  cases st with
  | hunt =>
    refine ⟨by simp [Sd.onBit], ?_⟩
    by_cases hc : y = .one ∧ prev1 = true
    · simp [Sd.onBit, Sd.hunt, hc]
    · simpa only [Sd.onBit, Sd.hunt, if_neg hc] using hd
  | synced => simp only [Sd.onBit]; split_ifs <;> cases b1 <;> cases y <;> simp_all [lookup]

/-- SD's rule over a list of binary bits, one record (R123). -/
theorem foldl_sdRule_binary (bs : List BitVal) (s : State) (hs : s.sd.b1 ≠ .x) (hb : ∀ y ∈ bs, y ≠ .x) :
    (bs.map Item.tok).foldl sdRule s = { s with
      sd := sdAfter s.sd bs
      ch := { s.ch with out := s.ch.out ++ (sdStream s.sd bs).map .sym } } := by
  induction bs generalizing s with
  | nil => simp [sdAfter, sdStream]
  | cons y ys ih =>
    obtain ⟨hu, h1⟩ := onBit_binary s.sd y hs (hb y (by simp))
    have hr : sdRule s (.tok y) = { s with
        sd := (s.sd.onBit y).1
        ch := { s.ch with out := s.ch.out ++ (s.sd.onBit y).2.toList.map .sym } } := by
      simp [sdRule_tok, hu]
    rw [List.map_cons, List.foldl_cons, hr, ih _ h1 (fun z hz => hb z (by simp [hz]))]
    simp [sdAfter, sdStream]

/-- SD keeps a binary `b1` over binary bits. -/
theorem sdAfter_binary (bs : List BitVal) (d : Sd) (hd : d.b1 ≠ .x) (hb : ∀ y ∈ bs, y ≠ .x) :
    (sdAfter d bs).b1 ≠ .x := by
  induction bs generalizing d with
  | nil => exact hd
  | cons y ys ih =>
    exact ih _ (onBit_binary d y hd (hb y (by simp))).2 (fun z hz => hb z (by simp [hz]))

/-- One sample at ZCD in mode EDGE that completes no crossing. -/
theorem settle_edge_quiet (s : State) (v : Int) (h : s.ch.internalEmpty = true) (hx : (s.zcd.onSample v).2 = none) :
    State.settle { s with ch := { s.ch with zcdIn := s.ch.zcdIn ++ [.tok v] } }
      = { s with zcd := (s.zcd.onSample v).1 } := by
  obtain ⟨h1, h2, h3, h4, h5⟩ := (internalEmpty_iff _).mp h
  have h0 : exhaust .zcd { s with ch := { s.ch with zcdIn := s.ch.zcdIn ++ [.tok v] } }
      = { s with zcd := (s.zcd.onSample v).1 } := by
    rw [exhaust_zcd]
    rcases s with ⟨_, _, _, _, _, _, _, ⟨_, _, _, _, _, _, _, _, _, _⟩⟩
    simp_all [zcdRule_tok]
  rw [State.settle, h0]
  simp [exhaust_idle, Channels.waiting, h2, h3, h4, h5]

/-- One sample at ZCD in mode EDGE that completes a crossing. -/
theorem settle_edge_crossing (s : State) (v : Int) (x : Xing) (h : s.ch.internalEmpty = true)
    (hm : s.pipe.mode = .edge) (hb : s.sd.b1 ≠ .x) (hx : (s.zcd.onSample v).2 = some x) :
    State.settle { s with ch := { s.ch with zcdIn := s.ch.zcdIn ++ [.tok v] } }
      = { s with
        pipe := { s.pipe with
          flags := { s.pipe.flags with unc := s.pipe.flags.unc || uncertain s.cfg.spb s.cfg.mu x.delta } }
        zcd := (s.zcd.onSample v).1
        etd := ⟨s.etd.seq + 1⟩
        sd := sdAfter s.sd (etdBits s.cfg.spb x)
        ch := { s.ch with
          tapX := s.ch.tapX ++ [.tok x]
          tapB := s.ch.tapB ++ (etdBits s.cfg.spb x).map .tok
          out := s.ch.out ++ (sdStream s.sd (etdBits s.cfg.spb x)).map .sym
          diag := s.ch.diag ++ if uncertain s.cfg.spb s.cfg.mu x.delta then [⟨.unc, s.etd.seq⟩] else [] } } := by
  obtain ⟨h1, h2, h3, h4, h5⟩ := (internalEmpty_iff _).mp h
  rcases s with ⟨⟨_, _, _, _, _, _⟩, _, _, _, _, _, _, ⟨_, _, _, _, _, _, _, _, _, _⟩⟩
  simp only at h1 h2 h3 h4 h5 hx hm hb
  subst h1 h2 h3 h4 h5 hm
  rw [State.settle, exhaust_zcd]
  simp only [List.nil_append, List.foldl_cons, List.foldl_nil, zcdRule_tok, hx, if_true]
  rw [exhaust_etd]
  simp only [List.nil_append, Option.toList_some, List.map_cons, List.map_nil, List.foldl_cons, List.foldl_nil,
    etdRule_tok, if_true]
  rw [exhaust_sd]
  simp only
  rw [foldl_sdRule_binary _ _ hb (etdBits_ne_x _ _)]
  rw [exhaust_idle .cd _ rfl, exhaust_idle .ps _ rfl]
  simp only [List.append_nil]

/-- END in mode EDGE. -/
theorem settle_edge_fin (s : State) (h : s.ch.internalEmpty = true) (hm : s.pipe.mode = .edge) :
    State.settle { s with ch := { s.ch with zcdIn := s.ch.zcdIn ++ [.fin] } }
      = { s with
        pipe := { s.pipe with st := .done }
        ch := { s.ch with
          tapX := s.ch.tapX ++ [.fin]
          tapB := s.ch.tapB ++ [.fin]
          out := s.ch.out ++ [.fin] } } := by
  obtain ⟨h1, h2, h3, h4, h5⟩ := (internalEmpty_iff _).mp h
  rcases s with ⟨⟨_, _, _, _, _, _⟩, _, _, _, _, _, _, ⟨_, _, _, _, _, _, _, _, _, _⟩⟩
  simp only at h1 h2 h3 h4 h5 hm
  subst h1 h2 h3 h4 h5 hm
  rw [State.settle, exhaust_zcd]
  simp only [List.nil_append, List.foldl_cons, List.foldl_nil, zcdRule_fin, if_true]
  rw [exhaust_etd]
  simp only [List.nil_append, List.foldl_cons, List.foldl_nil, etdRule_fin, if_true]
  rw [exhaust_sd]
  simp only [List.foldl_cons, List.foldl_nil, sdRule_fin]
  rw [exhaust_idle .cd _ rfl, exhaust_idle .ps _ rfl]
  simp only [List.append_nil]

end Sys2Proof.Machine
end

