-- ==== Sys2Proof/Laws/Units.lean ====
section
/-! SUPPORT. Small lemmas of the functions of the units ZCD, ETD and PS, so that later proofs need not unfold them. -/

namespace Sys2Proof.Machine

/-! ### ZCD -/

theorem significant_iff (v : Int) : significant v = true ↔ 10 ≤ |v| := by
  unfold significant Config.noiseThr
  exact decide_eq_true_iff

theorem polarityOf_pos {v : Int} (h : 0 < v) : polarityOf v = .pos := if_pos h

theorem polarityOf_neg {v : Int} (h : v ≤ 0) : polarityOf v = .neg := if_neg (not_lt.mpr h)

/-! ### ETD -/

theorem bitsInInterval_cast (spb delta : ℚ) (h : 0 < spb) (hd : 0 ≤ delta) :
    (bitsInInterval spb delta : ℚ) = ((⌊delta / spb + 1 / 2⌋ : Int) : ℚ) := by
  have h0 : 0 ≤ delta / spb := by positivity
  have : (0 : Int) ≤ ⌊delta / spb + 1 / 2⌋ := Int.floor_nonneg.mpr (by linarith)
  simp only [bitsInInterval, Config.round]
  exact_mod_cast Int.toNat_of_nonneg this

theorem uncertain_iff (spb mu delta : ℚ) : uncertain spb mu delta = true ↔ mu < |uncertainty spb delta| := by
  unfold uncertain
  exact decide_eq_true_iff

/-! ### PS -/

theorem weight_low {u : ℚ} (h : u ≤ 3 / 5) : weight u = 0 := if_pos h

theorem weight_ramp {u : ℚ} (h : 3 / 5 < u) (h' : u < 9 / 10) : weight u = (u - 3 / 5) / (3 / 10) := by
  unfold weight
  rw [if_neg (show ¬ u ≤ Config.blendStart from not_le.mpr h), if_pos (show u < Config.blendEnd from h')]
  unfold Config.blendStart Config.blendEnd
  norm_num

theorem weight_high {u : ℚ} (h : 9 / 10 ≤ u) : weight u = 1 := by
  unfold weight
  rw [if_neg (show ¬ u ≤ Config.blendStart from not_le.mpr (lt_of_lt_of_le (by norm_num [Config.blendStart]) h)),
    if_neg (show ¬ u < Config.blendEnd from not_lt.mpr h)]

theorem weight_nonneg (u : ℚ) : 0 ≤ weight u := by
  rcases le_or_gt u (3 / 5) with h | h
  · rw [weight_low h]
  · rcases lt_or_ge u (9 / 10) with h' | h'
    · rw [weight_ramp h h']
      apply div_nonneg <;> linarith
    · rw [weight_high h']
      norm_num

theorem weight_le_one (u : ℚ) : weight u ≤ 1 := by
  rcases le_or_gt u (3 / 5) with h | h
  · rw [weight_low h]
    norm_num
  · rcases lt_or_ge u (9 / 10) with h' | h'
    · rw [weight_ramp h h', div_le_one (by norm_num)]
      linarith
    · rw [weight_high h']

theorem osc_eq (l : Letter) (u : ℝ) :
    osc l u = ((oscillator l).s : ℝ) * Real.sin (2 * Real.pi * u) + ((oscillator l).c : ℝ) * Real.cos (2 * Real.pi * u) := by
  cases l <;> simp [osc, oscillator]

theorem abs_osc_le_one (l : Letter) (u : ℝ) : |osc l u| ≤ 1 := by
  cases l <;> simp [osc, Real.abs_sin_le_one, Real.abs_cos_le_one]

/-- The value a blended phasor stands for. -/
theorem blend_value (w : ℚ) (cur nxt : Letter) (u : ℝ) :
    (Phasor.blend w (oscillator nxt) (oscillator cur)).value u = w * osc nxt u + (1 - w) * osc cur u := by
  rw [osc_eq, osc_eq]
  simp only [Phasor.value, Phasor.blend]
  push_cast
  ring

end Sys2Proof.Machine
end

