-- ==== Sys2Proof/Laws/Cd.lean ====
section
/-! SUPPORT. CD: the first raw sign change, the nearest anchor, the number of samples a period pulls, and what Drain can
answer. -/

namespace Sys2Proof.Machine

/-- No raw sign change, no crossing (R207). -/
theorem firstCrossing_none (buf : List Int) : ∀ k,
    (∀ i a b, buf[i]? = some a → buf[i + 1]? = some b → ¬ ((a ≤ 0 ∧ 0 < b) ∨ (0 ≤ a ∧ b < 0))) →
    firstCrossing k buf = none := by
  induction buf with
  | nil => intro k _; rfl
  | cons a rest ih =>
    intro k h
    rcases rest with _ | ⟨b, rest⟩
    · rfl
    · have hs : signChange a b = false := by
        have := h 0 a b rfl rfl
        simp [signChange]; simpa [not_or] using this
      rw [firstCrossing, hs]
      simp only [Bool.false_eq_true, if_false]
      exact ih (k+1) (fun i x y hx hy => h (i+1) x y (by simpa using hx) (by simpa using hy))

/-- The first raw sign change gives the crossing (R207, R208). -/
theorem firstCrossing_some (buf : List Int) : ∀ (k i : Nat) (a b : Int),
    buf[i]? = some a → buf[i + 1]? = some b →
    ((a ≤ 0 ∧ 0 < b) ∨ (0 ≤ a ∧ b < 0)) →
    (∀ j a' b', j < i → buf[j]? = some a' → buf[j + 1]? = some b' → ¬ ((a' ≤ 0 ∧ 0 < b') ∨ (0 ≤ a' ∧ b' < 0))) →
    firstCrossing k buf = some (((k + i : Nat) : ℚ) + (a : ℚ) / (a - b)) := by
  induction buf with
  | nil => intro k i a b h; simp at h
  | cons x rest ih =>
    intro k i a b ha hb hc hbefore
    rcases rest with _ | ⟨y, rest⟩
    · rcases i with _ | i <;> simp at hb
    · rcases i with _ | i
      · simp at ha hb; subst ha hb
        have hs : signChange x y = true := by simpa [signChange] using hc
        simp [firstCrossing, hs]
      · have hs : signChange x y = false := by
          have := hbefore 0 x y (by omega) rfl rfl
          simp [signChange]; simpa [not_or] using this
        rw [firstCrossing, hs]
        simp only [Bool.false_eq_true, if_false]
        rw [ih (k+1) i a b (by simpa using ha) (by simpa using hb) hc
          (fun j a' b' hj h1 h2 => hbefore (j+1) a' b' (by omega) (by simpa using h1) (by simpa using h2))]
        congr 3; omega

/-- The least index among the nearest anchors is the nearest anchor (R209). -/
theorem nearestAnchor_eq (n x : ℚ) (j : Fin 3) (hlt : ∀ k < j, |x - offset n j| < |x - offset n k|)
    (hle : ∀ k, |x - offset n j| ≤ |x - offset n k|) : nearestAnchor n x = j := by
  have key : nearestAnchor n x = if |x - offset n 0| ≤ |x - offset n 1| ∧ |x - offset n 0| ≤ |x - offset n 2| then 0
    else if |x - offset n 1| ≤ |x - offset n 2| then 1 else 2 := rfl
  rw [key]
  match j, hlt, hle with
  | 0, _, hle => rw [if_pos ⟨hle 1, hle 2⟩]
  | 1, hlt, hle => rw [if_neg (fun h => absurd h.1 (not_le.mpr (hlt 0 (by decide)))), if_pos (hle 2)]
  | 2, hlt, hle =>
    rw [if_neg (fun h => absurd h.2 (not_le.mpr (hlt 0 (by decide)))), if_neg (not_le.mpr (hlt 1 (by decide)))]

/-- Under a configuration CAT can run, a period pulls at least two samples, whatever the shift (R117, R202). -/
theorem two_le_pullCount {c : Cfg} (h : c.legal .cat = true) (sh : Shift) : 2 ≤ pullCount c.sps sh := by
  have hl : ⌊c.sps / 2⌋ + 1 ≤ ⌈c.sps⌉ - 2 := by
    simp only [Cfg.legal, periodLegal, Bool.and_eq_true, decide_eq_true_eq] at h
    exact h.1.2
  have hn : 0 ≤ c.sps := by
    rw [Cfg.sps, quotient]
    positivity
  have : 0 ≤ ⌊c.sps / 2⌋ := Int.floor_nonneg.mpr (by positivity)
  rw [pullCount]
  cases sh <;> simp [Shift.toInt] <;> omega

/-- Drain answers what the relation `Periods` says (R200, R203). -/
theorem drain_of_periods (n : ℚ) (hn : ∀ sh, 1 ≤ pullCount n sh) (ks : List Letter) :
    ∀ (fuel : Nat) (c d : Cd), c.q.length ≤ fuel → Periods n ks c d →
    c.drain n fuel = ⟨d, ks, none⟩ := by
  induction ks with
  | nil =>
    rintro fuel c d hf ⟨rfl, hlt⟩
    rcases fuel with _ | fuel
    · rfl
    · simp [Cd.drain, hlt]
  | cons k ks ih =>
    rintro fuel c d hf ⟨h1, h2, h3⟩
    have := hn c.shift
    rcases fuel with _ | fuel
    · omega
    · simp only [Cd.drain, if_neg (not_lt.mpr h1), h2]
      rw [ih fuel _ d (by simp; omega) h3]

/-- Drain answers what the relation `PeriodsThenFatal` says (R200, R203, 60_exceptions.md R270). -/
theorem drain_of_periodsThenFatal (n : ℚ) (hn : ∀ sh, 1 ≤ pullCount n sh) (ks : List Letter) :
    ∀ (fuel : Nat) (c d : Cd) (f : Fatal), c.q.length ≤ fuel → PeriodsThenFatal n ks c d f →
    c.drain n fuel = ⟨d, ks, some f⟩ := by
  induction ks with
  | nil =>
    rintro fuel c d f hf ⟨h1, h2, rfl⟩
    have := hn c.shift
    rcases fuel with _ | fuel
    · omega
    · simp only [Cd.drain, if_neg (not_lt.mpr h1), h2]
  | cons k ks ih =>
    rintro fuel c d f hf ⟨h1, h2, h3⟩
    have := hn c.shift
    rcases fuel with _ | fuel
    · omega
    · simp only [Cd.drain, if_neg (not_lt.mpr h1), h2]
      rw [ih fuel _ d f (by simp; omega) h3]

/-- A failing period is latched under its own number, with a cause (60_exceptions.md R271). -/
theorem decodePeriod_error {h l n : ℚ} {p : Nat} {buf : List Int} {f : Fatal}
    (hd : decodePeriod h l n p buf = .error f) : f.info.period = p ∧ f.cause ≠ .none := by
  have hcat : ∀ x c, categorize h l n x = .error c → c ≠ .none := by
    intro x c hc; unfold categorize at hc; split_ifs at hc <;> (injection hc with hc; subst hc; simp)
  have key : ∀ j f, categoryAt h l n p buf j = .error f → f.info.period = p ∧ f.cause ≠ .none := by
    intro j f hj
    unfold categoryAt at hj
    dsimp only at hj
    cases hc : categorize h l n (getSample buf (offset n j)) with
    | ok c => rw [hc] at hj; cases hj
    | error c => rw [hc] at hj; injection hj with hj; subst hj; exact ⟨rfl, hcat _ _ hc⟩
  unfold decodePeriod at hd
  split at hd
  · injection hd with hd; subst hd; exact key _ _ (by assumption)
  · split at hd
    · injection hd with hd; subst hd; exact key _ _ (by assumption)
    · split at hd
      · injection hd with hd; subst hd; exact key _ _ (by assumption)
      · split at hd
        · cases hd
        · injection hd with hd; subst hd; exact ⟨rfl, by simp [noMatch]⟩

/-- What Drain can answer: a failure is latched under the number of its period; without one no whole period is left; phase
and thresholds stay (R200). -/
theorem drain_spec (n : ℚ) (hn : ∀ sh, 1 ≤ pullCount n sh) : ∀ (fuel : Nat) (c : Cd), c.q.length ≤ fuel →
   (∀ f, (c.drain n fuel).fatal = some f → f.info.period = (c.drain n fuel).regs.period ∧ f.cause ≠ .none) ∧
   ((c.drain n fuel).fatal = none →
     ((c.drain n fuel).regs.q.length : Int) < pullCount n (c.drain n fuel).regs.shift) ∧
   (c.drain n fuel).regs.ph = c.ph ∧
   (c.drain n fuel).regs.high = c.high ∧ (c.drain n fuel).regs.low = c.low ∧ (c.drain n fuel).regs.peak = c.peak := by
  intro fuel
  induction fuel with
  | zero =>
    intro c hc
    have : c.q.length = 0 := by omega
    refine ⟨fun f h => by simp [Cd.drain] at h, fun _ => ?_, by simp [Cd.drain]⟩
    simp only [Cd.drain]; have := hn c.shift; omega
  | succ fuel ih =>
    intro c hc
    simp only [Cd.drain]
    by_cases hlt : (c.q.length : Int) < pullCount n c.shift
    · simp only [if_pos hlt]; exact ⟨fun f h => by simp at h, fun _ => hlt, by simp⟩
    · simp only [if_neg hlt]
      cases hd : decodePeriod c.high c.low n c.period (c.q.take (pullCount n c.shift).toNat) with
      | error f =>
        simp only
        refine ⟨fun f' h => ?_, fun h => by simp at h, ?_⟩
        · injection h with h; subst h; exact decodePeriod_error hd
        · simp
      | ok k =>
        simp only
        apply ih
        have := hn c.shift
        simp only [List.length_drop]; omega

end Sys2Proof.Machine
end

