-- ==== Sys2Proof/Laws/Decode.lean ====
section
/-! SUPPORT. The fields of a word as arithmetic, packing and unpacking, and what the operand codes and the decoder's parts
can answer. -/

namespace Sys2Proof

/-! ### Fields -/

theorem opField_toNat (w : Word) : (opField w).toNat = w.toNat / 268435456 := by
  simp only [opField, BitVec.extractLsb'_toNat, Nat.shiftRight_eq_div_pow]
  have := w.isLt
  omega

theorem aField_toNat (w : Word) : (aField w).toNat = w.toNat / 16777216 % 16 := by
  simp only [aField, BitVec.extractLsb'_toNat, Nat.shiftRight_eq_div_pow]

theorem immField_toNat (w : Word) : (immField w).toNat = w.toNat % 16777216 := by
  simp only [immField, BitVec.extractLsb'_toNat, Nat.shiftRight_eq_div_pow]
  norm_num

theorem packWord_toNat (op a : BitVec 4) (imm : BitVec 24) :
    (packWord op a imm).toNat = op.toNat * 268435456 + a.toNat * 16777216 + imm.toNat := by
  simp only [packWord, BitVec.toNat_append]
  have := op.isLt
  have := a.isLt
  have := imm.isLt
  rw [← Nat.shiftLeft_add_eq_or_of_lt (by omega), ← Nat.shiftLeft_add_eq_or_of_lt (by omega)]
  simp only [Nat.shiftLeft_eq]
  omega

@[simp] theorem opField_packWord (op a : BitVec 4) (imm : BitVec 24) : opField (packWord op a imm) = op := by
  apply BitVec.eq_of_toNat_eq
  rw [opField_toNat, packWord_toNat]
  have := op.isLt
  have := a.isLt
  have := imm.isLt
  omega

@[simp] theorem aField_packWord (op a : BitVec 4) (imm : BitVec 24) : aField (packWord op a imm) = a := by
  apply BitVec.eq_of_toNat_eq
  rw [aField_toNat, packWord_toNat]
  have := op.isLt
  have := a.isLt
  have := imm.isLt
  omega

@[simp] theorem immField_packWord (op a : BitVec 4) (imm : BitVec 24) : immField (packWord op a imm) = imm := by
  apply BitVec.eq_of_toNat_eq
  rw [immField_toNat, packWord_toNat]
  have := op.isLt
  have := a.isLt
  have := imm.isLt
  omega

/-- A word is its three fields (R89). -/
theorem packWord_fields (w : Word) : packWord (opField w) (aField w) (immField w) = w := by
  apply BitVec.eq_of_toNat_eq
  rw [packWord_toNat, opField_toNat, aField_toNat, immField_toNat]
  have := w.isLt
  omega

theorem word_of_fields {w : Word} {op a : BitVec 4} {imm : BitVec 24} (h₁ : opField w = op) (h₂ : aField w = a)
    (h₃ : immField w = imm) : packWord op a imm = w := by
  rw [← h₁, ← h₂, ← h₃, packWord_fields]

theorem opField_eq_ofNat {w : Word} {n : Nat} (hn : n < 16) (h : (opField w).toNat = n) :
    opField w = BitVec.ofNat 4 n := by
  apply BitVec.eq_of_toNat_eq
  rw [h]
  simp
  omega

theorem immField_eq_ofNat {w : Word} {n : Nat} (hn : n < 16777216) (h : (immField w).toNat = n) :
    immField w = BitVec.ofNat 24 n := by
  apply BitVec.eq_of_toNat_eq
  rw [h]
  simp
  omega

/-! ### Codes -/

@[simp] theorem Mode.ofCode_code (m : Mode) : Mode.ofCode m.code = some m := by cases m <;> rfl

@[simp] theorem Dir.ofCode_code (d : Dir) : Dir.ofCode d.code = some d := by cases d <;> rfl

@[simp] theorem BitVal.ofCode_code (v : BitVal) : BitVal.ofCode v.code = some v := by cases v <;> rfl

@[simp] theorem Sym.ofCode_code (s : Sym) : Sym.ofCode s.code = some s := by
  cases s with
  | letter l => cases l <;> rfl
  | undec => rfl

theorem Mode.code_of_ofCode {n : Nat} {m : Mode} (h : Mode.ofCode n = some m) : n = m.code := by
  unfold Mode.ofCode at h
  split at h <;> simp at h <;> subst h <;> rfl

theorem Dir.code_of_ofCode {n : Nat} {d : Dir} (h : Dir.ofCode n = some d) : n = d.code := by
  unfold Dir.ofCode at h
  split at h <;> simp at h <;> subst h <;> rfl

theorem BitVal.code_of_ofCode {n : Nat} {v : BitVal} (h : BitVal.ofCode n = some v) : n = v.code := by
  unfold BitVal.ofCode at h
  split at h <;> simp at h <;> subst h <;> rfl

theorem Sym.code_of_ofCode {n : Nat} {s : Sym} (h : Sym.ofCode n = some s) : n = s.code := by
  unfold Sym.ofCode at h
  split at h <;> simp at h <;> subst h <;> rfl

theorem Mode.code_lt (m : Mode) : m.code < 8 := by cases m <;> decide

theorem Dir.code_lt (d : Dir) : d.code < 2 := by cases d <;> decide

theorem BitVal.code_lt (v : BitVal) : v.code < 4 := by cases v <;> decide

theorem Sym.code_lt (s : Sym) : s.code < 8 := by
  cases s with
  | letter l => cases l <;> decide
  | undec => decide

/-! ### The parts of the decoder -/

/-- What it takes for a word with a code to decode. -/
theorem decodeCode_ok {α : Type} {width : Nat} {of : Nat → Option α} {build : α → Instr} {w : Word} {i : Instr}
    (h : decodeCode width of build w = .ok i) :
    ∃ y, aField w = 0 ∧ (immField w).toNat < 2 ^ width ∧ of (immField w).toNat = some y ∧ i = build y := by
  unfold decodeCode at h
  split at h
  · rename_i hc
    split at h
    · rename_i y hy
      exact ⟨y, hc.1, hc.2, hy, (Except.ok.inj h).symm⟩
    · cases h
  · cases h

theorem decodePlain_ok {i j : Instr} {w : Word} (h : decodePlain i w = .ok j) : aField w = 0 ∧ immField w = 0 ∧ j = i := by
  unfold decodePlain at h
  split at h
  · rename_i hc
    exact ⟨hc.1, hc.2, (Except.ok.inj h).symm⟩
  · cases h

theorem decodeSample_ok {i : Instr} {w : Word} (h : decodeSample w = .ok i) :
    aField w = 0 ∧ i = .sample (immField w).toInt := by
  unfold decodeSample at h
  split at h
  · rename_i hc
    exact ⟨hc, (Except.ok.inj h).symm⟩
  · cases h

theorem decodeXing_ok {i : Instr} {p : PortWord} (h : decodeXing p = .ok i) :
    0 ≤ p.delta ∧ decodeCode 1 Dir.ofCode (fun d => .xing d p.t p.delta) p.word = .ok i := by
  unfold decodeXing at h
  split at h
  · rename_i hc
    exact ⟨hc, h⟩
  · cases h

/-- A row whose mask keeps the bits from `k` on compares the quotients by `2 ^ k` (R105). -/
theorem mask_iff (w mask pat : Word) (k : Nat) (hm : mask = (BitVec.allOnes 32 >>> k) <<< k)
    (hp : pat.toNat % 2 ^ k = 0) : (w &&& mask == pat) = true ↔ w.toNat / 2 ^ k = pat.toNat / 2 ^ k := by
  have h : w &&& mask = (w >>> k) <<< k := by
    subst hm
    ext i hi
    simp only [BitVec.getElem_and, BitVec.getElem_shiftLeft]
    by_cases hk : i < k
    · simp [hk]
    · have e : k + (i - k) = i := by omega
      simp only [hk, BitVec.getElem_ushiftRight, e, BitVec.getLsbD_allOnes, decide_false, Bool.not_false, Bool.true_and]
      simp [hi, ← BitVec.getLsbD_eq_getElem]
  rw [beq_iff_eq, h, ← BitVec.toNat_inj]
  simp only [BitVec.toNat_shiftLeft, BitVec.toNat_ushiftRight, Nat.shiftRight_eq_div_pow, Nat.shiftLeft_eq]
  have h1 : w.toNat / 2 ^ k * 2 ^ k ≤ w.toNat := Nat.div_mul_le_self _ _
  have := w.isLt
  rw [Nat.mod_eq_of_lt (by omega)]
  have h2 := Nat.div_add_mod pat.toNat (2 ^ k)
  rw [hp] at h2
  have hk : 0 < 2 ^ k := by positivity
  constructor
  · intro h
    rw [← h, Nat.mul_div_cancel _ hk]
  · intro h
    rw [h, mul_comm]
    omega

end Sys2Proof
end

