-- ==== Sys2Proof/Laws/Operands.lean ====
section
/-! SUPPORT. The configuration register file: what a read answers after a write, and which writes are taken; and the
indexed access. -/

namespace Sys2Proof.Machine

/-- A register read after it was written (10_state.md R40). -/
theorem Cfg.read_write_self (c : Cfg) (n : BitVec 4) (val : BitVec 24) (h : n.toNat ≤ 12) : (c.write n val).read n = val := by
  revert h
  simp only [Cfg.read, Cfg.write]
  rcases n.toNat with _ | _ | _ | _ | _ | _ | _ | _ | _ | _ | _ | _ | _ | _ | _ <;> simp

/-- A register read after another one was written (10_state.md R40). -/
theorem Cfg.read_write_of_ne (c : Cfg) {n m : BitVec 4} (val : BitVec 24) (h : m ≠ n) :
    (c.write n val).read m = c.read m := by
  have h' : m.toNat ≠ n.toNat := fun e => h (BitVec.eq_of_toNat_eq e)
  simp only [Cfg.read, Cfg.write]
  generalize m.toNat = i at *
  generalize n.toNat = j at *
  rcases j with _ | _ | _ | _ | _ | _ | _ | _ | _ | _ | _ | _ | _ | j
  all_goals
    rcases i with _ | _ | _ | _ | _ | _ | _ | _ | _ | _ | _ | _ | _ | i <;> first | rfl | (exfalso; omega)

/-- Which writes CFGWR takes outside RUN (40_pipeline_control.md R114). -/
theorem cfgWritable_iff (n : BitVec 4) (val : BitVec 24) :
    cfgWritable n val = true ↔
      n.toNat ≤ 12 ∧ (n.toNat = 6 → val.toNat ≤ 1) ∧ (n.toNat = 12 → val.toNat ≤ 2 ^ 23 - 1) := by
  simp only [cfgWritable, Bool.and_eq_true, Bool.or_eq_true, decide_eq_true_eq, and_assoc]
  constructor
  · rintro ⟨h1, h2, h3⟩
    exact ⟨h1, fun h => h2.resolve_left (fun k => k h), fun h => h3.resolve_left (fun k => k h)⟩
  · rintro ⟨h1, h2, h3⟩
    refine ⟨h1, ?_, ?_⟩ <;> omega

/-- The indexed access inside the buffer (44_categorizing_demodulator.md R204). -/
theorem bufAt_of_getElem? {buf : List Int} {i : Nat} {v : Int} (h : buf[i]? = some v) : bufAt buf (i : Int) = v := by
  simp [bufAt, h]

end Sys2Proof.Machine
end

