-- ==== Sys2Proof/Laws/PerInstr.lean ====
section
/-! SUPPORT. A statement about every instruction as syntax, one lemma per constructor: its word lies in the row of its
mnemonic in the mask-and-match list (30_encoding.md R105). -/

namespace Sys2Proof.Laws.EncodesInRow

/-- The word of an instruction is covered by the row of its mnemonic. -/
def Statement (i : Instr) : Prop := ∃ r ∈ maskRows, r.mnemonic = i.mnemonic ∧ r.covers (encode i).word = true

theorem nop : Statement .nop := ⟨⟨"NOP", 0xFFFFFFFF, 0⟩, by simp [maskRows], rfl, by decide⟩

theorem reset : Statement .reset := ⟨⟨"RESET", 0xFFFFFFFF, 0x10000000⟩, by simp [maskRows], rfl, by decide⟩

theorem cfgwr (n : BitVec 4) (val : BitVec 24) : Statement (.cfgwr n val) := by
  refine ⟨⟨"CFGWR", 0xF0000000, 0x20000000⟩, by simp [maskRows], rfl, ?_⟩
  refine (mask_iff _ _ _ 28 (by decide) (by decide)).mpr ?_
  simp only [encode, plainWord, packWord_toNat]
  have := n.isLt
  have := val.isLt
  simp only [BitVec.ofNat_eq_ofNat, BitVec.toNat_ofNat]
  omega

theorem start (m : Mode) : Statement (.start m) :=
  ⟨⟨"START", 0xFFFFFFF8, 0x30000000⟩, by simp [maskRows], rfl, by cases m <;> decide⟩

theorem endOfStream : Statement .endOfStream :=
  ⟨⟨"END", 0xFFFFFFFF, 0x40000000⟩, by simp [maskRows], rfl, by decide⟩

theorem sample (v : Int) : Statement (.sample v) := by
  refine ⟨⟨"SAMPLE", 0xFF000000, 0x50000000⟩, by simp [maskRows], rfl, ?_⟩
  refine (mask_iff _ _ _ 24 (by decide) (by decide)).mpr ?_
  simp only [encode, plainWord, packWord_toNat]
  have := (BitVec.ofInt 24 v).isLt
  simp only [BitVec.ofNat_eq_ofNat, BitVec.toNat_ofNat]
  omega

theorem xing (d : Dir) (t delta : ℚ) : Statement (.xing d t delta) :=
  ⟨⟨"XING", 0xFFFFFFFE, 0x60000000⟩, by simp [maskRows], rfl, by cases d <;> (simp only [encode]; decide)⟩

theorem bit (v : BitVal) : Statement (.bit v) :=
  ⟨⟨"BIT", 0xFFFFFFFC, 0x70000000⟩, by simp [maskRows], rfl, by cases v <;> decide⟩

theorem sym (s : Sym) : Statement (.sym s) := by
  refine ⟨⟨"SYM", 0xFFFFFFF8, 0x80000000⟩, by simp [maskRows], rfl, ?_⟩
  cases s with
  | letter l => cases l <;> decide
  | undec => decide

theorem diag (kind : BitVec 4) (seq : BitVec 24) : Statement (.diag kind seq) := by
  refine ⟨⟨"DIAG", 0xF0000000, 0x90000000⟩, by simp [maskRows], rfl, ?_⟩
  refine (mask_iff _ _ _ 28 (by decide) (by decide)).mpr ?_
  simp only [encode, plainWord, packWord_toNat]
  have := kind.isLt
  have := seq.isLt
  simp only [BitVec.ofNat_eq_ofNat, BitVec.toNat_ofNat]
  omega

end Sys2Proof.Laws.EncodesInRow
end

