-- ==== Sys2Proof/Laws/Sd.lean ====
section
/-! SUPPORT. SD: what a bit does in each slot, and the symbols of a list of bits. -/

namespace Sys2Proof.Machine

/-- A bit while hunting that does not sync (R177). -/
theorem Sd.onBit_hunt (d : Sd) (v : BitVal) (h : d.st = .hunt) (hv : ¬ (v = .one ∧ d.prev1 = true)) :
    d.onBit v = ({ d with pos := d.pos + 1, prev1 := decide (v = .one) }, none) := by
  simp only [Sd.onBit, h, Sd.hunt, hv]
  simp

/-- The bit that syncs (R177). -/
theorem Sd.onBit_sync (d : Sd) (h : d.st = .hunt) (hp : d.prev1 = true) :
    d.onBit .one = ({ d with pos := d.pos + 1, st := .synced, syncpos := d.pos - 1, b1 := .one, slot := 1 }, none) := by
  simp [Sd.onBit, h, Sd.hunt, hp]

/-- Once synced, SD stays synced (R177). -/
theorem Sd.onBit_synced (d : Sd) (v : BitVal) (h : d.st = .synced) : (d.onBit v).1.st = .synced := by
  simp only [Sd.onBit, h]
  split_ifs <;> rfl

/-- Once synced, every bit moves the position and the slot by one, and the place of the sync stays (R177). -/
theorem Sd.onBit_synced_place (d : Sd) (v : BitVal) (h : d.st = .synced) :
    (d.onBit v).1.pos = d.pos + 1 ∧ (d.onBit v).1.syncpos = d.syncpos ∧ (d.onBit v).1.slot = d.slot + 1 := by
  simp only [Sd.onBit, h]
  split_ifs <;> exact ⟨rfl, rfl, rfl⟩

/-- A frame has four slots (`SD_FRAME`). -/
theorem Sd.slot_cases (d : Sd) : d.slot = 0 ∨ d.slot = 1 ∨ d.slot = 2 ∨ d.slot = 3 := by
  generalize d.slot = x
  revert x
  decide

/-- A bit in slot 0 is held (R177). -/
theorem Sd.onBit_slot0 (d : Sd) (v : BitVal) (h : d.st = .synced) (hs : d.slot = 0) :
    d.onBit v = ({ d with pos := d.pos + 1, b1 := v, slot := 1 }, none) := by
  simp only [Sd.onBit, h, hs]
  rfl

/-- A bit in slot 1 completes the live pair (R177). -/
theorem Sd.onBit_slot1 (d : Sd) (v : BitVal) (h : d.st = .synced) (hs : d.slot = 1) :
    d.onBit v = ({ d with pos := d.pos + 1, slot := 2 }, some (lookup d.b1 v)) := by
  simp only [Sd.onBit, h, hs]
  rfl

/-- A bit in slot 2 is filler (R177). -/
theorem Sd.onBit_slot2 (d : Sd) (v : BitVal) (h : d.st = .synced) (hs : d.slot = 2) :
    d.onBit v = ({ d with pos := d.pos + 1, slot := 3 }, none) := by
  simp only [Sd.onBit, h, hs]
  rfl

/-- A bit in slot 3 is filler and ends the frame (R177). -/
theorem Sd.onBit_slot3 (d : Sd) (v : BitVal) (h : d.st = .synced) (hs : d.slot = 3) :
    d.onBit v = ({ d with pos := d.pos + 1, slot := 0 }, none) := by
  simp only [Sd.onBit, h, hs]
  rfl

theorem sdStream_append (us vs : List BitVal) (d : Sd) :
    sdStream d (us ++ vs) = sdStream d us ++ sdStream (sdAfter d us) vs := by
  induction us generalizing d with
  | nil => rfl
  | cons u us ih => simp [sdStream, sdAfter, ih]

theorem sdAfter_append (us vs : List BitVal) (d : Sd) : sdAfter d (us ++ vs) = sdAfter (sdAfter d us) vs := by
  simp [sdAfter]

/-- Bits with no two consecutive 1-bits emit nothing and leave SD hunting. -/
theorem sdStream_hunting (bs : List BitVal) : ∀ (d : Sd), d.st = .hunt →
   (∀ k, ¬ ((if k = 0 then (if d.prev1 then some BitVal.one else none) else bs[k-1]?) = some .one ∧ bs[k]? = some .one)) →
   sdStream d bs = [] ∧ (sdAfter d bs).st = .hunt := by
  induction bs with
  | nil => intro d h _; exact ⟨rfl, h⟩
  | cons b bs ih =>
    intro d h hk
    have hb : ¬ (b = .one ∧ d.prev1 = true) := by
      have := hk 0; simp at this; rintro ⟨rfl, h2⟩; exact absurd (this h2) (by simp)
    have e : d.onBit b = ({ d with pos := d.pos + 1, prev1 := decide (b = .one) }, none) := by
      simp only [Sd.onBit, h, Sd.hunt, hb]; simp
    have := ih { d with pos := d.pos + 1, prev1 := decide (b = .one) } h (by
      intro k
      have := hk (k+1)
      rcases k with _ | k
      · simp at this ⊢; by_cases hb1 : b = .one
        · intro _; exact this hb1
        · intro h; exact absurd h hb1
      · simpa using this)
    simp only [sdStream, sdAfter, List.foldl_cons, e]
    exact ⟨by simpa using this.1, this.2⟩

/-- The symbols of a synced SD: one in each frame, on the bit that reaches slot 1 (R177, R184). -/
theorem sdStream_synced (bs : List BitVal) : ∀ (d : Sd), d.st = .synced →
   ∀ j, (sdStream d bs)[j]? =
     (bs[(5 - d.slot.val) % 4 + 4 * j]?).map fun b0 => lookup (if j = 0 ∧ d.slot = 1 then d.b1 else (bs[(5 - d.slot.val) % 4 + 4 * j - 1]?).getD .x) b0 := by
  induction bs with
  | nil => intro d h j; simp [sdStream]
  | cons b bs ih =>
    intro d h j
    rcases d.slot_cases with h0 | h0 | h0 | h0
    · have e : d.onBit b = ({ d with pos := d.pos + 1, b1 := b, slot := 1 }, none) := d.onBit_slot0 b h h0
      have := ih { d with pos := d.pos + 1, b1 := b, slot := 1 } h j
      simp only [sdStream, e, Option.toList_none, List.nil_append]
      rw [this, h0]
      rcases j with _ | j
      · simp
      · have e2 : 4 * (j + 1) = 4 * j + 3 + 1 := by ring
        have e3 : 1 + (4 * j + 3 + 1) = 4 * j + 3 + 1 + 1 := by ring
        simp [e2, e3, Config.sdFrame]
    · have e : d.onBit b = ({ d with pos := d.pos + 1, slot := 2 }, some (lookup d.b1 b)) := d.onBit_slot1 b h h0
      have := ih { d with pos := d.pos + 1, slot := 2 } h
      simp only [sdStream, e, Option.toList_some, List.cons_append, List.nil_append]
      rcases j with _ | j
      · simp [h0]
      · rw [List.getElem?_cons_succ, this, h0]
        have e2 : 4 * (j + 1) = 3 + 4 * j + 1 := by ring
        have e3 : 3 + 4 * j = 2 + 4 * j + 1 := by ring
        simp [e2, e3, Config.sdFrame]
    · have e : d.onBit b = ({ d with pos := d.pos + 1, slot := 3 }, none) := d.onBit_slot2 b h h0
      have := ih { d with pos := d.pos + 1, slot := 3 } h j
      simp only [sdStream, e, Option.toList_none, List.nil_append]
      rw [this, h0]
      have e3 : 3 + 4 * j = 2 + 4 * j + 1 := by ring
      have e4 : 2 + 4 * j = 1 + 4 * j + 1 := by ring
      simp [e3, e4, Config.sdFrame]
    · have e : d.onBit b = ({ d with pos := d.pos + 1, slot := 0 }, none) := d.onBit_slot3 b h h0
      have := ih { d with pos := d.pos + 1, slot := 0 } h j
      simp only [sdStream, e, Option.toList_none, List.nil_append]
      rw [this, h0]
      have e4 : 2 + 4 * j = 1 + 4 * j + 1 := by ring
      have e5 : 1 + 4 * j = 4 * j + 1 := by ring
      simp [e4, e5]

/-- While hunting, `prev1` is about the last bit (R177). -/
theorem sdAfter_prev1 (bs : List BitVal) (d : Sd) (h : (sdAfter d bs).st = .hunt) :
   (sdAfter d bs).prev1 = (match bs.getLast? with | some b => decide (b = .one) | none => d.prev1) := by
  induction bs using List.reverseRecOn with
  | nil => rfl
  | append_singleton bs b ih =>
    simp only [sdAfter, List.foldl_append, List.foldl_cons, List.foldl_nil, List.getLast?_append, List.getLast?_singleton] at *
    generalize hd : List.foldl (fun d b => (d.onBit b).1) d bs = e at *
    have he : e.st = .hunt := by
      by_contra hc
      have hs : e.st = .synced := by cases hh : e.st <;> simp_all
      rw [e.onBit_synced b hs] at h
      cases h
    by_cases hc : b = .one ∧ e.prev1 = true
    · simp only [Sd.onBit, he, Sd.hunt, hc] at h; simp at h
    · simp only [Sd.onBit, he, Sd.hunt, hc]; simp

/-- The registers of SD stay good under any bit. -/
theorem sdOk_onBit (d : Sd) (b : BitVal) (h : SdOk d) : SdOk (d.onBit b).1 := by
  rcases d with ⟨st, prev1, pos, syncpos, slot, b1⟩
  obtain ⟨hh, hs⟩ := h
  cases st with
  | hunt =>
    obtain ⟨a1, a2, a3, a4⟩ := hh rfl
    simp only at a1 a2 a3 a4
    by_cases hc : b = .one ∧ prev1 = true
    · have : 0 < pos := a4 hc.2
      simp only [Sd.onBit, Sd.hunt, hc, and_self, if_true]
      constructor
      · intro h; cases h
      · intro _; simp only; constructor
        · omega
        · have e : pos + 1 - (pos - 1) - 1 = 1 := by omega
          rw [e]; rfl
    · simp only [Sd.onBit, Sd.hunt]; rw [if_neg hc]
      constructor
      · intro _; exact ⟨a1, a2, a3, fun _ => Nat.succ_pos _⟩
      · intro h; cases h
  | synced =>
    obtain ⟨a1, a2⟩ := hs rfl
    obtain ⟨p1, p2, p3⟩ := Sd.onBit_synced_place ⟨.synced, prev1, pos, syncpos, slot, b1⟩ b rfl
    have p0 := Sd.onBit_synced ⟨.synced, prev1, pos, syncpos, slot, b1⟩ b rfl
    refine ⟨fun e => ?_, fun _ => ⟨?_, ?_⟩⟩
    · rw [p0] at e
      cases e
    · rw [p1, p2]
      simp only at a1 ⊢
      omega
    · rw [p1, p2, p3, Fin.val_add]
      simp only [Config.sdFrame, Fin.val_one] at a1 a2 ⊢
      omega

/-- And under any bits. -/
theorem sdOk_after (bs : List BitVal) (d : Sd) (h : SdOk d) : SdOk (sdAfter d bs) := by
  induction bs generalizing d with
  | nil => exact h
  | cons b bs ih => exact ih _ (sdOk_onBit d b h)

end Sys2Proof.Machine
end

