-- ==== Sys2Proof/Laws/Zcd.lean ====
section
/-! SUPPORT. ZCD: the five things a sample can do, and what good registers give. -/

namespace Sys2Proof.Machine

/-- A noise sample (R141). -/
theorem Zcd.onSample_noise (z : Zcd) {v : Int} (h : |v| < 10) : z.onSample v = ({ z with idx := z.idx + 1 }, none) := by
  have : significant v = false := by
    rw [Bool.eq_false_iff, ne_eq, significant_iff]
    omega
  simp [Zcd.onSample, this]

/-- A positive significant sample that completes no crossing (R142). -/
theorem Zcd.onSample_pos (z : Zcd) {v : Int} (h : 10 ≤ v) (hp : z.pol ≠ .neg) :
    z.onSample v = ({ z with idx := z.idx + 1, pol := .pos, lastPos := ⟨z.idx, v⟩ }, none) := by
  have hs : significant v = true := (significant_iff v).mpr (le_abs.mpr (.inl h))
  have hv : polarityOf v = .pos := polarityOf_pos (by omega)
  cases hz : z.pol
  · simp [Zcd.onSample, hs, Zcd.crossing, hz, hv, Zcd.noteCrossing, Zcd.noteSample]
  · simp [Zcd.onSample, hs, Zcd.crossing, hz, hv, Zcd.noteCrossing, Zcd.noteSample]
  · exact absurd hz hp

/-- A negative significant sample that completes no crossing (R142). -/
theorem Zcd.onSample_neg (z : Zcd) {v : Int} (h : v ≤ -10) (hp : z.pol ≠ .pos) :
    z.onSample v = ({ z with idx := z.idx + 1, pol := .neg, lastNeg := ⟨z.idx, v⟩ }, none) := by
  have hs : significant v = true := (significant_iff v).mpr (le_abs.mpr (.inr (by omega)))
  have hv : polarityOf v = .neg := polarityOf_neg (by omega)
  cases hz : z.pol
  · simp [Zcd.onSample, hs, Zcd.crossing, hz, hv, Zcd.noteCrossing, Zcd.noteSample]
  · exact absurd hz hp
  · simp [Zcd.onSample, hs, Zcd.crossing, hz, hv, Zcd.noteCrossing, Zcd.noteSample]

/-- The time of a crossing lies strictly between its two samples (R142, R144). -/
theorem crossingTime_between (b a : Mark) (h : b.i < a.i) (hs : (10 ≤ b.v ∧ a.v ≤ -10) ∨ (b.v ≤ -10 ∧ 10 ≤ a.v)) :
    (b.i : ℚ) < crossingTime b a ∧ crossingTime b a < a.i := by
  unfold crossingTime
  have hi : (b.i : ℚ) < a.i := by exact_mod_cast h
  split_ifs with h0
  · have : (1:ℚ) ≤ a.i := by exact_mod_cast (by omega : 1 ≤ a.i)
    rw [h0]; unfold Config.zcdFirstHalf; push_cast; constructor <;> linarith
  · have hf : 0 < (b.v:ℚ) / (b.v - a.v) ∧ (b.v:ℚ) / (b.v - a.v) < 1 := by
      rcases hs with ⟨h1, h2⟩ | ⟨h1, h2⟩
      · have h1' : (10:ℚ) ≤ b.v := by exact_mod_cast h1
        have h2' : (a.v:ℚ) ≤ -10 := by exact_mod_cast h2
        refine ⟨div_pos (by linarith) (by linarith), (div_lt_one (by linarith)).mpr (by linarith)⟩
      · have h1' : (b.v:ℚ) ≤ -10 := by exact_mod_cast h1
        have h2' : (10:ℚ) ≤ a.v := by exact_mod_cast h2
        refine ⟨div_pos_of_neg_of_neg (by linarith) (by linarith), (div_lt_one_of_neg (by linarith)).mpr (by linarith)⟩
    constructor <;> nlinarith [hf.1, hf.2]

theorem zcdOk_reset : ZcdOk Zcd.reset :=
  ⟨fun _ => ⟨rfl, rfl, rfl⟩, fun h => by simp [Zcd.reset] at h, fun h => by simp [Zcd.reset] at h⟩

/-- What a sample can do to good registers: they stay good; a crossing it completes has the new direction, is remembered,
and its delta is 0 for the first and the growth of the time for a later one; a sample that completes none leaves the
last crossing and, once there is one, the sign (R142, R144, R145). -/
theorem zcdOk_onSample (z : Zcd) (hz : ZcdOk z) (v : Int) :
    ZcdOk (z.onSample v).1 ∧
    (∀ x, (z.onSample v).2 = some x → (z.onSample v).1.haveX = true ∧ (z.onSample v).1.lastT = x.t ∧
      ((z.onSample v).1.pol = .pos ↔ x.dir = .rising) ∧ (z.onSample v).1.pol ≠ .none ∧
      (z.haveX = false → x.delta = 0) ∧
      (z.haveX = true → z.lastT < x.t ∧ x.delta = x.t - z.lastT ∧ (z.pol = .pos ↔ x.dir = .falling))) ∧
    ((z.onSample v).2 = none → (z.onSample v).1.haveX = z.haveX ∧ (z.onSample v).1.lastT = z.lastT ∧ (z.haveX = true → (z.onSample v).1.pol = z.pol)) := by
  obtain ⟨hn, hp, hg⟩ := hz
  by_cases hsig : significant v = true
  · rw [significant_iff, le_abs] at hsig
    have hsig' : significant v = true := by rw [significant_iff, le_abs]; exact hsig
    rcases hsig with h | h
    · have hpol : polarityOf v = .pos := polarityOf_pos (by omega)
      cases hz : z.pol with
      | none =>
        obtain ⟨a1, a2, a3⟩ := hn hz
        have : z.onSample v = ({ z with idx := z.idx + 1, pol := .pos, lastPos := ⟨z.idx, v⟩ }, none) := by
          simp [Zcd.onSample, hsig', Zcd.crossing, hz, hpol, Zcd.noteCrossing, Zcd.noteSample]
        rw [this]
        refine ⟨⟨by simp, fun _ => ⟨h, by simp [MarksOk, a1, a3]⟩, by simp⟩, by simp, by simp [a1]⟩
      | pos =>
        obtain ⟨a1, a2, a3⟩ := hp hz
        have : z.onSample v = ({ z with idx := z.idx + 1, pol := .pos, lastPos := ⟨z.idx, v⟩ }, none) := by
          simp [Zcd.onSample, hsig', Zcd.crossing, hz, hpol, Zcd.noteCrossing, Zcd.noteSample]
        rw [this]
        refine ⟨⟨by simp, fun _ => ⟨h, ?_⟩, by simp⟩, by simp, by simp⟩
        refine ⟨by simp, ?_⟩
        rcases a3 with a3 | ⟨b1, b2, b3⟩
        · exact .inl a3
        · refine .inr ⟨b1, b2, lt_trans b3 ?_⟩
          simp only; exact_mod_cast a2
      | neg =>
        obtain ⟨a1, a2, a3⟩ := hg hz
        obtain ⟨t1, t2⟩ := crossingTime_between z.lastNeg ⟨z.idx, v⟩ a2 (.inr ⟨a1, h⟩)
        have : z.onSample v = ({ z with
            idx := z.idx + 1
            pol := .pos
            lastPos := ⟨z.idx, v⟩
            haveX := true
            lastT := crossingTime z.lastNeg ⟨z.idx, v⟩ },
          some ⟨.rising, crossingTime z.lastNeg ⟨z.idx, v⟩,
            if z.haveX then crossingTime z.lastNeg ⟨z.idx, v⟩ - z.lastT else 0⟩) := by
          simp [Zcd.onSample, hsig', Zcd.crossing, hz, hpol, Zcd.noteCrossing, Zcd.noteSample]
        rw [this]
        refine ⟨⟨by simp, fun _ => ⟨h, ⟨by simp, .inr ⟨rfl, t1, t2⟩⟩⟩, by simp⟩, ?_, by simp⟩
        rintro x hx; obtain rfl := Option.some.inj hx
        refine ⟨rfl, rfl, by simp, by simp, by simp +contextual, fun hX => ?_⟩
        refine ⟨?_, by simp [hX], by simp⟩
        rcases a3 with ⟨b1, -⟩ | ⟨-, b2, b3⟩
        · rw [hX] at b1; cases b1
        · exact lt_trans b3 t1
    · have hpol : polarityOf v = .neg := polarityOf_neg (by omega)
      cases hz : z.pol with
      | none =>
        obtain ⟨a1, a2, a3⟩ := hn hz
        have : z.onSample v = ({ z with idx := z.idx + 1, pol := .neg, lastNeg := ⟨z.idx, v⟩ }, none) := by
          simp [Zcd.onSample, hsig', Zcd.crossing, hz, hpol, Zcd.noteCrossing, Zcd.noteSample]
        rw [this]
        refine ⟨⟨by simp, by simp, fun _ => ⟨by simp only; omega, by simp [MarksOk, a1, a2]⟩⟩, by simp, by simp [a1]⟩
      | neg =>
        obtain ⟨a1, a2, a3⟩ := hg hz
        have : z.onSample v = ({ z with idx := z.idx + 1, pol := .neg, lastNeg := ⟨z.idx, v⟩ }, none) := by
          simp [Zcd.onSample, hsig', Zcd.crossing, hz, hpol, Zcd.noteCrossing, Zcd.noteSample]
        rw [this]
        refine ⟨⟨by simp, by simp, fun _ => ⟨by simp only; omega, ?_⟩⟩, by simp, by simp⟩
        refine ⟨by simp, ?_⟩
        rcases a3 with a3 | ⟨b1, b2, b3⟩
        · exact .inl a3
        · refine .inr ⟨b1, b2, lt_trans b3 ?_⟩
          simp only; exact_mod_cast a2
      | pos =>
        obtain ⟨a1, a2, a3⟩ := hp hz
        obtain ⟨t1, t2⟩ := crossingTime_between z.lastPos ⟨z.idx, v⟩ a2 (.inl ⟨a1, by simp only; omega⟩)
        have : z.onSample v = ({ z with
            idx := z.idx + 1
            pol := .neg
            lastNeg := ⟨z.idx, v⟩
            haveX := true
            lastT := crossingTime z.lastPos ⟨z.idx, v⟩ },
          some ⟨.falling, crossingTime z.lastPos ⟨z.idx, v⟩,
            if z.haveX then crossingTime z.lastPos ⟨z.idx, v⟩ - z.lastT else 0⟩) := by
          simp [Zcd.onSample, hsig', Zcd.crossing, hz, hpol, Zcd.noteCrossing, Zcd.noteSample]
        rw [this]
        refine ⟨⟨by simp, by simp, fun _ => ⟨by simp only; omega, ⟨by simp, .inr ⟨rfl, t1, t2⟩⟩⟩⟩, ?_, by simp⟩
        rintro x hx; obtain rfl := Option.some.inj hx
        refine ⟨rfl, rfl, by simp, by simp, by simp +contextual, fun hX => ?_⟩
        refine ⟨?_, by simp [hX], by simp⟩
        rcases a3 with ⟨b1, -⟩ | ⟨-, b2, b3⟩
        · rw [hX] at b1; cases b1
        · exact lt_trans b3 t1
  · have : z.onSample v = ({ z with idx := z.idx + 1 }, none) := by simp [Zcd.onSample, hsig]
    rw [this]
    refine ⟨⟨hn, fun h => ⟨(hp h).1, ?_⟩, fun h => ⟨(hg h).1, ?_⟩⟩, by simp, by simp⟩
    · obtain ⟨-, a2, a3⟩ := hp h; exact ⟨Nat.lt_succ_of_lt a2, a3⟩
    · obtain ⟨-, a2, a3⟩ := hg h; exact ⟨Nat.lt_succ_of_lt a2, a3⟩

end Sys2Proof.Machine
end

