-- ==== Sys2Proof/Laws/Step.lean ====
section
/-! SUPPORT. What no rule of a unit changes, that settling drains the channels, and the cases of a step. -/

namespace Sys2Proof.Machine

/-! ### What every rule of a unit keeps -/

/-- Kept by every rule of a unit: the configuration, the count, the mode, `IN` and ILLOP; the output channels only grow. -/
structure Kept (s t : State) : Prop where
  cfg : t.cfg = s.cfg
  wc : t.pipe.wc = s.pipe.wc
  mode : t.pipe.mode = s.pipe.mode
  inp : t.ch.inp = s.ch.inp
  out : s.ch.out <+: t.ch.out
  tapX : s.ch.tapX <+: t.ch.tapX
  tapB : s.ch.tapB <+: t.ch.tapB
  diag : s.ch.diag <+: t.ch.diag
  illop : t.pipe.flags.illop = s.pipe.flags.illop

theorem Kept.refl (s : State) : Kept s s :=
  Kept.mk rfl rfl rfl rfl List.prefix_rfl List.prefix_rfl List.prefix_rfl List.prefix_rfl rfl

theorem Kept.trans {s t u : State} (h : Kept s t) (k : Kept t u) : Kept s u :=
  ⟨k.cfg.trans h.cfg, k.wc.trans h.wc, k.mode.trans h.mode, k.inp.trans h.inp, h.out.trans k.out, h.tapX.trans k.tapX,
    h.tapB.trans k.tapB, h.diag.trans k.diag, k.illop.trans h.illop⟩

theorem Kept.zcd (s : State) (i) : Kept s (zcdRule s i) := by
  cases i <;> simp only [zcdRule_tok, zcdRule_fin] <;> constructor <;> simp

theorem Kept.etd (s : State) (i) : Kept s (etdRule s i) := by
  cases i <;> simp only [etdRule_tok, etdRule_fin] <;> constructor <;> simp

theorem Kept.sd (s : State) (i) : Kept s (sdRule s i) := by
  cases i <;> simp only [sdRule_tok, sdRule_fin] <;> constructor <;> simp

theorem Kept.ps (s : State) (i) : Kept s (psRule s i) := by
  cases i <;> simp only [psRule_tok, psRule_fin] <;> constructor <;> simp

theorem Kept.cd (s : State) (i) : Kept s (cdRule s i) := by
  cases i with
  | fin => simp only [cdRule_fin]; constructor <;> simp
  | tok v =>
    rw [cdRule_tok]
    cases (s.cd.onSample s.cfg.sps v).fatal <;> simp only [raiseIf] <;> constructor <;> simp

theorem Kept.unit (u : UnitId) (s : State) : Kept s (stepUnit u s) := by
  cases u
  · simp only [stepUnit, stepZcd]; cases h : s.ch.zcdIn
    · exact Kept.refl s
    · dsimp only; refine Kept.trans ?_ (Kept.zcd _ _)
      exact Kept.mk rfl rfl rfl rfl List.prefix_rfl List.prefix_rfl List.prefix_rfl List.prefix_rfl rfl
  · simp only [stepUnit, stepEtd]; cases h : s.ch.etdIn
    · exact Kept.refl s
    · dsimp only; refine Kept.trans ?_ (Kept.etd _ _)
      exact Kept.mk rfl rfl rfl rfl List.prefix_rfl List.prefix_rfl List.prefix_rfl List.prefix_rfl rfl
  · simp only [stepUnit, stepSd]; cases h : s.ch.sdIn
    · exact Kept.refl s
    · dsimp only; refine Kept.trans ?_ (Kept.sd _ _)
      exact Kept.mk rfl rfl rfl rfl List.prefix_rfl List.prefix_rfl List.prefix_rfl List.prefix_rfl rfl
  · simp only [stepUnit, stepCd]; cases h : s.ch.cdIn
    · exact Kept.refl s
    · dsimp only; refine Kept.trans ?_ (Kept.cd _ _)
      exact Kept.mk rfl rfl rfl rfl List.prefix_rfl List.prefix_rfl List.prefix_rfl List.prefix_rfl rfl
  · simp only [stepUnit, stepPs]; cases h : s.ch.psIn
    · exact Kept.refl s
    · dsimp only; refine Kept.trans ?_ (Kept.ps _ _)
      exact Kept.mk rfl rfl rfl rfl List.prefix_rfl List.prefix_rfl List.prefix_rfl List.prefix_rfl rfl

theorem Kept.iter (u : UnitId) (n : Nat) (s : State) : Kept s ((stepUnit u)^[n] s) := by
  induction n generalizing s with
  | zero => exact Kept.refl s
  | succ n ih => rw [Function.iterate_succ_apply]; exact (Kept.unit u s).trans (ih _)

/-- Settling, from any state. -/
theorem Kept.settle (s : State) : Kept s s.settle :=
  ((((Kept.iter .zcd _ s).trans (Kept.iter .etd _ _)).trans (Kept.iter .sd _ _)).trans
    (Kept.iter .cd _ _)).trans (Kept.iter .ps _ _)

/-! ### Settling drains -/

/-- The channels of the units up to this one, in path order, are empty. -/
def drainedTo (u : UnitId) (c : Channels) : Prop :=
  match u with
  | .zcd => c.zcdIn = []
  | .etd => c.zcdIn = [] ∧ c.etdIn = []
  | .sd => c.zcdIn = [] ∧ c.etdIn = [] ∧ c.sdIn = []
  | .cd => c.zcdIn = [] ∧ c.etdIn = [] ∧ c.sdIn = [] ∧ c.cdIn = []
  | .ps => c.zcdIn = [] ∧ c.etdIn = [] ∧ c.sdIn = [] ∧ c.cdIn = [] ∧ c.psIn = []

/-- A fold keeps what its rule keeps. -/
theorem foldl_keep {α : Type} (rule : State → α → State) (P : State → Prop)
    (h : ∀ s i, P s → P (rule s i)) (xs : List α) (s : State) (hs : P s) :
    P (xs.foldl rule s) := by
  induction xs generalizing s with
  | nil => exact hs
  | cons x xs ih => exact ih _ (h s x hs)

theorem drainedTo_zcd (s : State) : drainedTo .zcd (exhaust .zcd s).ch := by
  rw [exhaust_zcd]
  exact foldl_keep _ (fun s => s.ch.zcdIn = [])
    (fun s i h => by cases i <;> simp [zcdRule_tok, zcdRule_fin, h]) _ _ rfl

theorem drainedTo_etd (s : State) (h : drainedTo .zcd s.ch) : drainedTo .etd (exhaust .etd s).ch := by
  rw [exhaust_etd]
  exact foldl_keep _ (fun s => s.ch.zcdIn = [] ∧ s.ch.etdIn = [])
    (fun s i h => by cases i <;> simp [etdRule_tok, etdRule_fin, h]) _ _ ⟨h, rfl⟩

theorem drainedTo_sd (s : State) (h : drainedTo .etd s.ch) : drainedTo .sd (exhaust .sd s).ch := by
  rw [exhaust_sd]
  exact foldl_keep _ (fun s => s.ch.zcdIn = [] ∧ s.ch.etdIn = [] ∧ s.ch.sdIn = [])
    (fun s i h => by cases i <;> simp [sdRule_tok, sdRule_fin, h]) _ _ ⟨h.1, h.2, rfl⟩

theorem drainedTo_cd (n : Nat) : ∀ s : State,
    s.ch.cdIn.length ≤ n → drainedTo .sd s.ch → drainedTo .cd ((stepUnit .cd)^[n] s).ch := by
  induction n with
  | zero => intro s h hf; exact ⟨hf.1, hf.2.1, hf.2.2, List.length_eq_zero_iff.mp (Nat.le_zero.mp h)⟩
  | succ n ih =>
    intro s h hf
    rw [Function.iterate_succ_apply]
    apply ih
    · simp only [stepUnit, stepCd]; cases hc : s.ch.cdIn with
      | nil => simp [hc]
      | cons i rest =>
        have hr : rest.length ≤ n := by rw [hc] at h; simpa using h
        cases i with
        | fin => simpa [cdRule_fin] using hr
        | tok v =>
          simp only [cdRule_tok]
          cases (Cd.onSample s.cfg.sps s.cd v).fatal <;> simp [raiseIf, hr, State.raiseFatal, Channels.clearInternal]
    · simp only [stepUnit, stepCd]; cases hc : s.ch.cdIn with
      | nil => exact hf
      | cons i rest =>
        cases i with
        | fin => simp only [cdRule_fin]; exact hf
        | tok v =>
          simp only [cdRule_tok]
          cases (Cd.onSample s.cfg.sps s.cd v).fatal
          · exact hf
          · exact ⟨rfl, rfl, rfl⟩

theorem drainedTo_exhaust_cd (s : State) (h : drainedTo .sd s.ch) : drainedTo .cd (exhaust .cd s).ch := by
  rw [exhaust]
  exact drainedTo_cd _ s (by simp only [Channels.waiting]; exact le_rfl) h

theorem drainedTo_ps (s : State) (h : drainedTo .cd s.ch) : drainedTo .ps (exhaust .ps s).ch := by
  rw [exhaust_ps]
  exact foldl_keep _ (fun s => drainedTo .ps s.ch)
    (fun s i h => by cases i <;> simpa [psRule_tok, psRule_fin, drainedTo] using h) _ _
    ⟨h.1, h.2.1, h.2.2.1, h.2.2.2, rfl⟩

/-- Settling leaves every internal channel empty, from any state (20_memory.md R76). -/
theorem settle_drains (s : State) : s.settle.ch.internalEmpty = true := by
  rw [internalEmpty_iff, State.settle]
  have h₁ := drainedTo_etd _ (drainedTo_zcd s)
  have h₂ := drainedTo_exhaust_cd _ (drainedTo_sd _ h₁)
  exact drainedTo_ps _ h₂

/-! ### The cases of a step -/

/-- What a step can be: the units drain, nothing waits in `IN`, or the oldest word is refused or executed
(40_pipeline_control.md R111). -/
theorem step_cases {s t : State} (he : step s = .next t) :
    (s.ch.internalEmpty = false ∧ t = s.settle) ∨
   (s.ch.internalEmpty = true ∧ s.ch.inp = [] ∧ t = s) ∨
   (s.ch.internalEmpty = true ∧ ∃ p rest, s.ch.inp = p :: rest ∧
      ((∃ e, decode p = .error e ∧ t = State.afterRefusal { s with ch := { s.ch with inp := rest } }) ∨
       (∃ i, decode p = .ok i ∧ exec i { s with ch := { s.ch with inp := rest } } = .next t))) := by
  unfold step State.blockStep at he
  cases hd : s.ch.internalEmpty
  · rw [hd] at he; left; exact ⟨rfl, (Host.Outcome.next.inj he).symm⟩
  · rw [hd] at he; right
    simp only [if_true, State.pipeStep] at he
    cases hi : s.ch.inp with
    | nil => rw [hi] at he; left; exact ⟨rfl, rfl, (Host.Outcome.next.inj he).symm⟩
    | cons p rest =>
      rw [hi] at he; right
      refine ⟨rfl, p, rest, rfl, ?_⟩
      simp only [runWord] at he
      cases hdec : decode p with
      | error e => rw [hdec] at he; left; exact ⟨e, rfl, (Host.Outcome.next.inj he).symm⟩
      | ok i => rw [hdec] at he; right; exact ⟨i, rfl, he⟩

theorem Kept.feedSample (s : State) (v : Int) : Kept s (s.feedSample v) := by
  unfold State.feedSample
  split <;> exact ⟨rfl, rfl, rfl, rfl, List.prefix_rfl, List.prefix_rfl, List.prefix_rfl, List.prefix_rfl, rfl⟩

theorem Kept.feedEnd (s : State) : Kept s s.feedEnd := by
  unfold State.feedEnd
  split <;> exact ⟨rfl, rfl, rfl, rfl, List.prefix_rfl, List.prefix_rfl, List.prefix_rfl, List.prefix_rfl, rfl⟩

theorem Kept.feedXing (c : Xing) (s : State) : Kept s (s.feedXing c) :=
  Kept.mk rfl rfl rfl rfl List.prefix_rfl List.prefix_rfl List.prefix_rfl List.prefix_rfl rfl

theorem Kept.feedBit (v : BitVal) (s : State) : Kept s (s.feedBit v) :=
  Kept.mk rfl rfl rfl rfl List.prefix_rfl List.prefix_rfl List.prefix_rfl List.prefix_rfl rfl

theorem Kept.feedSym (l : Letter) (s : State) : Kept s (s.feedSym l) :=
  Kept.mk rfl rfl rfl rfl List.prefix_rfl List.prefix_rfl List.prefix_rfl List.prefix_rfl rfl

/-! ### A word for the unit at the head of the path -/

theorem accepts_iff (s : State) (k : StreamKind) :
    s.accepts k = true ↔ s.pipe.st = .run ∧ streamKind s.pipe.mode = k := by
  simp [State.accepts]

/-- SAMPLE in mode ZCD_ONLY is ZCD's rule (R119). -/
theorem exec_sample_zcdOnly (v : Int) (s : State) (he : s.ch.internalEmpty = true) (h : s.pipe.st = .run)
    (hm : s.pipe.mode = .zcdOnly) : exec (.sample v) s = .next (zcdRule s.countWord (.tok v)) := by
  have he' : s.countWord.ch.internalEmpty = true := he
  have hs := settle_zcd s.countWord (.tok v) he' (by simp [hm])
  have ha : s.accepts .sample = true := (accepts_iff _ _).mpr ⟨h, by rw [hm]; rfl⟩
  simp only [exec, execSample, streamWord, ha, if_true, State.feedSample, State.countWord_mode, hm, headUnit]
  rw [hs]

/-- SAMPLE in mode CAT is CD's rule (R119). -/
theorem exec_sample_cat (v : Int) (s : State) (he : s.ch.internalEmpty = true) (h : s.pipe.st = .run)
    (hm : s.pipe.mode = .cat) : exec (.sample v) s = .next (cdRule s.countWord (.tok v)) := by
  have he' : s.countWord.ch.internalEmpty = true := he
  have hs := settle_cd s.countWord (.tok v) he'
  have ha : s.accepts .sample = true := (accepts_iff _ _).mpr ⟨h, by rw [hm]; rfl⟩
  simp only [exec, execSample, streamWord, ha, if_true, State.feedSample, State.countWord_mode, hm, headUnit]
  rw [hs]

/-- XING in mode ETD_ONLY is ETD's rule (R119). -/
theorem exec_xing_etdOnly (d : Dir) (t delta : ℚ) (s : State) (he : s.ch.internalEmpty = true) (h : s.pipe.st = .run)
    (hm : s.pipe.mode = .etdOnly) : exec (.xing d t delta) s = .next (etdRule s.countWord (.tok ⟨d, t, delta⟩)) := by
  have he' : s.countWord.ch.internalEmpty = true := he
  have hs := settle_etd s.countWord (.tok ⟨d, t, delta⟩) he' (by simp [hm])
  have ha : s.accepts .xing = true := (accepts_iff _ _).mpr ⟨h, by rw [hm]; rfl⟩
  simp only [exec, execXing, streamWord, ha, if_true, State.feedXing]
  rw [hs]

/-- BIT in mode SD_ONLY is SD's rule (R119). -/
theorem exec_bit_sdOnly (v : BitVal) (s : State) (he : s.ch.internalEmpty = true) (h : s.pipe.st = .run)
    (hm : s.pipe.mode = .sdOnly) : exec (.bit v) s = .next (sdRule s.countWord (.tok v)) := by
  have he' : s.countWord.ch.internalEmpty = true := he
  have hs := settle_sd s.countWord (.tok v) he'
  have ha : s.accepts .bit = true := (accepts_iff _ _).mpr ⟨h, by rw [hm]; rfl⟩
  simp only [exec, execBit, streamWord, ha, if_true, State.feedBit]
  rw [hs]

/-- SYM in mode SYNTH is PS's rule (R119). -/
theorem exec_sym_synth (l : Letter) (s : State) (he : s.ch.internalEmpty = true) (h : s.pipe.st = .run)
    (hm : s.pipe.mode = .synth) : exec (.sym (.letter l)) s = .next (psRule s.countWord (.tok l)) := by
  have he' : s.countWord.ch.internalEmpty = true := he
  have hs := settle_ps s.countWord (.tok l) he'
  have ha : s.accepts .sym = true := (accepts_iff _ _).mpr ⟨h, by rw [hm]; rfl⟩
  simp only [exec, execSym, streamWord, ha, if_true, State.feedSym]
  rw [hs]

/-- Runs one after the other. -/
theorem runs_append {is js : List Instr} {s t u : State} (h : Runs is s t) (k : Runs js t u) : Runs (is ++ js) s u := by
  induction is generalizing s with
  | nil =>
    obtain rfl := h
    exact k
  | cons i is ih =>
    obtain ⟨w, h1, h2⟩ := h
    exact ⟨w, h1, ih h2⟩

end Sys2Proof.Machine
end

