-- ==== Sys2Proof/Machine/Assembler.lean ====
section
/-! DEFINITION. The assembler syntax of 30_encoding.md R103 and the pseudo-instructions of R104. Notation beside the
machine: no step reads it. What R103 and R104 leave open of the text is the model's choice (DESIGN CHOICE, log 16). -/

namespace Sys2Proof.Machine

/-! ### Pseudo-instructions (R104) -/

/-- The registers of 10_state.md R40 that R103 and R104 name, by number. -/
def cfgNames : List (String × Nat) :=
  [("SPB_NUM", 0), ("SPB_DEN", 1), ("MU_NUM", 2), ("MU_DEN", 3), ("SPS_NUM", 4), ("SPS_DEN", 5), ("THR_CTL", 6),
   ("HIGH_NUM", 7), ("LOW_NUM", 8), ("THR_DEN", 9), ("PS_CARRIER", 10), ("PS_RATE", 11), ("PS_AMP", 12)]

/-- `CFGWR n, val`. -/
def writeCfg (n : BitVec 4) (val : BitVec 24) : Instr := .cfgwr n val

/-- The values CFGQ sets. -/
inductive CfgRatio where
  | spb
  | mu
  | sps
  deriving DecidableEq, Repr

/-- The register that holds the numerator; the denominator's follows it (10_state.md R40). -/
def CfgRatio.numerator : CfgRatio → BitVec 4
  | .spb => 0
  | .mu => 2
  | .sps => 4

/-- `CFGQ X, p/q` (R104). -/
def cfgq (x : CfgRatio) (p q : BitVec 24) : List Instr := [writeCfg x.numerator p, writeCfg (x.numerator + 1) q]

/-- `THRM h, l, d` (R104). -/
def thrm (h l d : BitVec 24) : List Instr := [writeCfg 7 h, writeCfg 8 l, writeCfg 9 d, writeCfg 6 1]

/-- `THRA` (R104). -/
def thra : List Instr := [writeCfg 6 0]

/-- `TONE c, r, amp` (R104). -/
def tone (c r amp : BitVec 24) : List Instr := [writeCfg 10 c, writeCfg 11 r, writeCfg 12 amp]

/-- `SAMPLES v0 v1 … vk` (R104). -/
def samples (vs : List Int) : List Instr := vs.map .sample

/-- `BITS s` (R104). -/
def bits (bs : List BitVal) : List Instr := bs.map .bit

/-- `SYMS s` (R104). -/
def syms (ls : List Letter) : List Instr := ls.map fun l => .sym (.letter l)

/-! ### Writing (R103) -/

def modeName : Mode → String
  | .edge => "EDGE"
  | .cat => "CAT"
  | .synth => "SYNTH"
  | .zcdOnly => "ZCD_ONLY"
  | .etdOnly => "ETD_ONLY"
  | .sdOnly => "SD_ONLY"

def dirName : Dir → String
  | .rising => "R"
  | .falling => "F"

def bitName : BitVal → String
  | .zero => "0"
  | .one => "1"
  | .x => "X"

def symName : Sym → String
  | .letter .a => "A"
  | .letter .b => "B"
  | .letter .c => "C"
  | .letter .d => "D"
  | .undec => "-"

/-- A rational as `p/q`, or as an integer. -/
def ratText (x : ℚ) : String := if x.den = 1 then toString x.num else toString x.num ++ "/" ++ toString x.den

/-- The name of a kind of DIAG token; the code where the kind is reserved (R99). -/
def diagKindText (kind : BitVec 4) : String :=
  match kind.toNat with
  | 1 => "UNC"
  | 2 => "BADGRP"
  | 3 => "ILLOP"
  | 4 => "CFGERR"
  | n => toString n

/-- A word or an output token as one line of text (R103). -/
def instrText : Instr → String
  | .nop => "NOP"
  | .reset => "RESET"
  | .cfgwr n val => "CFGWR " ++ toString n.toNat ++ ", " ++ toString val.toNat
  | .start m => "START " ++ modeName m
  | .endOfStream => "END"
  | .sample v => "SAMPLE " ++ toString v
  | .xing d t delta => "XING " ++ dirName d ++ ", " ++ ratText t ++ ", " ++ ratText delta
  | .bit b => "BIT " ++ bitName b
  | .sym s => "SYM " ++ symName s
  | .diag kind seq => "DIAG " ++ diagKindText kind ++ ", " ++ toString seq.toNat

/-! ### Reading (R103) -/

/-- The fields of a line: `;` starts a comment, spaces and commas separate. `acc` is the field being read,
backwards. -/
def fieldsFrom (acc : List Char) : List Char → List (List Char)
  | [] => if acc.isEmpty then [] else [acc.reverse]
  | c :: rest =>
    if c = ';' then (if acc.isEmpty then [] else [acc.reverse])
    else if c = ' ' ∨ c = ',' then (if acc.isEmpty then fieldsFrom [] rest else acc.reverse :: fieldsFrom [] rest)
    else fieldsFrom (c :: acc) rest

/-- The value of a digit in a base up to 16. -/
def digitValue (base : Nat) (c : Char) : Option Nat :=
  let d : Option Nat :=
    if '0' ≤ c ∧ c ≤ '9' then some (c.toNat - 48)
    else if 'a' ≤ c ∧ c ≤ 'f' then some (c.toNat - 87)
    else if 'A' ≤ c ∧ c ≤ 'F' then some (c.toNat - 55)
    else none
  d.filter fun n => decide (n < base)

/-- Digits, most significant first, behind the value read so far. -/
def digitsFrom (base acc : Nat) : List Char → Option Nat
  | [] => some acc
  | c :: rest =>
    match digitValue base c with
    | some d => digitsFrom base (base * acc + d) rest
    | none => none

/-- An unsigned number: decimal, or hexadecimal behind `0x`. -/
def parseNat : List Char → Option Nat
  | [] => none
  | '0' :: 'x' :: c :: rest => digitsFrom 16 0 (c :: rest)
  | c :: rest => digitsFrom 10 0 (c :: rest)

/-- A signed number. -/
def parseInt : List Char → Option Int
  | '-' :: rest => (parseNat rest).map fun (n : Nat) => -(n : Int)
  | cs => (parseNat cs).map fun (n : Nat) => (n : Int)

/-- The characters before and after the first `sep`. -/
def splitAt (sep : Char) : List Char → Option (List Char × List Char)
  | [] => none
  | c :: rest => if c = sep then some ([], rest) else (splitAt sep rest).map fun p => (c :: p.1, p.2)

/-- A rational that is not negative: `p/q`, a decimal with finitely many digits, or a number. -/
def parseMagnitude (cs : List Char) : Option ℚ :=
  match splitAt '/' cs with
  | some (p, q) =>
    match parseNat p, parseNat q with
    | some p, some q => if q = 0 then none else some ((p : ℚ) / (q : ℚ))
    | _, _ => none
  | none =>
    match splitAt '.' cs with
    | some (w, f) =>
      if f.isEmpty then none
      else
        match digitsFrom 10 0 w, digitsFrom 10 0 f with
        | some w, some n => some ((w : ℚ) + (n : ℚ) / (10 ^ f.length : Nat))
        | _, _ => none
    | none => (parseNat cs).map fun (n : Nat) => (n : ℚ)

/-- A signed rational. -/
def parseRat : List Char → Option ℚ
  | '-' :: rest => (parseMagnitude rest).map fun x => -x
  | cs => parseMagnitude cs

/-- A number that fits 24 bits. -/
def parseWord24 (cs : List Char) : Option (BitVec 24) :=
  (parseNat cs).bind fun n => if n < 2 ^ 24 then some (BitVec.ofNat 24 n) else none

/-- A configuration register by name or by number. -/
def parseRegister (cs : List Char) : Option (BitVec 4) :=
  match cfgNames.find? fun p => decide (p.1.toList = cs) with
  | some p => some (BitVec.ofNat 4 p.2)
  | none => (parseNat cs).bind fun n => if n < 16 then some (BitVec.ofNat 4 n) else none

def parseMode (cs : List Char) : Option Mode :=
  [Mode.edge, .cat, .synth, .zcdOnly, .etdOnly, .sdOnly].find? fun m => decide ((modeName m).toList = cs)

def parseDir (cs : List Char) : Option Dir := [Dir.rising, .falling].find? fun d => decide ((dirName d).toList = cs)

/-- A character of BITS or the operand of BIT. -/
def parseBitField (c : Char) : Option BitVal :=
  if c = '0' then some .zero else if c = '1' then some .one else if c = 'X' then some .x else none

/-- A character of SYMS or the operand of SYM. -/
def parseLetter (c : Char) : Option Letter :=
  if c = 'A' then some .a else if c = 'B' then some .b else if c = 'C' then some .c
  else if c = 'D' then some .d else none

def parseRatio (cs : List Char) : Option CfgRatio :=
  if cs = "SPB".toList then some .spb else if cs = "MU".toList then some .mu
  else if cs = "SPS".toList then some .sps else none

/-- A sample operand, which must fit 24 bits (R80). -/
def parseSample (cs : List Char) : Option Int := (parseInt cs).filter sampleInRange

/-- The words of the fields of a line: a mnemonic of R103 or a pseudo-instruction of R104 with its operands; `none` for
any other line. DESIGN CHOICE: R104 does not say whether the string of BITS or SYMS may be empty or whether SAMPLES may
have no value; the model takes each without an operand as a line of no words (log 16). -/
def assembleFields : List (List Char) → Option (List Instr)
  | [] => some []
  | m :: args =>
    if m = "NOP".toList ∧ args = [] then some [.nop]
    else if m = "RESET".toList ∧ args = [] then some [.reset]
    else if m = "END".toList ∧ args = [] then some [.endOfStream]
    else if m = "THRA".toList ∧ args = [] then some thra
    else if (m = "BITS".toList ∨ m = "SYMS".toList) ∧ args = [] then some []
    else if m = "SAMPLES".toList then (args.mapM parseSample).map samples
    else
      match args with
      | [x] =>
        if m = "START".toList then (parseMode x).map fun y => [.start y]
        else if m = "SAMPLE".toList then (parseSample x).map fun v => [.sample v]
        else if m = "BITS".toList then (x.mapM parseBitField).map bits
        else if m = "SYMS".toList then (x.mapM parseLetter).map syms
        else
          match x with
          | [c] =>
            if m = "BIT".toList then (parseBitField c).map fun b => [.bit b]
            else if m = "SYM".toList then (parseLetter c).map fun l => [.sym (.letter l)]
            else none
          | _ => none
      | [x, y] =>
        if m = "CFGWR".toList then
          match parseRegister x, parseWord24 y with
          | some n, some v => some [writeCfg n v]
          | _, _ => none
        else if m = "CFGQ".toList then
          match parseRatio x, splitAt '/' y with
          | some r, some (p, q) =>
            match parseWord24 p, parseWord24 q with
            | some p, some q => some (cfgq r p q)
            | _, _ => none
          | _, _ => none
        else none
      | [x, y, z] =>
        if m = "XING".toList then
          match parseDir x, parseRat y, parseRat z with
          | some d, some t, some delta => if 0 ≤ delta then some [.xing d t delta] else none
          | _, _, _ => none
        else if m = "THRM".toList then
          match parseWord24 x, parseWord24 y, parseWord24 z with
          | some h, some l, some d => some (thrm h l d)
          | _, _, _ => none
        else if m = "TONE".toList then
          match parseWord24 x, parseWord24 y, parseWord24 z with
          | some c, some r, some a => some (tone c r a)
          | _, _, _ => none
        else none
      | _ => none

/-- The words of one line (R103, R104). -/
def assembleLine (line : String) : Option (List Instr) := assembleFields (fieldsFrom [] line.toList)

end Sys2Proof.Machine
end

