-- ==== Sys2Proof/Tests/Slice0.lean ====
section
/-! SUPPORT. Tests: the refusals of WellFormed, words written out from 30_encoding.md, single steps with the values of
95_test_vectors.md, and for each statement with hypotheses a state and operands that meet them. -/

namespace Sys2Proof.Tests

open Sys2Proof Sys2Proof.Machine

/-! ### Well-formedness: for each check a term it refuses -/

theorem test_wf_sample_range :
    (Instr.sample 8388607).wellFormed = true ∧ (Instr.sample (-8388608)).wellFormed = true ∧
      (Instr.sample 8388608).wellFormed = false ∧ (Instr.sample (-8388609)).wellFormed = false := by decide

theorem test_wf_negative_delta :
    (Instr.xing .rising 0 0).wellFormed = true ∧ (Instr.xing .rising 0 (-1)).wellFormed = false := by decide +kernel

/-! ### Decoding: words written from the fields of R89 to R99, op, a and imm -/

/-- R95: op 0, everything else 0. -/
theorem test_decode_nop : decode ⟨0x00000000, 0, 0⟩ = .ok .nop := by decide +kernel

/-- R96: op 1. -/
theorem test_decode_reset : decode ⟨0x10000000, 0, 0⟩ = .ok .reset := by decide +kernel

/-- R97: op 2, a = register 12, imm = 2 ^ 23 - 1 (0x7FFFFF). -/
theorem test_decode_cfgwr : decode ⟨0x2C7FFFFF, 0, 0⟩ = .ok (.cfgwr 12 8388607) := by decide +kernel

/-- R98: op 3, imm = the mode; 6 is reserved. -/
theorem test_decode_start :
    decode ⟨0x30000000, 0, 0⟩ = .ok (.start .edge) ∧ decode ⟨0x30000005, 0, 0⟩ = .ok (.start .sdOnly) ∧
      decode ⟨0x30000006, 0, 0⟩ = .error .reservedCode ∧ decode ⟨0x30000008, 0, 0⟩ = .error .nonzeroField := by
  decide +kernel

/-- R94: op 4. -/
theorem test_decode_end : decode ⟨0x40000000, 0, 0⟩ = .ok .endOfStream := by decide +kernel

/-- R90: op 5, imm a signed 24-bit number: 0xFFFFE2 is -30, 0x800000 is -2 ^ 23. -/
theorem test_decode_sample :
    decode ⟨0x5000001E, 0, 0⟩ = .ok (.sample 30) ∧ decode ⟨0x50FFFFE2, 0, 0⟩ = .ok (.sample (-30)) ∧
      decode ⟨0x50800000, 0, 0⟩ = .ok (.sample (-8388608)) ∧ decode ⟨0x51000000, 0, 0⟩ = .error .nonzeroField := by
  decide +kernel

/-- R91: op 6, bit 0 the direction, the sidebands beside it; a negative DELTA is refused (log 5). -/
theorem test_decode_xing :
    decode ⟨0x60000001, 22 / 5, 0⟩ = .ok (.xing .falling (22 / 5) 0) ∧
      decode ⟨0x60000000, 37 / 5, 3⟩ = .ok (.xing .rising (37 / 5) 3) ∧
      decode ⟨0x60000000, 0, -1⟩ = .error .negativeDelta := by decide +kernel

/-- R92: op 7, 0, 1 or X; 3 is reserved. -/
theorem test_decode_bit :
    decode ⟨0x70000000, 0, 0⟩ = .ok (.bit .zero) ∧ decode ⟨0x70000001, 0, 0⟩ = .ok (.bit .one) ∧
      decode ⟨0x70000002, 0, 0⟩ = .ok (.bit .x) ∧ decode ⟨0x70000003, 0, 0⟩ = .error .reservedCode := by decide +kernel

/-- R93: op 8, A to D and 4 for UNDEC; 5 is reserved. -/
theorem test_decode_sym :
    decode ⟨0x80000000, 0, 0⟩ = .ok (.sym (.letter .a)) ∧ decode ⟨0x80000003, 0, 0⟩ = .ok (.sym (.letter .d)) ∧
      decode ⟨0x80000004, 0, 0⟩ = .ok (.sym .undec) ∧ decode ⟨0x80000005, 0, 0⟩ = .error .reservedCode := by
  decide +kernel

/-- R99: op 9, a = the kind, imm = the sequence number: `DIAG ILLOP, 31` is 0x9300001F (program P2). -/
theorem test_decode_diag : decode ⟨0x9300001F, 0, 0⟩ = .ok (.diag 3 31) := by decide +kernel

/-- R101: the opcodes 0xA to 0xF are reserved, and NOP, RESET and END take no operand. -/
theorem test_decode_reserved :
    decode ⟨0xA0000000, 0, 0⟩ = .error .reservedOpcode ∧ decode ⟨0xF0000000, 0, 0⟩ = .error .reservedOpcode ∧
      decode ⟨0x00000001, 0, 0⟩ = .error .nonzeroField ∧ decode ⟨0x11000000, 0, 0⟩ = .error .nonzeroField ∧
      decode ⟨0x40000001, 0, 0⟩ = .error .nonzeroField := by decide +kernel

/-- The host's question on a row of the table. -/
theorem test_table_word : decodeTableWord 32 0x2400000C = some (.cfgwr 4 12) := by decide +kernel

/-! ### Small states -/

/-- A state in RUN in the given mode, with the given configuration. -/
def running (m : Mode) (c : Cfg) : State :=
  { State.reset with
    pipe := { Pipe.reset with st := .run, mode := m }
    cfg := c }

/-- `SPB = 3/2`, `MU = 1/3`. -/
def cfgEdge : Cfg := { Cfg.reset with spbNum := 3, spbDen := 2 }

/-- `SPS = 12`, `THRM 70, 50, 1`. -/
def cfgCat : Cfg :=
  { Cfg.reset with spsNum := 12, spsDen := 1, thrCtl := 1, highNum := 70, lowNum := 50, thrDen := 1 }

/-- `TONE 1, 12, 100`. -/
def cfgTone : Cfg := { Cfg.reset with psCarrier := 1, psRate := 12, psAmp := 100 }

/-- A word waits in `IN`. -/
def withWord (w : Word) (s : State) : State := { s with ch := { s.ch with inp := [⟨w, 0, 0⟩] } }

/-- CD in DECODE with the thresholds 70 and 50 and the given queue. -/
def decoding (q : List Int) : State :=
  { running .cat cfgCat with cd := { Cd.reset with ph := .decode, high := 70, low := 50, q := q } }

/-- CD in CLIMB. -/
def climbing (c : Cfg) (q : List Int) (prev : Int) : State :=
  { running .cat c with cd := { Cd.reset with ph := .climb, q := q, prev := prev } }

/-- A field of the next state. -/
def look {α : Type} (f : State → α) : Host.Outcome State Fault Refusal → Option α
  | .next t => some (f t)
  | _ => none

/-- The period A of 95_test_vectors.md. -/
def periodA : List Int := [0, 50, 87, 100, 87, 50, 0, -50, -87, -100, -87, -50]

/-! ### Single steps -/

/-- R112. -/
theorem test_nop_step :
    look (fun t => (t.pipe.wc, t.statusWord)) (step (withWord 0x00000000 State.reset)) = some (1, 0) := by
  decide +kernel

/-- R113: RESET in a running pass with a full queue: the state after power-on. -/
theorem test_reset_step : look id (step (withWord 0x10000000 (decoding [1, 2]))) = some State.reset := by decide +kernel

/-- Word 4 of program P2: `CFGWR SPS_NUM, 12`. -/
theorem test_cfgwr_step :
    look (fun t => (t.cfg.read 4, t.cfg.read 5)) (step (withWord 0x2400000C State.reset)) = some (12, 1) := by
  decide +kernel

/-- R40, R114: register 13 is reserved. -/
theorem test_cfgwr_reserved :
    look (fun t => (t.cfg, t.ch.diag)) (step (withWord 0x2D000000 State.reset)) = some (Cfg.reset, [⟨.illop, 0⟩]) := by
  decide +kernel

/-- Word 6 of program P2: `STATUS = 0x00000005`, CD in DECODE with H = 70, L = 50. -/
theorem test_start_cat :
    look (fun t => (t.statusWord, t.cd.ph, t.cd.high, t.cd.low)) (step (withWord 0x30000001 ⟨Pipe.reset, cfgCat,
      Zcd.reset, Etd.reset, Sd.reset, Cd.reset, Ps.reset, Channels.empty⟩)) = some (5, .decode, 70, 50) := by
  decide +kernel

/-- R117, R292: START EDGE after reset is a configuration error: the flag CFGERR is bit 11. -/
theorem test_start_cfgerr :
    look (fun t => (t.statusWord, t.ch.diag)) (step (withWord 0x30000000 State.reset))
      = some (0x800, [⟨.cfgerr, 0⟩]) := by decide +kernel

/-- Program P3, word 7: END in SYNTH, `STATUS = 0x0000000A`. -/
theorem test_end_step :
    look (fun t => (t.statusWord, t.ch.out)) (step (withWord 0x40000000 (running .synth cfgTone)))
      = some (0xA, [.fin]) := by decide +kernel

/-- Vector V1, the sample -30: `XING F, 22/5, 0`. -/
theorem test_sample_crossing :
    look (fun t => t.ch.out) (step (withWord 0x50FFFFE2 { running .zcdOnly Cfg.reset with
      zcd := ⟨5, .pos, ⟨4, 20⟩, ⟨0, 0⟩, false, 0⟩ })) = some [.xing ⟨.falling, 22 / 5, 0⟩] := by decide +kernel

/-- Vector V24b: ZERO_SLOPE at slot 2, nothing on `OUT`. -/
theorem test_sample_fatal :
    look (fun t => (t.pipe.st, t.pipe.cause, t.pipe.info, t.ch.out)) (step (withWord 0x50FFFFCE
      (decoding [0, 50, 87, 100, 87, 50, 0, 0, -87, -100, -87]))) = some (.faulted, .zeroSlope, ⟨0, 2, 0, 0⟩, []) := by
  decide +kernel

/-- Vector V10, the second crossing: two bits 0. -/
theorem test_xing_bits :
    look (fun t => (t.ch.out, t.ch.diag)) (exec (.xing .rising (37 / 5) 3) (running .etdOnly cfgEdge))
      = some ([.bit .zero, .bit .zero], []) := by decide +kernel

/-- Vector V13b with `MU = 1/7`: one bit and `DIAG UNC, 0`. -/
theorem test_xing_uncertain :
    look (fun t => (t.ch.out, t.ch.diag)) (exec (.xing .rising 2 (3 / 2)) (running .etdOnly
      { Cfg.reset with spbNum := 3, spbDen := 1, muNum := 1, muDen := 7 })) = some ([.bit .zero], [⟨.unc, 0⟩]) := by
  decide +kernel

/-- Vector V17b, the bit X: `SYM -` and `DIAG BADGRP, 2`. -/
theorem test_bit_malformed :
    look (fun t => (t.ch.out, t.ch.diag)) (step (withWord 0x70000002 { running .sdOnly Cfg.reset with
      sd := ⟨.synced, true, 2, 0, 1, .one⟩ })) = some ([.sym .undec], [⟨.badgrp, 2⟩]) := by decide +kernel

/-- Program P4, word 2: the second 1-bit syncs. -/
theorem test_bit_sync :
    look (fun t => t.sd) (step (withWord 0x70000001 { running .sdOnly Cfg.reset with
      sd := ⟨.hunt, true, 1, 0, 0, .zero⟩ })) = some ⟨.synced, true, 2, 0, 1, .one⟩ := by decide +kernel

/-- Vector V42, the cycle (A, B) at 12 samples and amplitude 100. -/
theorem test_sym_cycle :
    look (fun t => t.ch.out) (step (withWord 0x80000001 { running .synth cfgTone with ps := ⟨true, .a⟩ }))
      = some ([0, 50, 87, 100, 87, 50, 0, -50, -78, -50, 20, 87].map .sample) := by decide +kernel

/-- Vector V36: the tie `-101/2` rounds to -50. -/
theorem test_sym_tie :
    look (fun t => t.ch.out) (step (withWord 0x80000001 { running .synth
      { Cfg.reset with psCarrier := 1, psRate := 4, psAmp := 101 } with ps := ⟨true, .a⟩ }))
      = some ([0, 101, 0, -50].map .sample) := by decide +kernel

/-- R99, R122: DIAG on `IN` is refused; program P2 shows the DIAG token of word 31. -/
theorem test_diag_refused :
    look (fun t => (t.statusWord, t.ch.diag)) (step (withWord 0x93000001 { running .cat cfgCat with
      pipe := ⟨.faulted, .cat, 31, .noMatch, ⟨1, 3, 0, 0⟩, Flags.reset⟩ })) = some (0x467, [⟨.illop, 31⟩]) := by
  decide +kernel

/-! ### The hypotheses of the statements are met: one witness for each, at boundary values -/

theorem test_meets_DecodeOfEncode :
    (Instr.sample (-8388608)).wellFormed = true ∧ (Instr.xing .falling (1 / 3) 0).wellFormed = true ∧
      (Instr.cfgwr 15 (BitVec.allOnes 24)).wellFormed = true := by decide +kernel

theorem test_meets_EncodeOfDecode :
    decode ⟨0x60000001, 19, 0⟩ = .ok (.xing .falling 19 0) ∧ decode ⟨0x50800000, 0, 0⟩ = .ok (.sample (-8388608)) := by
  decide +kernel

/-- A decoded word, a word no row covers, and a word one row covers. -/
theorem test_meets_DecodeFollowsMaskRows :
    decode ⟨0x30000005, 0, 0⟩ = .ok (.start .sdOnly) ∧
      (∀ r ∈ maskRows, r.covers (PortWord.word ⟨0xA0000000, 0, 0⟩) = false) ∧
      (∃ r ∈ maskRows, r.covers 0x30000007 = true) := by decide +kernel

theorem test_meets_StepRunsDecodedWord :
    let s := withWord 0x00000000 State.reset
    s.ch.internalEmpty = true ∧ s.ch.inp = ⟨0, 0, 0⟩ :: [] ∧ decode ⟨0, 0, 0⟩ = .ok .nop := by decide +kernel

theorem test_meets_StepRefusesIllegalForm :
    let s := withWord 0xA0000000 State.reset
    s.ch.internalEmpty = true ∧ s.ch.inp = ⟨0xA0000000, 0, 0⟩ :: [] ∧
      decode ⟨0xA0000000, 0, 0⟩ = .error .reservedOpcode := by decide +kernel

/-- Each way a word that decodes is illegal. -/
theorem test_meets_IllegalWordIsRefused :
    illegalNow (running .edge cfgEdge) (.cfgwr 0 0) ∧ illegalNow State.reset (.cfgwr 13 0) ∧
    illegalNow State.reset (.cfgwr 6 2) ∧ illegalNow State.reset (.cfgwr 12 8388608) ∧
    illegalNow (running .edge cfgEdge) (.start .edge) ∧ illegalNow State.reset .endOfStream ∧
    illegalNow State.reset (.sample 0) ∧ illegalNow (running .sdOnly Cfg.reset) (.sample 0) ∧
    illegalNow (running .edge cfgEdge) (.xing .rising 0 0) ∧ illegalNow (running .edge cfgEdge) (.bit .x) ∧
    illegalNow (running .cat cfgCat) (.sym (.letter .a)) ∧ illegalNow (running .synth cfgTone) (.sym .undec) ∧
    illegalNow State.reset (.diag 0 0) := by
  simp [illegalNow, streamLegal, running, State.reset, Pipe.reset]

theorem test_meets_StepWithoutWord : State.reset.ch.internalEmpty = true ∧ State.reset.ch.inp = [] := by decide

/-- A step that drains: tokens wait in internal channels. -/
theorem test_meets_StepLeavesChannelsDrained :
    look (fun t => t.ch.out) (step { running .sdOnly Cfg.reset with ch := { Channels.empty with sdIn := [.fin] } })
      = some [.fin] := by decide +kernel

theorem test_meets_EdgeUnitStepsCommute :
    let s : State := { running .edge cfgEdge with
      ch := { Channels.empty with zcdIn := [.tok 5], etdIn := [.tok ⟨.rising, 0, 1⟩], sdIn := [.tok .x] } }
    s.pipe.mode = .edge ∧ (∀ u ∈ modePath .edge, 0 < s.ch.waiting u) ∧ modePath .edge = [.zcd, .etd, .sd] := by
  decide +kernel

/-- Outside RUN, at the largest register number and the largest values it takes; and each way to be refused. -/
theorem test_meets_CfgwrWritesOneRegister :
    State.reset.pipe.st ≠ .run ∧
    ((12 : BitVec 4).toNat ≤ 12 ∧ (8388607 : BitVec 24).toNat ≤ 2 ^ 23 - 1) ∧
    ((6 : BitVec 4).toNat = 6 ∧ (1 : BitVec 24).toNat ≤ 1) ∧
    (running .edge cfgEdge).pipe.st = .run ∧ 13 ≤ (13 : BitVec 4).toNat ∧ 1 < (2 : BitVec 24).toNat ∧
    2 ^ 23 - 1 < (8388608 : BitVec 24).toNat := by decide

theorem test_meets_ReservedRegistersReadZero : 13 ≤ (13 : BitVec 4).toNat ∧ 13 ≤ (15 : BitVec 4).toNat := by decide

/-- The CAT inequality at its boundary: no for `N` = 3 and 4, yes for 7/2 and 5. -/
theorem test_period_boundary :
    periodLegal 3 = false ∧ periodLegal 4 = false ∧ periodLegal (7 / 2) = true ∧ periodLegal 5 = true := by
  decide +kernel

theorem test_meets_StartBeginsPass :
    (running .edge cfgEdge).pipe.st = .run ∧
    (State.reset.pipe.st ≠ .run ∧ State.reset.cfg.legal .edge = false) ∧
    ({ State.reset with cfg := cfgCat }.pipe.st ≠ .run ∧ { State.reset with cfg := cfgCat }.cfg.legal .cat = true) := by
  decide +kernel

theorem test_meets_EndClosesThePass :
    State.reset.pipe.st ≠ .run ∧ (decoding periodA).pipe.st = .run ∧ (decoding periodA).ch.internalEmpty = true := by
  decide

theorem test_meets_NoiseSampleTakesAnIndex :
    let s := running .edge cfgEdge
    let t := running .zcdOnly Cfg.reset
    s.ch.internalEmpty = true ∧ s.pipe.st = .run ∧ s.pipe.mode = .edge ∧ t.pipe.mode = .zcdOnly ∧
      |(9 : Int)| < 10 ∧ |(-9 : Int)| < 10 := by decide

theorem test_meets_SameSignSampleIsRemembered :
    let s := running .zcdOnly Cfg.reset
    s.ch.internalEmpty = true ∧ s.pipe.st = .run ∧ s.pipe.mode = .zcdOnly ∧
      s.zcd.pol ≠ .neg ∧ s.zcd.pol ≠ .pos ∧ (10 : Int) ≤ 10 ∧ (-10 : Int) ≤ -10 := by decide

theorem test_meets_TransitionGivesCrossing :
    (⟨5, .pos, ⟨4, 20⟩, ⟨0, 0⟩, false, 0⟩ : Zcd).pol = .pos ∧ (-10 : Int) ≤ -10 ∧
      (⟨8, .neg, ⟨4, 20⟩, ⟨7, -20⟩, true, 22 / 5⟩ : Zcd).pol = .neg ∧ (10 : Int) ≤ 10 := by decide

theorem test_meets_SampleInZcdOnly :
    let s := running .zcdOnly Cfg.reset
    s.ch.internalEmpty = true ∧ s.pipe.st = .run ∧ s.pipe.mode = .zcdOnly := by decide

/-- The crossing `R, 37/5, 3` of program P1. -/
theorem test_meets_SampleCrossingInEdge :
    let s : State := { running .edge cfgEdge with zcd := ⟨8, .neg, ⟨4, 20⟩, ⟨7, -20⟩, true, 22 / 5⟩ }
    s.ch.internalEmpty = true ∧ s.pipe.st = .run ∧ s.pipe.mode = .edge ∧ s.sd.b1 ≠ .x ∧
      (s.zcd.onSample 30).2 = some ⟨.rising, 37 / 5, 3⟩ := by decide +kernel

/-- Vector V5 has two crossings. -/
theorem test_meets_CrossingsAlternateAndIncrease :
    zcdStream Zcd.reset [9, -9, 10, -10, 10] = [⟨.falling, 5 / 2, 0⟩, ⟨.rising, 7 / 2, 1⟩] := by decide +kernel

/-- At `delta = 0`, and at the tie `delta = 3/4`, half a bit. -/
theorem test_meets_XingInEtdOnly :
    let s := running .etdOnly cfgEdge
    s.ch.internalEmpty = true ∧ s.pipe.st = .run ∧ s.pipe.mode = .etdOnly ∧ 0 < s.cfg.spb ∧ (0 : ℚ) ≤ 0 ∧
      ((0 : Nat) : Int) = ⌊(0 : ℚ) / s.cfg.spb + 1 / 2⌋ ∧ (0 : ℚ) = (((0 : Nat) : ℚ) - 0 / s.cfg.spb) / s.cfg.spb ∧
      ((1 : Nat) : Int) = ⌊(3 / 4 : ℚ) / s.cfg.spb + 1 / 2⌋ ∧
      (1 / 3 : ℚ) = (((1 : Nat) : ℚ) - 3 / 4 / s.cfg.spb) / s.cfg.spb := by decide +kernel

/-- Vector V14. -/
theorem test_meets_ExactIntervalGivesExactRun :
    (0 : ℚ) < 7 / 2 ∧ (⟨.falling, 20, 35 / 2⟩ : Xing).delta = ((5 : Nat) : ℚ) * (7 / 2) := by decide +kernel

theorem test_meets_UncertaintyIsBounded : (0 : ℚ) < 2 ∧ (0 : ℚ) ≤ 0 ∧ (3 / 2 : ℚ) < 2 := by decide +kernel

theorem test_meets_BitWhileHunting :
    let s : State := { running .sdOnly Cfg.reset with sd := ⟨.hunt, true, 1, 0, 0, .zero⟩ }
    s.ch.internalEmpty = true ∧ s.pipe.st = .run ∧ s.pipe.mode = .sdOnly ∧ s.sd.st = .hunt := by decide

theorem test_meets_BitOnceSynced :
    ∀ slot : Fin 4,
      let s : State := { running .sdOnly Cfg.reset with sd := ⟨.synced, true, 2, 0, slot, .one⟩ }
      s.ch.internalEmpty = true ∧ s.pipe.st = .run ∧ s.pipe.mode = .sdOnly ∧ s.sd.st = .synced ∧ s.sd.slot = slot := by
  decide

/-- The start of vector V16: the first two consecutive 1-bits are bits 3 and 4. -/
theorem test_meets_OneSymbolPerFourBits :
    let bs : List BitVal := [.zero, .one, .zero, .one, .one, .zero]
    bs[3]? = some .one ∧ bs[3 + 1]? = some .one ∧
      ∀ k, k < 3 → ¬ (bs[k]? = some .one ∧ bs[k + 1]? = some .one) := by decide

theorem test_meets_CatStoresDuringPeakScan :
    let s := running .cat { cfgCat with thrCtl := 0 }
    let t := climbing { cfgCat with thrCtl := 0 } [60] 60
    (s.ch.internalEmpty = true ∧ s.pipe.st = .run ∧ s.pipe.mode = .cat ∧ s.cd.ph = .seek ∧ (50 : Int) ≤ 50 ∧
      (50 : Int) < 51) ∧
    (t.ch.internalEmpty = true ∧ t.pipe.st = .run ∧ t.pipe.mode = .cat ∧ t.cd.ph = .climb ∧ t.cd.prev ≤ 60) := by
  decide

/-- In DECODE the twelfth sample of the period A; and the end of a climb at which no period is whole yet. -/
theorem test_meets_CatDecodesWholePeriods :
    let s := decoding (periodA.take 11)
    let t := climbing { cfgCat with thrCtl := 0 } [60] 60
    (s.ch.internalEmpty = true ∧ s.pipe.st = .run ∧ s.pipe.mode = .cat ∧ s.cfg.legal .cat = true ∧ s.cd.ph = .decode ∧
      Periods s.cfg.sps [.a] { s.cd with q := s.cd.q ++ [-50] } { s.cd with q := [], period := 1 }) ∧
    (t.cfg.legal .cat = true ∧ t.cd.ph = .climb ∧ (59 : Int) < t.cd.prev ∧
      Periods t.cfg.sps [] { Cd.reset with ph := .decode, q := [60, 59], prev := 60, peak := 60, high := 42, low := 30 }
        { Cd.reset with ph := .decode, q := [60, 59], prev := 60, peak := 60, high := 42, low := 30 }) :=
  ⟨⟨by decide, by decide, by decide, by decide +kernel, by decide, by decide +kernel, by decide +kernel,
    by decide +kernel, by decide +kernel⟩, by decide +kernel, by decide, by decide, rfl, by decide +kernel⟩

/-- In DECODE the period A, then a failing one (a queue longer than one period); and a climb that ends with a whole failing
period, `SPS = 5`. -/
theorem test_meets_CatTrapEntry :
    let s := decoding (periodA ++ List.replicate 11 100)
    let t := climbing { cfgCat with thrCtl := 0, spsNum := 5 } [0, 0, 0, 60] 60
    (s.ch.internalEmpty = true ∧ s.pipe.st = .run ∧ s.pipe.mode = .cat ∧ s.cfg.legal .cat = true ∧ s.cd.ph = .decode ∧
      PeriodsThenFatal s.cfg.sps [.a] { s.cd with q := s.cd.q ++ [100] } { s.cd with q := [], period := 1 }
        ⟨.noMatch, ⟨1, 3, 0, 0⟩⟩) ∧
    (t.cfg.legal .cat = true ∧ t.cd.ph = .climb ∧ (40 : Int) < t.cd.prev ∧
      PeriodsThenFatal t.cfg.sps []
        { Cd.reset with ph := .decode, q := [0, 0, 0, 60, 40], prev := 60, peak := 60, high := 42, low := 30 }
        { Cd.reset with ph := .decode, q := [], prev := 60, peak := 60, high := 42, low := 30 }
        ⟨.zeroSlope, ⟨0, 0, 0, 0⟩⟩) :=
  ⟨⟨by decide, by decide, by decide, by decide +kernel, by decide, by decide +kernel, by decide +kernel,
    by decide +kernel, by decide +kernel, by decide +kernel⟩, by decide +kernel, by decide, by decide,
    by decide +kernel, by decide +kernel, by decide +kernel⟩

/-- Vectors V24, V25b, V24b, V21 and V26: a failure at each slot, a match and no match. -/
theorem test_meets_PeriodFailureOrder :
    let x (buf : List Int) (j : Nat) : Synthetic := getSample buf (j * (12 : ℚ) / 4)
    let v24 : List Int := [0, 0, 50, 87, 100, 87, 50, 0, -50, -87, -100, -87]
    let v25b : List Int := [0, 50, 55, 60, 61, 50, 0, -50, -87, -100, -87, -50]
    let v24b : List Int := [0, 50, 87, 100, 87, 50, 0, 0, -87, -100, -87, -50]
    categorize 70 50 12 (x v24 0) = .error .zeroSlope ∧
    (categorize 70 50 12 (x v25b 0) = .ok .zeroRising ∧ categorize 70 50 12 (x v25b 1) = .error .ambiguous) ∧
    (categorize 70 50 12 (x v24b 0) = .ok .zeroRising ∧ categorize 70 50 12 (x v24b 1) = .ok .high ∧
      categorize 70 50 12 (x v24b 2) = .error .zeroSlope) ∧
    (categorize 70 50 12 (x periodA 2) = .ok .zeroDropping ∧
      matchWindow .zeroRising .high .zeroDropping = some .a ∧ matchWindow .high .high .high = none) := by
  decide +kernel

/-- The boundaries of R205 at `H = 70`, `L = 50`, `N = 12`, where the mid-band slope limit is 35/24. -/
theorem test_meets_CategorizeTests :
    let h : ℚ := 70
    let l : ℚ := 50
    h < 71 ∧ -71 < -h ∧ ((70 : ℚ) ≤ h ∧ -h ≤ 70 ∧ l ≤ |(70 : ℚ)|) ∧ |(49 : ℚ)| < l ∧ h / (4 * 12) < |(3 / 2 : ℚ)| ∧
      |(35 / 24 : ℚ)| ≤ h / (4 * 12) := by decide +kernel

theorem test_meets_FourWindowsMatch :
    (Category.high, Category.high, Category.high) ∉ [(Category.zeroRising, Category.high, Category.zeroDropping),
      (.high, .zeroDropping, .low), (.zeroDropping, .low, .zeroRising), (.low, .zeroRising, .high)] := by decide

/-- At an integer offset and between two samples. -/
theorem test_meets_SyntheticSampleInterpolates :
    (0 : ℚ) ≤ 0 ∧ (3 : ℚ) = ((3 : Nat) : ℚ) + 0 ∧ (25 / 8 : ℚ) = ((3 : Nat) : ℚ) + 1 / 8 ∧ (1 / 8 : ℚ) < 1 ∧
      periodA[3]? = some 100 ∧ periodA[3 + 1]? = some 87 := by decide +kernel

theorem test_meets_PeriodIndicesInRange : cfgCat.legal .cat = true := by decide +kernel

/-- No sign change; and a first sign change whose distance from the nearest anchor is 0, 1/2, 1, -1/2, -1 and, between two
anchors, 3/2 from the lower one (`N = 12`). -/
theorem test_meets_ClockRecoveryShift :
    afc 12 [1, 1] = .zero ∧ firstCrossing 0 [1, 1] = none ∧
    firstCrossing 0 [0, 1] = some 0 ∧ firstCrossing 0 [1, -1] = some (1 / 2) ∧ firstCrossing 0 [1, 0, -1] = some 1 ∧
    firstCrossing 0 [1, 1, 1, -1] = some (5 / 2) ∧ firstCrossing 0 [1, 1, 0, -1] = some 2 ∧
    firstCrossing 0 [1, 1, -1] = some (3 / 2) ∧ nearestAnchor 12 (3 / 2) = 0 ∧ nearestAnchor 12 2 = 1 := by
  decide +kernel

/-- The tie between two anchors: the first sign change of `[1, 1, -1]` is at 3/2, the lower anchor 0 is taken, the distance
is 3/2; and of `[1, 1, 1, -1]` at 5/2, distance -1/2 from the anchor 3, on the edge of the band. -/
theorem test_meets_ClockRecoveryShift_crossing :
    (let buf : List Int := [1, 1, -1]
     buf[1]? = some 1 ∧ buf[1 + 1]? = some (-1) ∧ ((1 : Int) ≤ 0 ∧ (0 : Int) < -1 ∨ (0 : Int) ≤ 1 ∧ (-1 : Int) < 0) ∧
       (∀ k < 1, buf[k]? = some 1 ∧ buf[k + 1]? = some 1) ∧ (3 / 2 : ℚ) = ((1 : Nat) : ℚ) + ((1 : Int) : ℚ) / (1 - (-1)) ∧
       (∀ k : Fin 3, |(3 / 2 : ℚ) - ((0 : Fin 3).val : ℚ) * 12 / 4| ≤ |(3 / 2 : ℚ) - (k.val : ℚ) * 12 / 4|)) ∧
    (let buf : List Int := [1, 1, 1, -1]
     buf[2]? = some 1 ∧ buf[2 + 1]? = some (-1) ∧ (∀ k < 2, buf[k]? = some 1 ∧ buf[k + 1]? = some 1) ∧
       (5 / 2 : ℚ) = ((2 : Nat) : ℚ) + ((1 : Int) : ℚ) / (1 - (-1)) ∧
       (∀ k : Fin 3, k < 1 → |(5 / 2 : ℚ) - ((1 : Fin 3).val : ℚ) * 12 / 4| < |(5 / 2 : ℚ) - (k.val : ℚ) * 12 / 4|) ∧
       (∀ k : Fin 3, |(5 / 2 : ℚ) - ((1 : Fin 3).val : ℚ) * 12 / 4| ≤ |(5 / 2 : ℚ) - (k.val : ℚ) * 12 / 4|) ∧
       (-1 / 2 : ℚ) = 5 / 2 - ((1 : Fin 3).val : ℚ) * 12 / 4) := by decide +kernel

theorem test_meets_SymHoldsThenEmitsCycle :
    let s := running .synth cfgTone
    s.ch.internalEmpty = true ∧ s.pipe.st = .run ∧ s.pipe.mode = .synth ∧ s.cfg.psCarrier ≠ 0 ∧ s.cfg.psRate ≠ 0 ∧
      (∀ n : Nat, n < 12 ↔ (n : ℚ) * s.cfg.step < 1) ∧ s.ps.holding = false ∧
      { s with ps := ⟨true, .a⟩ }.ps.holding = true := by
  refine ⟨rfl, rfl, rfl, by decide, by decide, fun n => ?_, rfl, rfl⟩
  have h : (running .synth cfgTone).cfg.step = 1 / 12 := by decide +kernel
  rw [h, mul_one_div, div_lt_one (by norm_num)]
  exact_mod_cast Iff.rfl

/-- At the ends of the blend and between them. -/
theorem test_meets_CycleSampleIsExactRounding :
    ((3 / 5 : ℚ) ≤ 3 / 5 ∧ ¬ (9 / 10 : ℚ) ≤ 3 / 5) ∧
    ((3 / 5 : ℚ) < 3 / 4 ∧ (3 / 4 : ℚ) < 9 / 10 ∧ (1 / 2 : ℚ) = (3 / 4 - 3 / 5) / (3 / 10)) ∧
    ((9 / 10 : ℚ) ≤ 9 / 10 ∧ ¬ (9 / 10 : ℚ) ≤ 3 / 5) := by decide +kernel

theorem test_meets_SynthSampleCount :
    let s : State := { State.reset with cfg := cfgTone }
    s.ch.internalEmpty = true ∧ s.pipe.st ≠ .run ∧ s.cfg.legal .synth = true := by decide

/-- A pass of SD_ONLY that has just begun, with a BIT in `IN`. -/
theorem test_meets_InvariantsKeptByStep :
    let s := withWord 0x70000001 (running .sdOnly Cfg.reset)
    Inv s ∧ ∃ t, step s = .next t := by
  refine ⟨⟨rfl, ⟨by decide, by decide⟩, ⟨by decide, fun _ => rfl, by decide, fun _ => rfl, by decide⟩,
    ⟨fun _ => rfl, fun _ => rfl, fun _ => rfl, fun _ => rfl, fun _ => rfl, by decide⟩,
    ⟨fun _ => ⟨rfl, rfl, rfl⟩, (fun h => by cases h), (fun h => by cases h)⟩,
    ⟨fun _ => ⟨rfl, rfl, rfl, (fun h => by cases h)⟩, (fun h => by cases h)⟩, ?_, (fun _ h => by cases h)⟩, ⟨_, rfl⟩⟩
  intro _ h
  cases h

theorem test_meets_PassTransitions :
    let s := withWord 0x30000005 State.reset
    s.ch.internalEmpty = true ∧ look (fun t => (t.pipe.st, t.pipe.mode)) (step s) = some (.run, .sdOnly) := by
  decide +kernel

theorem test_meets_FaultedUntilRestart :
    let s : State := { running .cat cfgCat with pipe := ⟨.faulted, .cat, 31, .noMatch, ⟨1, 3, 0, 0⟩, Flags.reset⟩ }
    s.pipe.st = .faulted ∧
      [Instr.sample 5, .nop, .start .cat, .reset].map (fun i => look (fun t => t.pipe.st) (exec i s))
        = [some .faulted, some .faulted, some .run, some .idle] := by decide +kernel

theorem test_meets_ConfigurationFrozenInRun :
    let s := withWord 0x00000000 (running .edge cfgEdge)
    s.ch.internalEmpty = true ∧ s.pipe.st = .run ∧ ¬ takes s .reset ∧ ∃ t, step s = .next t := by
  refine ⟨rfl, rfl, ?_, ⟨_, rfl⟩⟩
  rintro ⟨p, rest, h, hd⟩
  obtain ⟨rfl, -⟩ := List.cons.inj h
  revert hd
  decide +kernel

theorem test_meets_EveryWordIsCounted :
    let s := withWord 0x10000000 (running .edge cfgEdge)
    s.ch.internalEmpty = true ∧ s.ch.inp = ⟨0x10000000, 0, 0⟩ :: [] ∧ look (fun t => t.pipe.wc) (step s) = some 0 := by
  decide +kernel

theorem test_meets_OutputsAppendOnly :
    let s := withWord 0x70000001 { running .sdOnly Cfg.reset with sd := ⟨.synced, true, 2, 0, 1, .one⟩ }
    s.ch.internalEmpty = true ∧ ¬ takes s .reset ∧ look (fun t => t.ch.out) (step s) = some [.sym (.letter .a)] := by
  refine ⟨rfl, ?_, by decide +kernel⟩
  rintro ⟨p, rest, h, hd⟩
  obtain ⟨rfl, -⟩ := List.cons.inj h
  revert hd
  decide +kernel

/-- Two states that differ in the registers of a unit, the count and `OUT`. -/
theorem test_meets_PassDependsOnNothingBefore :
    let s : State := State.reset
    let t : State := { State.reset with
      pipe := { Pipe.reset with st := .done, wc := 7 }
      sd := ⟨.synced, true, 2, 0, 1, .one⟩
      ch := { Channels.empty with out := [.fin] } }
    s.ch.internalEmpty = true ∧ t.ch.internalEmpty = true ∧ s.cfg = t.cfg ∧ s.pipe.st ≠ .run ∧ t.pipe.st ≠ .run ∧
      s.cfg.legal .sdOnly = true ∧ Instr.reset ∉ [Instr.bit .one, .endOfStream] ∧
      (∃ u, Runs [.start .sdOnly, .bit .one, .endOfStream] s u) ∧
      (∃ u, Runs [.start .sdOnly, .bit .one, .endOfStream] t u) :=
  ⟨rfl, rfl, rfl, by decide, by decide, rfl, by decide, ⟨_, _, rfl, _, rfl, _, rfl, rfl⟩, ⟨_, _, rfl, _, rfl, _, rfl, rfl⟩⟩

theorem test_meets_EdgePassIsComposition :
    let s : State := { State.reset with cfg := cfgEdge }
    s.ch.internalEmpty = true ∧ s.pipe.st ≠ .run ∧ s.cfg.legal .edge = true := by decide

/-- Twelve samples a cycle (`m = 3`) at amplitude 100, thresholds 70 and 50. -/
theorem test_meets_SynthCatRoundTrip :
    let s : State := { State.reset with cfg := { cfgCat with psCarrier := 1, psRate := 12, psAmp := 100 } }
    (s.ch.internalEmpty = true ∧ s.pipe.st ≠ .run ∧ s.cfg.psCarrier ≠ 0 ∧
      s.cfg.psRate.toNat = 4 * 3 * s.cfg.psCarrier.toNat ∧ s.cfg.spsDen ≠ 0 ∧
      s.cfg.spsNum.toNat = 4 * 3 * s.cfg.spsDen.toNat ∧ s.cfg.manual = true ∧ s.cfg.thrDen ≠ 0 ∧ 0 < s.cfg.low ∧
      s.cfg.high < s.cfg.psAmp.toNat) ∧
    1 < 2 * ((s.cfg.psAmp.toNat : ℕ) : ℝ) * Real.sin (2 * Real.pi / (4 * ((3 : ℕ) : ℝ))) := by
  refine ⟨by decide +kernel, ?_⟩
  have h : 2 * Real.pi / (4 * ((3 : ℕ) : ℝ)) = Real.pi / 6 := by
    push_cast
    ring
  rw [h, Real.sin_pi_div_six]
  show (1 : ℝ) < 2 * ((100 : ℕ) : ℝ) * (1 / 2)
  norm_num

end Sys2Proof.Tests
end

/-! The output channels only grow and ILLOP stays set (20_memory.md R70, 00_scope.md R15, 10_state.md R25): the relation
`Grows`, the operations PIPE's words are made of, every word but RESET, the step. -/

namespace Sys2Proof.Machine

/-- What every word but RESET keeps: nothing is taken back from an output channel, and ILLOP is never cleared. -/
structure Grows (s t : State) : Prop where
  out : s.ch.out <+: t.ch.out
  tapX : s.ch.tapX <+: t.ch.tapX
  tapB : s.ch.tapB <+: t.ch.tapB
  diag : s.ch.diag <+: t.ch.diag
  illop : s.pipe.flags.illop = true → t.pipe.flags.illop = true

theorem Grows.trans {s t u : State} (h : Grows s t) (k : Grows t u) : Grows s u :=
  ⟨h.out.trans k.out, h.tapX.trans k.tapX, h.tapB.trans k.tapB, h.diag.trans k.diag, k.illop ∘ h.illop⟩

/-! ### The operations the words are made of -/

/-- Every rule of a unit, feeding a token and settling. -/
theorem Kept.grows {s t : State} (h : Kept s t) : Grows s t :=
  ⟨h.out, h.tapX, h.tapB, h.diag, h.illop.trans⟩

theorem Grows.of_ch_eq {s t : State} (hch : t.ch = s.ch) (hillop : t.pipe.flags.illop = s.pipe.flags.illop) :
    Grows s t := by
  constructor <;> simp [hch, hillop]

theorem grows_takeWord (s : State) (rest : List PortWord) : Grows s { s with ch := { s.ch with inp := rest } } :=
  ⟨List.prefix_rfl, List.prefix_rfl, List.prefix_rfl, List.prefix_rfl, id⟩

theorem grows_countWord (s : State) : Grows s s.countWord := .of_ch_eq rfl rfl

/-- A diagnostic is pushed at the end of `DIAG`, and its flag is only ever set (60_exceptions.md R266). -/
theorem grows_report (k : DiagKind) (q : Nat) (s : State) : Grows s (s.report k q) := by
  constructor <;> simp +contextual

theorem grows_refuseWord (s : State) : Grows s s.refuseWord :=
  (grows_countWord s).trans (grows_report _ _ _)

/-- A START that is accepted clears the other three flags and keeps ILLOP (10_state.md R25). -/
theorem grows_beginPass (m : Mode) (s : State) : Grows s (s.beginPass m) := .of_ch_eq rfl rfl

theorem grows_streamWord (k : StreamKind) {feed : State → State} (hfeed : ∀ s, Kept s (feed s)) (s : State) :
    Grows s (streamWord k feed s) := by
  unfold streamWord
  split
  · exact (grows_countWord s).trans ((hfeed _).trans (Kept.settle _)).grows
  · exact grows_refuseWord s

/-! ### The words -/

theorem grows_execCfgwr {n : BitVec 4} {val : BitVec 24} {s t : State} (he : execCfgwr n val s = .next t) :
    Grows s t := by
  obtain rfl := Host.Outcome.next.inj he
  split
  · exact grows_refuseWord s
  · split
    · exact .of_ch_eq rfl rfl
    · exact grows_refuseWord s

theorem grows_execStart {m : Mode} {s t : State} (he : execStart m s = .next t) : Grows s t := by
  obtain rfl := Host.Outcome.next.inj he
  split
  · exact grows_refuseWord s
  · split
    · exact (grows_countWord s).trans (grows_beginPass m _)
    · exact (grows_countWord s).trans (grows_report _ _ _)

theorem grows_execEndOfStream {s t : State} (he : execEndOfStream s = .next t) : Grows s t := by
  obtain rfl := Host.Outcome.next.inj he
  split
  · exact (grows_countWord s).trans ((Kept.feedEnd _).trans (Kept.settle _)).grows
  · exact grows_refuseWord s

/-- Every word but RESET, from any state. -/
theorem grows_exec {i : Instr} {s t : State} (hi : i ≠ .reset) (he : exec i s = .next t) : Grows s t := by
  cases i with
  | nop => obtain rfl := Host.Outcome.next.inj he; exact grows_countWord s
  | reset => exact absurd rfl hi
  | cfgwr n val => exact grows_execCfgwr he
  | start m => exact grows_execStart he
  | endOfStream => exact grows_execEndOfStream he
  | sample v =>
    obtain rfl := Host.Outcome.next.inj he
    exact grows_streamWord _ (Kept.feedSample · v) s
  | xing dir time delta =>
    obtain rfl := Host.Outcome.next.inj he
    exact grows_streamWord _ (Kept.feedXing ⟨dir, time, delta⟩) s
  | bit b =>
    obtain rfl := Host.Outcome.next.inj he
    exact grows_streamWord _ (Kept.feedBit b) s
  | sym x =>
    cases x with
    | letter l =>
      obtain rfl := Host.Outcome.next.inj he
      exact grows_streamWord _ (Kept.feedSym l) s
    | undec => obtain rfl := Host.Outcome.next.inj he; exact grows_refuseWord s
  | diag kind seq => obtain rfl := Host.Outcome.next.inj he; exact grows_refuseWord s

/-- Every step that does not take RESET, a step that drains waiting tokens included. -/
theorem grows_step {s t : State} (hr : ¬ takes s .reset) (he : step s = .next t) : Grows s t := by
  obtain ⟨-, rfl⟩ | ⟨-, -, rfl⟩ | ⟨-, p, rest, hp, ⟨-, -, rfl⟩ | ⟨i, hdec, hex⟩⟩ := step_cases he
  · exact (Kept.settle s).grows
  · exact (Kept.refl _).grows
  · exact (grows_takeWord s rest).trans (grows_refuseWord _)
  · have hi : i ≠ .reset := by
      rintro rfl
      exact hr ⟨p, rest, hp, hdec⟩
    exact (grows_takeWord s rest).trans (grows_exec hi hex)

/-- Settles O57: a step is made of operations that only append to the output channels and never clear ILLOP; RESET, the
one exception, is excluded. -/
theorem outputsAppendOnly : Obligations.OutputsAppendOnly := by
  intro s t _ hr he
  obtain ⟨hout, htapX, htapB, hdiag, hillop⟩ := grows_step hr he
  exact ⟨hout, htapX, htapB, hdiag, hillop⟩

end Sys2Proof.Machine

/-! The rest of 10_state.md: the reserved registers, the packed status word, the state after power-on and its invariants
(R40, R43, R44). -/

namespace Sys2Proof.Machine

/-! ### Registers 13 to 15 (R40) -/

/-- Settles O17: the read has no case for a number from 13. -/
theorem reservedRegistersReadZero : Obligations.ReservedRegistersReadZero := by
  intro c n hn
  have hlt : n.toNat < 16 := n.isLt
  obtain h | h | h : n.toNat = 13 ∨ n.toNat = 14 ∨ n.toNat = 15 := by omega
  all_goals simp only [Cfg.read, h]

/-! ### The status word (R43) -/

theorem PassState.code_lt (st : PassState) : st.code < 4 := by cases st <;> decide

theorem Cause.code_lt (c : Cause) : c.code < 4 := by cases c <;> decide

theorem statusWord_st (s : State) : s.statusWord.extractLsb' 0 2 = BitVec.ofNat 2 s.pipe.st.code := by
  rw [State.statusWord, BitVec.extractLsb'_append_eq_of_add_le (by decide), BitVec.extractLsb'_eq_self]

theorem statusWord_mode (s : State) : s.statusWord.extractLsb' 2 3 = BitVec.ofNat 3 s.pipe.mode.code := by
  rw [State.statusWord, BitVec.extractLsb'_append_eq_of_le (by decide),
    BitVec.extractLsb'_append_eq_of_add_le (by decide), BitVec.extractLsb'_eq_self]

theorem statusWord_cause (s : State) : s.statusWord.extractLsb' 5 2 = BitVec.ofNat 2 s.pipe.cause.code := by
  rw [State.statusWord, BitVec.extractLsb'_append_eq_of_le (by decide), BitVec.extractLsb'_append_eq_of_le (by decide),
    BitVec.extractLsb'_append_eq_of_add_le (by decide), BitVec.extractLsb'_eq_self]

theorem statusWord_high (s : State) : s.statusWord.extractLsb' 12 20 = 0 := by
  simp only [State.statusWord]
  iterate 8 rw [BitVec.extractLsb'_append_eq_of_le (by decide)]
  exact BitVec.extractLsb'_eq_self

/-- Settles O48: each field is one part of the concatenation that STATUS is, and a code fits its field. -/
theorem statusWordLayout : Obligations.StatusWordLayout := by
  intro s
  refine ⟨?_, ?_, ?_, ?_, ?_, ?_, ?_, ?_, statusWord_high s⟩
  · rw [statusWord_st, BitVec.toNat_ofNat, Nat.mod_eq_of_lt s.pipe.st.code_lt]
  · rw [statusWord_mode, BitVec.toNat_ofNat, Nat.mod_eq_of_lt s.pipe.mode.code_lt]
  · rw [statusWord_cause, BitVec.toNat_ofNat, Nat.mod_eq_of_lt s.pipe.cause.code_lt]
  all_goals
    simp only [State.statusWord, BitVec.getLsbD_append]
    simp

/-! ### Power-on (R44, R291) -/

/-- Settles O50: the reset values are these literals, so every part is an evaluation. -/
theorem powerOnState : Obligations.PowerOnState :=
  ⟨rfl, by decide, rfl, rfl⟩

theorem sdOk_reset : SdOk Sd.reset :=
  ⟨fun _ => ⟨rfl, rfl, rfl, nofun⟩, nofun⟩

theorem passOk_reset : PassOk State.reset :=
  ⟨by decide, fun _ => rfl, nofun, nofun, by decide⟩

/-- Settles O51: no pass runs, so what a running pass must satisfy holds of nothing, and the units hold their reset
values. -/
theorem invariantsAtReset : Obligations.InvariantsAtReset where
  drained := rfl
  cfg := ⟨by decide, by decide⟩
  pass := passOk_reset
  units := ⟨fun _ => rfl, fun _ => rfl, fun _ => rfl, fun _ => rfl, fun _ => rfl, fun _ => ⟨rfl, rfl, rfl, rfl, rfl⟩⟩
  zcd := zcdOk_reset
  sd := sdOk_reset
  cd := nofun
  out := nofun

end Sys2Proof.Machine

/-! What a pass depends on (R22) and the count of the words (R24). A state is its `core`, which a pass reads, and
its `history`, which it only adds to. An operation that does not read the history is `Framed`; what a word does is framed
but for the number in a diagnostic about the word. -/

namespace Sys2Proof.Machine

/-! ### Core and history -/

/-- What earlier passes leave and no operation reads but for the number of a diagnostic about a word (R122). -/
structure History where
  wc : Nat
  illop : Bool
  inp : List PortWord
  out : List Token
  tapX : List (Item Xing)
  tapB : List (Item BitVal)
  diag : List Diag

/-- The history of a state. -/
def State.history (s : State) : History :=
  ⟨s.pipe.wc, s.pipe.flags.illop, s.ch.inp, s.ch.out, s.ch.tapX, s.ch.tapB, s.ch.diag⟩

/-- A state without its history. -/
def State.core (s : State) : State :=
  { s with
    pipe := { s.pipe with
      wc := 0
      flags := { s.pipe.flags with illop := false } }
    ch := { s.ch with
      inp := []
      out := []
      tapX := []
      tapB := []
      diag := [] } }

/-- A state with a history put before its own. -/
def State.over (h : History) (s : State) : State :=
  { s with
    pipe := { s.pipe with
      wc := h.wc + s.pipe.wc
      flags := { s.pipe.flags with illop := h.illop || s.pipe.flags.illop } }
    ch := { s.ch with
      inp := h.inp ++ s.ch.inp
      out := h.out ++ s.ch.out
      tapX := h.tapX ++ s.ch.tapX
      tapB := h.tapB ++ s.ch.tapB
      diag := h.diag ++ s.ch.diag } }

theorem core_over_history (s : State) : s.core.over s.history = s := by
  simp [State.core, State.over, State.history]

theorem core_over (h : History) (s : State) : (s.over h).core = s.core := rfl

theorem core_report (k : DiagKind) (q : Nat) (s : State) : (s.report k q).core = (s.core.report k 0).core := by
  cases k <;> rfl

/-- A pass that starts finds the configuration and nothing else of what was before (40_pipeline_control.md R116). -/
theorem core_beginPass (m : Mode) {s : State} (hd : s.ch.internalEmpty = true) :
    (s.beginPass m).core = (State.beginPass m { State.reset with cfg := s.cfg }).core := by
  obtain ⟨hzcd, hetd, hsd, hcd, hps⟩ := (internalEmpty_iff _).mp hd
  simp [State.core, State.beginPass, Pipe.atStart, Flags.startPass, hzcd, hetd, hsd, hcd, hps, State.reset,
    Channels.empty, Pipe.reset, Flags.reset]

/-! ### Framed operations -/

/-- An operation that does not read the history and only adds to it: what was there before stays in front. -/
def Framed (f : State → State) : Prop := ∀ h s, f (State.over h s) = State.over h (f s)

theorem Framed.comp {f g : State → State} (hf : Framed f) (hg : Framed g) : Framed fun s => f (g s) :=
  fun h s => (congrArg f (hg h s)).trans (hf h (g s))

theorem framed_countWord : Framed State.countWord := fun _ _ => rfl

theorem framed_beginPass (m : Mode) : Framed (State.beginPass m) := fun _ _ => rfl

theorem framed_writeCfg (n : BitVec 4) (val : BitVec 24) :
    Framed fun s => { s.countWord with cfg := s.cfg.write n val } := fun _ _ => rfl

theorem framed_zcdRule (i : Item Int) : Framed (zcdRule · i) := by
  intro h s
  cases i <;> simp [zcdRule_tok, zcdRule_fin, State.over]

theorem framed_etdRule (i : Item Xing) : Framed (etdRule · i) := by
  intro h s
  cases i <;> simp [etdRule_tok, etdRule_fin, State.over]

theorem framed_sdRule (i : Item BitVal) : Framed (sdRule · i) := by
  intro h s
  cases i <;> simp [sdRule_tok, sdRule_fin, State.over]

theorem framed_psRule (i : Item Letter) : Framed (psRule · i) := by
  intro h s
  cases i <;> simp [psRule_tok, psRule_fin, State.over]

theorem framed_raiseIf (f : Option Fatal) : Framed (raiseIf f) := by
  intro h s
  cases f <;> rfl

theorem framed_cdRule (i : Item Int) : Framed (cdRule · i) := by
  intro h s
  cases i with
  | tok v =>
    simp only [cdRule_tok]
    rw [← framed_raiseIf _ h]
    simp [State.over]
  | fin => simp [cdRule_fin, State.over]

/-- Taking the oldest token of a channel and running a framed rule on it is framed. -/
theorem framed_step {α : Type} (get : State → List α) (set : List α → State → State) {stp : State → State}
    {rule : State → α → State} (hnil : ∀ s, get s = [] → stp s = s)
    (hcons : ∀ s x xs, get s = x :: xs → stp s = rule (set xs s) x) (hget : ∀ h s, get (State.over h s) = get s)
    (hset : ∀ h s xs, set xs (State.over h s) = State.over h (set xs s)) (hrule : ∀ x, Framed (rule · x)) :
    Framed stp := by
  intro h s
  cases hs : get s with
  | nil => rw [hnil s hs, hnil _ ((hget h s).trans hs)]
  | cons x xs => rw [hcons s x xs hs, hcons _ x xs ((hget h s).trans hs), hset]; exact hrule x h _

theorem framed_stepUnit (u : UnitId) : Framed (stepUnit u) := by
  cases u with
  | zcd =>
    exact framed_step (fun s => s.ch.zcdIn) (fun l s => { s with ch := { s.ch with zcdIn := l } })
      (fun s h => by simp only [stepUnit, stepZcd]; rw [h]) (fun s x xs h => by simp only [stepUnit, stepZcd]; rw [h])
      (fun _ _ => rfl) (fun _ _ _ => rfl) framed_zcdRule
  | etd =>
    exact framed_step (fun s => s.ch.etdIn) (fun l s => { s with ch := { s.ch with etdIn := l } })
      (fun s h => by simp only [stepUnit, stepEtd]; rw [h]) (fun s x xs h => by simp only [stepUnit, stepEtd]; rw [h])
      (fun _ _ => rfl) (fun _ _ _ => rfl) framed_etdRule
  | sd =>
    exact framed_step (fun s => s.ch.sdIn) (fun l s => { s with ch := { s.ch with sdIn := l } })
      (fun s h => by simp only [stepUnit, stepSd]; rw [h]) (fun s x xs h => by simp only [stepUnit, stepSd]; rw [h])
      (fun _ _ => rfl) (fun _ _ _ => rfl) framed_sdRule
  | cd =>
    exact framed_step (fun s => s.ch.cdIn) (fun l s => { s with ch := { s.ch with cdIn := l } })
      (fun s h => by simp only [stepUnit, stepCd]; rw [h]) (fun s x xs h => by simp only [stepUnit, stepCd]; rw [h])
      (fun _ _ => rfl) (fun _ _ _ => rfl) framed_cdRule
  | ps =>
    exact framed_step (fun s => s.ch.psIn) (fun l s => { s with ch := { s.ch with psIn := l } })
      (fun s h => by simp only [stepUnit, stepPs]; rw [h]) (fun s x xs h => by simp only [stepUnit, stepPs]; rw [h])
      (fun _ _ => rfl) (fun _ _ _ => rfl) framed_psRule

theorem framed_exhaust (u : UnitId) : Framed (exhaust u) := by
  intro h s
  have hw : (s.over h).ch.waiting u = s.ch.waiting u := by cases u <;> rfl
  rw [exhaust, exhaust, hw]
  exact Function.Commute.iterate_left (framed_stepUnit u h) _ s

theorem framed_settle : Framed State.settle :=
  (framed_exhaust .ps).comp <| (framed_exhaust .cd).comp <| (framed_exhaust .sd).comp <|
    (framed_exhaust .etd).comp (framed_exhaust .zcd)

theorem framed_feedSample (v : Int) : Framed (State.feedSample v) := by
  intro h s
  simp only [State.feedSample, State.over]
  split <;> rfl

theorem framed_feedXing (x : Xing) : Framed (State.feedXing x) := fun _ _ => rfl

theorem framed_feedBit (b : BitVal) : Framed (State.feedBit b) := fun _ _ => rfl

theorem framed_feedSym (l : Letter) : Framed (State.feedSym l) := fun _ _ => rfl

theorem framed_feedEnd : Framed State.feedEnd := by
  intro h s
  simp only [State.feedEnd, State.over]
  split <;> rfl

/-! ### What a word does -/

/-- The diagnostic is one a unit makes, UNC or BADGRP, and not one about a word (60_exceptions.md R262). -/
def DiagKind.ofUnit (k : DiagKind) : Bool := decide (k = .unc ∨ k = .badgrp)

/-- What a word other than RESET can do: be counted only, write a register, begin a pass, feed a unit, or leave a diagnostic
about itself. -/
inductive WordEffect : (State → State) → Prop
  | counted : WordEffect State.countWord
  | written (n : BitVec 4) (val : BitVec 24) : WordEffect fun s => { s.countWord with cfg := s.cfg.write n val }
  | begun (m : Mode) : WordEffect fun s => s.countWord.beginPass m
  | fed {feed : State → State} (hkept : ∀ s, Kept s (feed s)) (hframed : Framed feed) :
    WordEffect fun s => (feed s.countWord).settle
  | reported {k : DiagKind} (hk : k.ofUnit = false) : WordEffect fun s => s.countWord.report k s.pipe.wc

theorem WordEffect.refused : WordEffect State.refuseWord := WordEffect.reported (k := .illop) rfl

/-- On all states with the core `c`, `op` is one and the same effect of a word. -/
def CommonEffect (c : State) (op : State → State) : Prop := ∃ f, WordEffect f ∧ ∀ s, s.core = c → op s = f s

theorem WordEffect.common {f : State → State} (hf : WordEffect f) (c : State) : CommonEffect c f :=
  ⟨f, hf, fun _ _ => rfl⟩

/-- A case distinction on the core alone. -/
theorem CommonEffect.ite {c : State} {p : State → Prop} [DecidablePred p] {f g : State → State}
    (hp : ∀ s, s.core = c → (p s ↔ p c)) (hf : CommonEffect c f) (hg : CommonEffect c g) :
    CommonEffect c fun s => if p s then f s else g s := by
  by_cases h : p c
  · obtain ⟨e, he, heq⟩ := hf
    exact ⟨e, he, fun s hs => (if_pos ((hp s hs).mpr h)).trans (heq s hs)⟩
  · obtain ⟨e, he, heq⟩ := hg
    exact ⟨e, he, fun s hs => (if_neg (h ∘ (hp s hs).mp)).trans (heq s hs)⟩

theorem commonEffect_streamWord (k : StreamKind) {feed : State → State} (hkept : ∀ s, Kept s (feed s))
    (hframed : Framed feed) (c : State) : CommonEffect c (streamWord k feed) :=
  .ite (by rintro s rfl; rfl) ((WordEffect.fed hkept hframed).common c) (WordEffect.refused.common c)

/-- Every word but RESET has an effect of a word, the same one in all states with the same core (R111, R22). -/
theorem exec_commonEffect {i : Instr} (hi : i ≠ .reset) :
    ∃ op : State → State, (∀ s, exec i s = .next (op s)) ∧ ∀ c, CommonEffect c op := by
  cases i with
  | nop => exact ⟨_, fun _ => rfl, WordEffect.counted.common⟩
  | reset => exact absurd rfl hi
  | cfgwr n val =>
    exact ⟨_, fun _ => rfl, fun c => .ite (by rintro s rfl; rfl) (WordEffect.refused.common c)
      (.ite (fun _ _ => Iff.rfl) ((WordEffect.written n val).common c) (WordEffect.refused.common c))⟩
  | start m =>
    exact ⟨_, fun _ => rfl, fun c => .ite (by rintro s rfl; rfl) (WordEffect.refused.common c)
      (.ite (by rintro s rfl; rfl) ((WordEffect.begun m).common c)
        ((WordEffect.reported (k := .cfgerr) rfl).common c))⟩
  | endOfStream =>
    exact ⟨_, fun _ => rfl, fun c => .ite (by rintro s rfl; rfl)
      ((WordEffect.fed Kept.feedEnd framed_feedEnd).common c) (WordEffect.refused.common c)⟩
  | sample v => exact ⟨_, fun _ => rfl, commonEffect_streamWord _ (Kept.feedSample · v) (framed_feedSample v)⟩
  | xing d t delta => exact ⟨_, fun _ => rfl, commonEffect_streamWord _ (Kept.feedXing _) (framed_feedXing _)⟩
  | bit b => exact ⟨_, fun _ => rfl, commonEffect_streamWord _ (Kept.feedBit b) (framed_feedBit b)⟩
  | sym y =>
    cases y with
    | letter l => exact ⟨_, fun _ => rfl, commonEffect_streamWord _ (Kept.feedSym l) (framed_feedSym l)⟩
    | undec => exact ⟨_, fun _ => rfl, WordEffect.refused.common⟩
  | diag kind seq => exact ⟨_, fun _ => rfl, WordEffect.refused.common⟩

/-! ### The count (R24) -/

/-- Whatever a word does, it is counted once and leaves the words behind it. -/
theorem WordEffect.inp_wc {f : State → State} (hf : WordEffect f) (s : State) :
    (f s).ch.inp = s.ch.inp ∧ (f s).pipe.wc = s.pipe.wc + 1 := by
  cases hf with
  | @fed feed hkept _ =>
    have hk : Kept s.countWord (feed s.countWord).settle := (hkept _).trans (Kept.settle _)
    simp [hk.inp, hk.wc]
  | _ => exact ⟨rfl, rfl⟩

theorem exec_inp_wc {i : Instr} {s t : State} (hi : i ≠ .reset) (he : exec i s = .next t) :
    t.ch.inp = s.ch.inp ∧ t.pipe.wc = s.pipe.wc + 1 := by
  obtain ⟨op, hop, hcommon⟩ := exec_commonEffect hi
  obtain ⟨f, hf, hfs⟩ := hcommon s.core
  obtain rfl : f s = t := (hfs s rfl).symm.trans (Host.Outcome.next.inj ((hop s).symm.trans he))
  exact hf.inp_wc s

/-- Settles O56: a word that does not decode is counted by its refusal, any other but RESET by its effect. -/
theorem everyWordIsCounted : Obligations.EveryWordIsCounted := by
  intro s t p rest hdrained hinp he
  obtain ⟨hd, -⟩ | ⟨-, hnone, -⟩ | ⟨-, q, l, hq, hcase⟩ := step_cases he
  · simp [hdrained] at hd
  · simp [hinp] at hnone
  · obtain ⟨rfl, rfl⟩ := List.cons.inj (hinp.symm.trans hq)
    obtain ⟨e, hdec, rfl⟩ | ⟨i, hdec, hex⟩ := hcase
    · simp [hdec, State.afterRefusal]
    · by_cases hi : i = .reset
      · subst hi
        obtain rfl := Host.Outcome.next.inj hex
        simp [hdec, Pipe.reset]
      · simpa [hdec, hi] using exec_inp_wc hi hex

/-! ### Two runs side by side (R22) -/

/-- Two lists grew by the same tail. -/
def SameTail {α : Type} (a₁ a₂ b₁ b₂ : List α) : Prop := ∃ l, b₁ = a₁ ++ l ∧ b₂ = a₂ ++ l

/-- Two lists of diagnostics grew by tails in which the units' diagnostics are the same. -/
def SameDiagTail (a₁ a₂ b₁ b₂ : List Diag) : Prop :=
  ∃ l₁ l₂, b₁ = a₁ ++ l₁ ∧ b₂ = a₂ ++ l₂ ∧ l₁.filter (·.kind.ofUnit) = l₂.filter (·.kind.ofUnit)

theorem SameTail.trans {α : Type} {a₁ a₂ b₁ b₂ c₁ c₂ : List α} (h : SameTail a₁ a₂ b₁ b₂)
    (k : SameTail b₁ b₂ c₁ c₂) : SameTail a₁ a₂ c₁ c₂ := by
  obtain ⟨l, rfl, rfl⟩ := h
  obtain ⟨m, rfl, rfl⟩ := k
  exact ⟨l ++ m, by simp, by simp⟩

theorem SameDiagTail.trans {a₁ a₂ b₁ b₂ c₁ c₂ : List Diag} (h : SameDiagTail a₁ a₂ b₁ b₂)
    (k : SameDiagTail b₁ b₂ c₁ c₂) : SameDiagTail a₁ a₂ c₁ c₂ := by
  obtain ⟨l₁, l₂, rfl, rfl, hl⟩ := h
  obtain ⟨m₁, m₂, rfl, rfl, hm⟩ := k
  exact ⟨l₁ ++ m₁, l₂ ++ m₂, by simp, by simp, by simp [hl, hm]⟩

/-- From `s₁` and from `s₂` the same was done: the cores agree now, and the outputs grew alike. -/
structure DoneAlike (s₁ s₂ t₁ t₂ : State) : Prop where
  core : t₁.core = t₂.core
  out : SameTail s₁.ch.out s₂.ch.out t₁.ch.out t₂.ch.out
  tapX : SameTail s₁.ch.tapX s₂.ch.tapX t₁.ch.tapX t₂.ch.tapX
  tapB : SameTail s₁.ch.tapB s₂.ch.tapB t₁.ch.tapB t₂.ch.tapB
  diag : SameDiagTail s₁.ch.diag s₂.ch.diag t₁.ch.diag t₂.ch.diag

theorem DoneAlike.trans {s₁ s₂ t₁ t₂ u₁ u₂ : State} (h : DoneAlike s₁ s₂ t₁ t₂) (k : DoneAlike t₁ t₂ u₁ u₂) :
    DoneAlike s₁ s₂ u₁ u₂ :=
  ⟨k.core, h.out.trans k.out, h.tapX.trans k.tapX, h.tapB.trans k.tapB, h.diag.trans k.diag⟩

/-- A framed operation is its effect on the core, put over the history. -/
theorem Framed.apply_eq {f : State → State} (hf : Framed f) (s : State) : f s = (f s.core).over s.history := by
  rw [← hf, core_over_history]

theorem Framed.doneAlike {f : State → State} (hf : Framed f) {s₁ s₂ : State} (h : s₁.core = s₂.core) :
    DoneAlike s₁ s₂ (f s₁) (f s₂) := by
  rw [hf.apply_eq s₁, hf.apply_eq s₂, h]
  exact ⟨by rw [core_over, core_over], ⟨_, rfl, rfl⟩, ⟨_, rfl, rfl⟩, ⟨_, rfl, rfl⟩, ⟨_, _, rfl, rfl, rfl⟩⟩

theorem DoneAlike.refl {s₁ s₂ : State} (h : s₁.core = s₂.core) : DoneAlike s₁ s₂ s₁ s₂ :=
  Framed.doneAlike (f := id) (fun _ _ => rfl) h

/-- A diagnostic about a word may differ in its number, which is the count. -/
theorem doneAlike_report {k : DiagKind} (hk : k.ofUnit = false) (q₁ q₂ : Nat) {s₁ s₂ : State} (h : s₁.core = s₂.core) :
    DoneAlike s₁ s₂ (s₁.report k q₁) (s₂.report k q₂) where
  core := by rw [core_report, h, ← core_report]
  out := ⟨[], by simp, by simp⟩
  tapX := ⟨[], by simp, by simp⟩
  tapB := ⟨[], by simp, by simp⟩
  diag := ⟨[⟨k, q₁⟩], [⟨k, q₂⟩], rfl, rfl, by simp [hk]⟩

theorem WordEffect.doneAlike {f : State → State} (hf : WordEffect f) {s₁ s₂ : State} (h : s₁.core = s₂.core) :
    DoneAlike s₁ s₂ (f s₁) (f s₂) := by
  cases hf with
  | counted => exact framed_countWord.doneAlike h
  | written n val => exact (framed_writeCfg n val).doneAlike h
  | begun m => exact ((framed_beginPass m).comp framed_countWord).doneAlike h
  | fed _ hframed => exact (framed_settle.comp (hframed.comp framed_countWord)).doneAlike h
  | reported hk =>
    have hcount := framed_countWord.doneAlike h
    exact hcount.trans (doneAlike_report hk _ _ hcount.core)

theorem exec_doneAlike {i : Instr} (hi : i ≠ .reset) {s₁ s₂ t₁ t₂ : State} (h : s₁.core = s₂.core)
    (he₁ : exec i s₁ = .next t₁) (he₂ : exec i s₂ = .next t₂) : DoneAlike s₁ s₂ t₁ t₂ := by
  obtain ⟨op, hop, hcommon⟩ := exec_commonEffect hi
  obtain ⟨f, hf, hfs⟩ := hcommon s₂.core
  obtain rfl : f s₁ = t₁ := (hfs s₁ h).symm.trans (Host.Outcome.next.inj ((hop s₁).symm.trans he₁))
  obtain rfl : f s₂ = t₂ := (hfs s₂ rfl).symm.trans (Host.Outcome.next.inj ((hop s₂).symm.trans he₂))
  exact hf.doneAlike h

theorem runs_doneAlike {ws : List Instr} (hws : Instr.reset ∉ ws) {s₁ s₂ t₁ t₂ : State} (h : s₁.core = s₂.core)
    (hr₁ : Runs ws s₁ t₁) (hr₂ : Runs ws s₂ t₂) : DoneAlike s₁ s₂ t₁ t₂ := by
  induction ws generalizing s₁ s₂ with
  | nil =>
    obtain rfl := hr₁
    obtain rfl := hr₂
    exact .refl h
  | cons i ws ih =>
    obtain ⟨u₁, he₁, hr₁⟩ := hr₁
    obtain ⟨u₂, he₂, hr₂⟩ := hr₂
    obtain ⟨hi, hws⟩ := List.ne_and_not_mem_of_not_mem_cons hws
    have hu := exec_doneAlike hi.symm h he₁ he₂
    exact hu.trans (ih hws hu.core hr₁ hr₂)

/-- An accepted START (40_pipeline_control.md R116). -/
theorem exec_start_accepted {m : Mode} {s : State} (hst : s.pipe.st ≠ .run) (hl : s.cfg.legal m = true) :
    exec (.start m) s = .next (s.countWord.beginPass m) := by
  simp only [exec, execStart, if_neg hst, if_pos hl]

/-- Two drained states with one configuration that run the same pass do alike. -/
theorem pass_doneAlike {m : Mode} {ws : List Instr} {s₁ s₂ t₁ t₂ : State} (hd₁ : s₁.ch.internalEmpty = true)
    (hd₂ : s₂.ch.internalEmpty = true) (hcfg : s₁.cfg = s₂.cfg) (hst₁ : s₁.pipe.st ≠ .run) (hst₂ : s₂.pipe.st ≠ .run)
    (hl : s₁.cfg.legal m = true) (hws : Instr.reset ∉ ws) (hr₁ : Runs (.start m :: ws) s₁ t₁)
    (hr₂ : Runs (.start m :: ws) s₂ t₂) : DoneAlike s₁ s₂ t₁ t₂ := by
  obtain ⟨u₁, he₁, hr₁⟩ := hr₁
  obtain ⟨u₂, he₂, hr₂⟩ := hr₂
  obtain rfl := Host.Outcome.next.inj ((exec_start_accepted hst₁ hl).symm.trans he₁)
  obtain rfl := Host.Outcome.next.inj ((exec_start_accepted hst₂ (hcfg ▸ hl)).symm.trans he₂)
  have hcore : (s₁.countWord.beginPass m).core = (s₂.countWord.beginPass m).core := by
    rw [core_beginPass m (s := s₁.countWord) hd₁, core_beginPass m (s := s₂.countWord) hd₂, State.countWord_cfg, hcfg,
      State.countWord_cfg]
  obtain ⟨hcore, hout, htapX, htapB, hdiag⟩ := runs_doneAlike hws hcore hr₁ hr₂
  exact ⟨hcore, hout, htapX, htapB, hdiag⟩

/-- Settles O58: after START the two cores agree, and words do alike on equal cores, by induction on the words. -/
theorem passDependsOnNothingBefore : Obligations.PassDependsOnNothingBefore := by
  intro s₁ s₂ t₁ t₂ m ws hd₁ hd₂ hcfg hst₁ hst₂ hl hws hr₁ hr₂
  obtain ⟨hcore, ⟨out, ho₁, ho₂⟩, ⟨tapX, hx₁, hx₂⟩, ⟨tapB, hb₁, hb₂⟩, hdiag⟩ :=
    pass_doneAlike hd₁ hd₂ hcfg hst₁ hst₂ hl hws hr₁ hr₂
  have field {α : Type} (get : State → α) : get t₁.core = get t₂.core := congrArg get hcore
  exact ⟨⟨out, tapX, tapB, ho₁, ho₂, hx₁, hx₂, hb₁, hb₂⟩, hdiag, field State.zcd, field State.etd, field State.sd,
    field State.cd, field State.ps, field State.cfg, field (·.pipe.st), field (·.pipe.mode), field (·.pipe.cause),
    field (·.pipe.info), field (·.pipe.flags.unc), field (·.pipe.flags.badgrp), field (·.pipe.flags.cfgerr)⟩

end Sys2Proof.Machine

/-! 20_memory.md R63, R64, R76: a word as four bytes, the indices of a period, and that a step drains the internal
channels. -/

namespace Sys2Proof

/-! ### Byte order (R63) -/

/-- The bytes are the word's digits in base 256, the lowest first. -/
theorem wordBytes_toNat (w : Word) :
    (wordBytes w).map BitVec.toNat
      = [w.toNat % 256, w.toNat / 256 % 256, w.toNat / 65536 % 256, w.toNat / 16777216] := by
  have hw := w.isLt
  have htop : w.toNat / 16777216 % 256 = w.toNat / 16777216 := by omega
  simp [wordBytes, BitVec.extractLsb'_toNat, Nat.shiftRight_eq_div_pow, htop]

theorem bytesWord_wordBytes (w : Word) :
    bytesWord (w.extractLsb' 0 8) (w.extractLsb' 8 8) (w.extractLsb' 16 8) (w.extractLsb' 24 8) = w := by
  have hhigh : w.extractLsb' 24 8 ++ w.extractLsb' 16 8 = w.extractLsb' 16 16 :=
    BitVec.extractLsb'_append_extractLsb'_eq_extractLsb' rfl
  have hmid : w.extractLsb' 16 16 ++ w.extractLsb' 8 8 = w.extractLsb' 8 24 :=
    BitVec.extractLsb'_append_extractLsb'_eq_extractLsb' rfl
  have hlow : w.extractLsb' 8 24 ++ w.extractLsb' 0 8 = w.extractLsb' 0 32 :=
    BitVec.extractLsb'_append_extractLsb'_eq_extractLsb' rfl
  rw [bytesWord, hhigh, hmid, hlow, BitVec.extractLsb'_eq_self]

/-- Decoding a stream that begins with the bytes of a word is decoding the word. -/
theorem decodeBytes_wordBytes_append (w : Word) (t delta : ℚ) (rest : List (BitVec 8)) :
    decodeBytes t delta (wordBytes w ++ rest) = (decode ⟨w, t, delta⟩).map fun i => (i, rest) := by
  simp only [wordBytes, List.cons_append, List.nil_append, decodeBytes, bytesWord_wordBytes]
  cases decode ⟨w, t, delta⟩ <;> rfl

/-- Settles O4: the bytes are base-256 digits, and put together again they are the word. -/
theorem bytesAreLittleEndian : Obligations.BytesAreLittleEndian := by
  intro w t delta rest
  exact ⟨wordBytes_toNat w, decodeBytes_wordBytes_append w t delta rest⟩

end Sys2Proof

namespace Sys2Proof.Machine

/-! ### The indices of a period (R64, 40_pipeline_control.md R117) -/

theorem Cfg.sps_nonneg (c : Cfg) : 0 ≤ c.sps := by
  rw [Cfg.sps, quotient]
  positivity

/-- What a START in mode CAT has checked of the period length (40_pipeline_control.md R117). -/
theorem periodLegal_of_legal_cat {c : Cfg} (h : c.legal .cat = true) : ⌊c.sps / 2⌋ + 1 ≤ ⌈c.sps⌉ - 2 := by
  simp only [Cfg.legal, periodLegal, Bool.and_eq_true, decide_eq_true_eq] at h
  obtain ⟨⟨-, hperiod⟩, -⟩ := h
  exact hperiod

theorem offset_nonneg {n : ℚ} (hn : 0 ≤ n) (j : Fin 3) : 0 ≤ offset n j := by
  rw [offset]
  positivity

/-- The last of the three offsets is half a period. -/
theorem offset_le_half {n : ℚ} (hn : 0 ≤ n) (j : Fin 3) : offset n j ≤ n / 2 := by
  have hj : (j.val : ℚ) ≤ 2 := by exact_mod_cast Nat.le_of_lt_succ j.isLt
  have := mul_le_mul_of_nonneg_right hj hn
  rw [offset]
  linarith

/-- The clock recovery shortens a period by at most one sample (44_categorizing_demodulator.md R202). -/
theorem ceil_sub_one_le_pullCount (n : ℚ) (sh : Shift) : ⌈n⌉ - 1 ≤ pullCount n sh := by
  rw [pullCount]
  cases sh <;> simp only [Shift.toInt] <;> omega

/-- Settles O42: the largest index is at `floor(N/2)`, and the START check leaves its successor two below `ceil(N)`,
where the shortest period ends one below. -/
theorem periodIndicesInRange : Obligations.PeriodIndicesInRange := by
  intro c sh j h
  have hfloor : ⌊offset c.sps j⌋ ≤ ⌊c.sps / 2⌋ := Int.floor_le_floor (offset_le_half c.sps_nonneg j)
  have hlegal := periodLegal_of_legal_cat h
  have hpull := ceil_sub_one_le_pullCount c.sps sh
  exact ⟨Int.floor_nonneg.mpr (offset_nonneg c.sps_nonneg j), by omega⟩

/-! ### The internal channels after a step (R76) -/

/-- A word that feeds a unit settles; no other pushes to an internal channel. -/
theorem WordEffect.drained {f : State → State} (hf : WordEffect f) {s : State} (hd : s.ch.internalEmpty = true) :
    (f s).ch.internalEmpty = true := by
  cases hf with
  | fed => exact settle_drains _
  | _ => exact hd

/-- A word other than RESET has one of the effects of a word. -/
theorem exists_wordEffect_of_exec {i : Instr} {s t : State} (hi : i ≠ .reset) (he : exec i s = .next t) :
    ∃ f, WordEffect f ∧ t = f s := by
  obtain ⟨op, hop, hcommon⟩ := exec_commonEffect hi
  obtain ⟨f, hf, hfs⟩ := hcommon s.core
  have hop_eq : op s = t := Host.Outcome.next.inj ((hop s).symm.trans he)
  exact ⟨f, hf, hop_eq.symm.trans (hfs s rfl)⟩

theorem exec_drained {i : Instr} {s t : State} (hd : s.ch.internalEmpty = true) (he : exec i s = .next t) :
    t.ch.internalEmpty = true := by
  by_cases hi : i = .reset
  · subst hi
    obtain rfl := Host.Outcome.next.inj he
    rfl
  · obtain ⟨f, hf, rfl⟩ := exists_wordEffect_of_exec hi he
    exact hf.drained hd

/-- Settles O12: a step from waiting tokens settles them; a step that takes a word starts drained, and its word keeps
that. -/
theorem stepLeavesChannelsDrained : Obligations.StepLeavesChannelsDrained := by
  intro s t he
  obtain ⟨-, rfl⟩ | ⟨hd, -, rfl⟩ | ⟨hd, p, rest, -, ⟨e, -, rfl⟩ | ⟨i, -, hex⟩⟩ := step_cases he
  · exact settle_drains s
  · exact hd
  · exact hd
  · exact exec_drained (s := { s with ch := { s.ch with inp := rest } }) hd hex

end Sys2Proof.Machine

/-! 20_memory.md R72: two units of the EDGE path that both have a token can step in either order. A step there takes a
token from one channel, changes that unit's registers and adds to the ends of other channels. -/

namespace Sys2Proof.Machine

/-! ### What one step of a unit does in mode EDGE, one record each (40_pipeline_control.md R118) -/

/-- ZCD's registers after a token. -/
def Zcd.after (z : Zcd) : Item Int → Zcd
  | .tok v => (z.onSample v).1
  | .fin => z

/-- What ZCD emits for a token. -/
def Zcd.emits (z : Zcd) : Item Int → List (Item Xing)
  | .tok v => (z.onSample v).2.toList.map .tok
  | .fin => [.fin]

/-- ETD's register after a token. -/
def Etd.after (e : Etd) : Item Xing → Etd
  | .tok _ => ⟨e.seq + 1⟩
  | .fin => e

/-- What ETD emits for a token. -/
def etdEmits (c : Cfg) : Item Xing → List (Item BitVal)
  | .tok x => (etdBits c.spb x).map .tok
  | .fin => [.fin]

/-- A token makes ETD report UNC. -/
def etdReports (c : Cfg) : Item Xing → Bool
  | .tok x => uncertain c.spb c.mu x.delta
  | .fin => false

/-- What ETD reports on `DIAG` for a token. -/
def Etd.diags (e : Etd) (c : Cfg) (x : Item Xing) : List Diag := if etdReports c x then [⟨.unc, e.seq⟩] else []

/-- SD's registers after a token. -/
def Sd.after (d : Sd) : Item BitVal → Sd
  | .tok b => (d.onBit b).1
  | .fin => d

/-- What SD delivers on `OUT` for a token. -/
def Sd.emits (d : Sd) : Item BitVal → List Token
  | .tok b => (d.onBit b).2.toList.map .sym
  | .fin => [.fin]

/-- A token makes SD report BADGRP. -/
def Sd.reports (d : Sd) : Item BitVal → Bool
  | .tok b => decide ((d.onBit b).2 = some .undec)
  | .fin => false

/-- What SD reports on `DIAG` for a token. -/
def Sd.diags (d : Sd) (y : Item BitVal) : List Diag := if d.reports y then [⟨.badgrp, d.pos⟩] else []

/-- In mode EDGE, ZCD takes the token `i` and leaves `rest`. -/
def zcdTakes (i : Item Int) (rest : List (Item Int)) (s : State) : State :=
  { s with
    zcd := s.zcd.after i
    ch := { s.ch with
      zcdIn := rest
      etdIn := s.ch.etdIn ++ s.zcd.emits i
      tapX := s.ch.tapX ++ s.zcd.emits i } }

/-- In mode EDGE, ETD takes the token `x` and leaves `rest`. -/
def etdTakes (x : Item Xing) (rest : List (Item Xing)) (s : State) : State :=
  { s with
    pipe := { s.pipe with flags := { s.pipe.flags with unc := s.pipe.flags.unc || etdReports s.cfg x } }
    etd := s.etd.after x
    ch := { s.ch with
      etdIn := rest
      sdIn := s.ch.sdIn ++ etdEmits s.cfg x
      tapB := s.ch.tapB ++ etdEmits s.cfg x
      diag := s.ch.diag ++ s.etd.diags s.cfg x } }

/-- SD takes the token `y` and leaves `rest`. -/
def sdTakes (y : Item BitVal) (rest : List (Item BitVal)) (s : State) : State :=
  { s with
    pipe := { s.pipe with
      st := if y = .fin then .done else s.pipe.st
      flags := { s.pipe.flags with badgrp := s.pipe.flags.badgrp || s.sd.reports y } }
    sd := s.sd.after y
    ch := { s.ch with
      sdIn := rest
      out := s.ch.out ++ s.sd.emits y
      diag := s.ch.diag ++ s.sd.diags y } }

section EdgeSteps

variable {s : State}

theorem stepUnit_zcd_edge {i : Item Int} {rest : List (Item Int)} (hi : s.ch.zcdIn = i :: rest)
    (hm : s.pipe.mode = .edge) : stepUnit .zcd s = zcdTakes i rest s := by
  simp only [stepUnit, stepZcd]
  rw [hi]
  cases i <;> simp only [zcdRule_tok, zcdRule_fin, if_pos hm, List.append_nil] <;> rfl

theorem stepUnit_etd_edge {x : Item Xing} {rest : List (Item Xing)} (hx : s.ch.etdIn = x :: rest)
    (hm : s.pipe.mode = .edge) : stepUnit .etd s = etdTakes x rest s := by
  simp only [stepUnit, stepEtd]
  rw [hx]
  cases x with
  | tok x =>
    simp only [etdRule_tok, if_pos hm, List.append_nil]
    rfl
  | fin => simp [etdRule_fin, if_pos hm, etdTakes, Etd.after, etdEmits, etdReports, Etd.diags]

theorem stepUnit_sd {y : Item BitVal} {rest : List (Item BitVal)} (hy : s.ch.sdIn = y :: rest) :
    stepUnit .sd s = sdTakes y rest s := by
  simp only [stepUnit, stepSd]
  rw [hy]
  cases y <;> simp [sdRule_tok, sdRule_fin, sdTakes, Sd.after, Sd.emits, Sd.reports, Sd.diags]

/-! ### Two orders of two steps (R72) -/

/-- Two states that differ in nothing but the order in which `DIAG` grew beyond `base`. -/
def SameButDiagOrder (base : List Diag) (t₁ t₂ : State) : Prop :=
  ∃ ds es, t₁.ch.diag = base ++ ds ∧ ds.Perm es ∧ t₂ = { t₁ with ch := { t₁.ch with diag := base ++ es } }

theorem SameButDiagOrder.symm {base : List Diag} {t₁ t₂ : State} (h : SameButDiagOrder base t₁ t₂) :
    SameButDiagOrder base t₂ t₁ := by
  obtain ⟨ds, es, hds, hperm, rfl⟩ := h
  exact ⟨es, ds, rfl, hperm.symm, by rw [← hds]⟩

/-- ZCD adds to the end of the channel that ETD takes from. -/
theorem zcd_etd_commute (hm : s.pipe.mode = .edge) (hz : 0 < s.ch.waiting .zcd) (he : 0 < s.ch.waiting .etd) :
    SameButDiagOrder s.ch.diag (stepUnit .etd (stepUnit .zcd s)) (stepUnit .zcd (stepUnit .etd s)) := by
  obtain ⟨i, is, hi⟩ := List.exists_cons_of_length_pos hz
  obtain ⟨x, xs, hx⟩ := List.exists_cons_of_length_pos he
  have hx' : (zcdTakes i is s).ch.etdIn = x :: (xs ++ s.zcd.emits i) := congrArg (· ++ s.zcd.emits i) hx
  have hi' : (etdTakes x xs s).ch.zcdIn = i :: is := hi
  rw [stepUnit_zcd_edge hi hm, stepUnit_etd_edge hx' hm, stepUnit_etd_edge hx hm, stepUnit_zcd_edge hi' hm]
  exact ⟨_, _, rfl, .refl _, rfl⟩

/-- ZCD and SD have no channel in common. -/
theorem zcd_sd_commute (hm : s.pipe.mode = .edge) (hz : 0 < s.ch.waiting .zcd) (hd : 0 < s.ch.waiting .sd) :
    SameButDiagOrder s.ch.diag (stepUnit .sd (stepUnit .zcd s)) (stepUnit .zcd (stepUnit .sd s)) := by
  obtain ⟨i, is, hi⟩ := List.exists_cons_of_length_pos hz
  obtain ⟨y, ys, hy⟩ := List.exists_cons_of_length_pos hd
  have hy' : (zcdTakes i is s).ch.sdIn = y :: ys := hy
  have hi' : (sdTakes y ys s).ch.zcdIn = i :: is := hi
  rw [stepUnit_zcd_edge hi hm, stepUnit_sd hy', stepUnit_sd hy, stepUnit_zcd_edge hi' hm]
  exact ⟨_, _, rfl, .refl _, rfl⟩

/-- ETD adds to the end of the channel that SD takes from, and both may report. -/
theorem etd_sd_commute (hm : s.pipe.mode = .edge) (he : 0 < s.ch.waiting .etd) (hd : 0 < s.ch.waiting .sd) :
    SameButDiagOrder s.ch.diag (stepUnit .sd (stepUnit .etd s)) (stepUnit .etd (stepUnit .sd s)) := by
  obtain ⟨x, xs, hx⟩ := List.exists_cons_of_length_pos he
  obtain ⟨y, ys, hy⟩ := List.exists_cons_of_length_pos hd
  have hy' : (etdTakes x xs s).ch.sdIn = y :: (ys ++ etdEmits s.cfg x) := congrArg (· ++ etdEmits s.cfg x) hy
  have hx' : (sdTakes y ys s).ch.etdIn = x :: xs := hx
  rw [stepUnit_etd_edge hx hm, stepUnit_sd hy', stepUnit_sd hy, stepUnit_etd_edge hx' hm]
  refine ⟨_, _, List.append_assoc .., List.perm_append_comm, ?_⟩
  simp only [etdTakes, sdTakes, List.append_assoc]

end EdgeSteps

theorem mem_modePath_edge (u : UnitId) : u ∈ modePath .edge ↔ u = .zcd ∨ u = .etd ∨ u = .sd := by simp [modePath]

/-- Settles O13: one lemma for each two units of the path, and the order of the two is a symmetry. -/
theorem edgeUnitStepsCommute : Obligations.EdgeUnitStepsCommute := by
  intro s u v hm hu hv hne hwu hwv
  obtain rfl | rfl | rfl := (mem_modePath_edge u).mp hu <;> obtain rfl | rfl | rfl := (mem_modePath_edge v).mp hv
  · exact absurd rfl hne
  · exact zcd_etd_commute hm hwu hwv
  · exact zcd_sd_commute hm hwu hwv
  · exact (zcd_etd_commute hm hwv hwu).symm
  · exact absurd rfl hne
  · exact etd_sd_commute hm hwu hwv
  · exact (zcd_sd_commute hm hwv hwu).symm
  · exact (etd_sd_commute hm hwv hwu).symm
  · exact absurd rfl hne

end Sys2Proof.Machine

/-! 30_encoding.md: the decoder and the encoder undo each other, and both agree with the mask-and-match rows of R105. -/

namespace Sys2Proof

/-! ### Decoding a written word (R89 to R99) -/

theorem immField_packWord_toNat (op a : BitVec 4) {n : Nat} (hn : n < 16777216) :
    (immField (packWord op a (BitVec.ofNat 24 n))).toNat = n := by
  rw [immField_packWord, BitVec.toNat_ofNat]
  exact Nat.mod_eq_of_lt hn

theorem decodePlain_packWord (i : Instr) (op : BitVec 4) : decodePlain i (packWord op 0 0) = .ok i := by
  simp [decodePlain]

theorem decodeCode_packWord {α : Type} {width : Nat} {of : Nat → Option α} (build : α → Instr) (op : BitVec 4) {n : Nat}
    {x : α} (hwidth : width ≤ 24) (hn : n < 2 ^ width) (hof : of n = some x) :
    decodeCode width of build (packWord op 0 (BitVec.ofNat 24 n)) = .ok (build x) := by
  have himm := immField_packWord_toNat op 0 (hn.trans_le (Nat.pow_le_pow_right (by decide) hwidth))
  rw [decodeCode, if_pos ⟨aField_packWord .., by rwa [himm]⟩, himm, hof]

theorem sampleInRange_iff (v : Int) : sampleInRange v = true ↔ -8388608 ≤ v ∧ v ≤ 8388607 := by simp [sampleInRange]

/-- An immediate carries every sample of R80's range, sign extended (R90). -/
theorem toInt_ofInt_of_sampleInRange {v : Int} (h : sampleInRange v = true) : (BitVec.ofInt 24 v).toInt = v := by
  obtain ⟨hlow, hhigh⟩ := (sampleInRange_iff v).mp h
  exact BitVec.toInt_ofInt_eq_self (by decide) hlow (Int.lt_add_one_of_le hhigh)

theorem decodeSample_packWord (op : BitVec 4) {v : Int} (h : sampleInRange v = true) :
    decodeSample (packWord op 0 (BitVec.ofInt 24 v)) = .ok (.sample v) := by
  simp [decodeSample, toInt_ofInt_of_sampleInRange h]

theorem decodeXing_packWord (op : BitVec 4) (d : Dir) (t : ℚ) {delta : ℚ} (h : 0 ≤ delta) :
    decodeXing ⟨packWord op 0 (BitVec.ofNat 24 d.code), t, delta⟩ = .ok (.xing d t delta) := by
  rw [decodeXing, if_pos h]
  exact decodeCode_packWord _ op (by decide) d.code_lt d.ofCode_code

/-- Settles O1: the opcode selects the part of the decoder that reads what the encoder wrote for that instruction. -/
theorem decodeOfEncode : Obligations.DecodeOfEncode := by
  intro i hwf
  cases i with
  | nop | reset | endOfStream => exact decodePlain_packWord _ _
  | cfgwr | diag => simp [decode, encode, plainWord]
  | start m => simpa [decode, encode, plainWord] using decodeCode_packWord .start 3 (by decide) m.code_lt m.ofCode_code
  | sample v => simpa [decode, encode, plainWord] using decodeSample_packWord 5 hwf
  | xing d t delta => simpa [decode, encode] using decodeXing_packWord 6 d t (of_decide_eq_true hwf)
  | bit v => simpa [decode, encode, plainWord] using decodeCode_packWord .bit 7 (by decide) v.code_lt v.ofCode_code
  | sym s => simpa [decode, encode, plainWord] using decodeCode_packWord .sym 8 (by decide) s.code_lt s.ofCode_code

/-! ### Writing a decoded word (R89, R101) -/

/-- The instruction is one a word can carry, the encoder writes it as the port word's word, and for XING as the whole port
word. -/
def Instr.WrittenAs (i : Instr) (p : PortWord) : Prop :=
  i.wellFormed = true ∧ (encode i).word = p.word ∧ ∀ d t delta, i = .xing d t delta → encode i = p

/-- Only a XING word has sidebands to keep. -/
theorem Instr.WrittenAs.of_word {i : Instr} {p : PortWord} (hwf : i.wellFormed = true) (hword : (encode i).word = p.word)
    (hxing : ∀ d t delta, i ≠ .xing d t delta) : i.WrittenAs p :=
  ⟨hwf, hword, fun d t delta h => absurd h (hxing d t delta)⟩

theorem packWord_of_decodePlain {i j : Instr} {w : Word} {op : BitVec 4} (hop : opField w = op)
    (h : decodePlain i w = .ok j) : j = i ∧ packWord op 0 0 = w := by
  obtain ⟨ha, himm, rfl⟩ := decodePlain_ok h
  exact ⟨rfl, word_of_fields hop ha himm⟩

theorem packWord_of_decodeCode {α : Type} {width : Nat} {of : Nat → Option α} {code : α → Nat} {build : α → Instr}
    {w : Word} {op : BitVec 4} {i : Instr} (hcode : ∀ {n x}, of n = some x → n = code x) (hop : opField w = op)
    (h : decodeCode width of build w = .ok i) : ∃ x, i = build x ∧ packWord op 0 (BitVec.ofNat 24 (code x)) = w := by
  obtain ⟨x, ha, -, hx, rfl⟩ := decodeCode_ok h
  exact ⟨x, rfl, word_of_fields hop ha (immField_eq_ofNat (hcode hx ▸ (immField w).isLt) (hcode hx))⟩

theorem sampleInRange_toInt (x : BitVec 24) : sampleInRange x.toInt = true :=
  (sampleInRange_iff _).mpr ⟨x.le_toInt, Int.le_of_lt_add_one x.toInt_lt⟩

theorem writtenAs_of_decodeSample {p : PortWord} {i : Instr} (hop : opField p.word = 5)
    (h : decodeSample p.word = .ok i) : i.WrittenAs p := by
  obtain ⟨ha, rfl⟩ := decodeSample_ok h
  exact .of_word (sampleInRange_toInt _) (word_of_fields hop ha (BitVec.ofInt_toInt).symm) (by simp)

theorem writtenAs_of_decodeXing {p : PortWord} {i : Instr} (hop : opField p.word = 6) (h : decodeXing p = .ok i) :
    i.WrittenAs p := by
  obtain ⟨hdelta, hcode⟩ := decodeXing_ok h
  obtain ⟨d, rfl, hword⟩ := packWord_of_decodeCode Dir.code_of_ofCode hop hcode
  have hp : encode (.xing d p.t p.delta) = p := by rw [encode, hword]
  exact ⟨decide_eq_true hdelta, congrArg PortWord.word hp, fun _ _ _ _ => hp⟩

/-- The part of the decoder that an opcode selects accepts only what the encoder writes with that opcode. -/
theorem writtenAs_of_decode {p : PortWord} {i : Instr} (h : decode p = .ok i) : i.WrittenAs p := by
  unfold decode at h
  split at h
  case h_1 hop | h_2 hop | h_5 hop =>
    obtain ⟨rfl, hword⟩ := packWord_of_decodePlain (opField_eq_ofNat (by decide) hop) h
    exact .of_word rfl hword (by simp)
  case h_3 hop | h_10 hop =>
    obtain rfl := Except.ok.inj h
    exact .of_word rfl (word_of_fields (opField_eq_ofNat (by decide) hop) rfl rfl) (by simp)
  case h_4 hop =>
    obtain ⟨m, rfl, hword⟩ := packWord_of_decodeCode Mode.code_of_ofCode (opField_eq_ofNat (by decide) hop) h
    exact .of_word rfl hword (by simp)
  case h_6 hop => exact writtenAs_of_decodeSample (opField_eq_ofNat (by decide) hop) h
  case h_7 hop => exact writtenAs_of_decodeXing (opField_eq_ofNat (by decide) hop) h
  case h_8 hop =>
    obtain ⟨v, rfl, hword⟩ := packWord_of_decodeCode BitVal.code_of_ofCode (opField_eq_ofNat (by decide) hop) h
    exact .of_word rfl hword (by simp)
  case h_9 hop =>
    obtain ⟨s, rfl, hword⟩ := packWord_of_decodeCode Sym.code_of_ofCode (opField_eq_ofNat (by decide) hop) h
    exact .of_word rfl hword (by simp)
  case h_11 => cases h

/-- Settles O2: by the opcode of the word. -/
theorem encodeOfDecode : Obligations.EncodeOfDecode := fun _ _ h => writtenAs_of_decode h

/-! ### The mask-and-match rows (R105) -/

/-- The word of every instruction lies in the row of its mnemonic. -/
theorem encodesInRow (i : Instr) : Laws.EncodesInRow.Statement i := by
  cases i with
  | nop => exact Laws.EncodesInRow.nop
  | reset => exact Laws.EncodesInRow.reset
  | cfgwr n val => exact Laws.EncodesInRow.cfgwr n val
  | start m => exact Laws.EncodesInRow.start m
  | endOfStream => exact Laws.EncodesInRow.endOfStream
  | sample v => exact Laws.EncodesInRow.sample v
  | xing d t delta => exact Laws.EncodesInRow.xing d t delta
  | bit v => exact Laws.EncodesInRow.bit v
  | sym s => exact Laws.EncodesInRow.sym s
  | diag kind seq => exact Laws.EncodesInRow.diag kind seq

theorem decoded_in_row {p : PortWord} {i : Instr} (h : decode p = .ok i) :
    ∃ r ∈ maskRows, r.mnemonic = i.mnemonic ∧ r.covers p.word = true := by
  obtain ⟨-, hword, -⟩ := writtenAs_of_decode h
  rw [← hword]
  exact encodesInRow i

/-- The bits of the opcode. -/
def opMask : Word := 0xF0000000

/-- Every row fixes the whole opcode and asks for 0 in every other bit it fixes. -/
theorem opMask_of_mem_maskRows :
    ∀ r ∈ maskRows, r.mask &&& opMask = opMask ∧ r.pattern &&& opMask = r.pattern := by decide

/-- A covered word has the opcode of its row. -/
theorem and_opMask_of_covers {r : MaskRow} {w : Word} (hr : r ∈ maskRows) (h : r.covers w = true) :
    w &&& opMask = r.pattern := by
  obtain ⟨hmask, hpattern⟩ := opMask_of_mem_maskRows r hr
  have hw : w &&& r.mask = r.pattern := beq_iff_eq.mp h
  calc w &&& opMask = w &&& r.mask &&& opMask := by rw [BitVec.and_assoc, hmask]
    _ = r.pattern := by rw [hw, hpattern]

/-- No two rows have one opcode. -/
theorem maskRows_pattern_injective :
    ∀ r₁ ∈ maskRows, ∀ r₂ ∈ maskRows, r₁.pattern = r₂.pattern → r₁ = r₂ := by decide

/-- Settles O3: a decoded word is the encoder's, which lies in its row; and two rows of one word have its opcode. -/
theorem decodeFollowsMaskRows : Obligations.DecodeFollowsMaskRows := by
  refine ⟨fun p i => decoded_in_row, fun p hno => ?_, fun w r₁ h₁ r₂ h₂ hc₁ hc₂ => ?_⟩
  · cases hdec : decode p with
    | error e => exact ⟨e, rfl⟩
    | ok i =>
      obtain ⟨r, hr, -, hcov⟩ := decoded_in_row hdec
      exact absurd hcov (by simp [hno r hr])
  · exact maskRows_pattern_injective r₁ h₁ r₂ h₂ ((and_opMask_of_covers h₁ hc₁).symm.trans (and_opMask_of_covers h₂ hc₂))

end Sys2Proof

namespace Sys2Proof.Machine

/-! ### DIAG on `IN` (R99, R101) -/

/-- Settles O9: the meaning of DIAG is the refusal of the word, in every state. -/
theorem diagWordIsRefused : Obligations.DiagWordIsRefused := by
  intro kind seq s
  have hmeaning : exec (.diag kind seq) s = .next s.refuseWord := rfl
  rw [hmeaning, refuseWord_eq]

end Sys2Proof.Machine

/-! 40_pipeline_control.md: taking a word, the words that are refused, the host words, routing, the transitions of a
pass and the EDGE pass as the composition of its stages. -/

namespace Sys2Proof.Machine

/-! ### Taking a word (R111) -/

theorem step_eq_runWord {s : State} {p : PortWord} {rest : List PortWord} (hd : s.ch.internalEmpty = true)
    (hin : s.ch.inp = p :: rest) : step s = runWord p { s with ch := { s.ch with inp := rest } } := by
  rw [step, State.blockStep, if_pos hd, State.pipeStep]
  simp only [hin]

/-- Settles O6: a drained block takes the oldest word and runs it. -/
theorem stepRunsDecodedWord : Obligations.StepRunsDecodedWord := by
  intro s p rest i hd hin hdec
  rw [step_eq_runWord hd hin, runWord, hdec]

/-- Settles O7: the word taken is refused, and a refusal is the count, ILLOP and the diagnostic. -/
theorem stepRefusesIllegalForm : Obligations.StepRefusesIllegalForm := by
  intro s p rest e hd hin hdec
  rw [step_eq_runWord hd hin, runWord, hdec, ← refuseWord_eq]

/-! ### Words that are refused (R122, 30_encoding.md R101) -/

theorem not_cfgWritable_iff (n : BitVec 4) (val : BitVec 24) :
    ¬ cfgWritable n val = true ↔
      13 ≤ n.toNat ∨ (n.toNat = 6 ∧ 1 < val.toNat) ∨ (n.toNat = 12 ∧ 2 ^ 23 - 1 < val.toNat) := by
  rw [cfgWritable_iff]
  omega

theorem exec_cfgwr_refused {n : BitVec 4} {val : BitVec 24} {s : State}
    (h : s.pipe.st = .run ∨ ¬ cfgWritable n val = true) : exec (.cfgwr n val) s = .next s.afterRefusal := by
  by_cases hrun : s.pipe.st = .run
  · simp only [exec, execCfgwr, if_pos hrun, refuseWord_eq]
  · simp only [exec, execCfgwr, if_neg hrun, if_neg (h.resolve_left hrun), refuseWord_eq]

theorem exec_start_refused {m : Mode} {s : State} (h : s.pipe.st = .run) :
    exec (.start m) s = .next s.afterRefusal := by
  simp only [exec, execStart, if_pos h, refuseWord_eq]

theorem exec_endOfStream_refused {s : State} (h : s.pipe.st ≠ .run) :
    exec .endOfStream s = .next s.afterRefusal := by
  simp only [exec, execEndOfStream, if_neg h, refuseWord_eq]

/-- A stream word is refused where the pass does not run in one of the modes of its kind. -/
theorem streamWord_refused {k : StreamKind} {ms : List Mode} {s : State} (hms : ∀ m, streamKind m = k → m ∈ ms)
    (h : ¬ streamLegal s ms) (feed : State → State) : streamWord k feed s = s.afterRefusal := by
  have hacc : ¬ s.accepts k = true := fun ha =>
    have ⟨hrun, hkind⟩ := (accepts_iff s k).mp ha
    h ⟨hrun, hms _ hkind⟩
  rw [streamWord, if_neg hacc, refuseWord_eq]

theorem exec_sample_refused {v : Int} {s : State} (h : ¬ streamLegal s [.edge, .cat, .zcdOnly]) :
    exec (.sample v) s = .next s.afterRefusal :=
  congrArg Host.Outcome.next (streamWord_refused (by intro m; cases m <;> decide) h _)

/-- Settles O8: by the word, each with its own condition. -/
theorem illegalWordIsRefused : Obligations.IllegalWordIsRefused := by
  intro i s h
  cases i with
  | nop | reset => exact h.elim
  | cfgwr n val => exact exec_cfgwr_refused (h.imp_right (not_cfgWritable_iff n val).mpr)
  | start m => exact exec_start_refused h
  | endOfStream => exact exec_endOfStream_refused h
  | sample v => exact exec_sample_refused h
  | xing d t delta => exact congrArg Host.Outcome.next (streamWord_refused (by intro m; cases m <;> decide) h _)
  | bit b => exact congrArg Host.Outcome.next (streamWord_refused (by intro m; cases m <;> decide) h _)
  | sym y =>
    cases y with
    | letter l => exact congrArg Host.Outcome.next (streamWord_refused (by intro m; cases m <;> decide) h _)
    | undec => exact congrArg Host.Outcome.next (refuseWord_eq s)
  | diag kind seq => exact diagWordIsRefused kind seq s

/-! ### NOP, RESET and CFGWR (R112 to R114) -/

/-- Settles O14: the meaning of NOP is the count. -/
theorem nopIsOnlyCounted : Obligations.NopIsOnlyCounted := fun _ => rfl

/-- Settles O15: the reset values are these literals. -/
theorem resetWordRestoresEverything : Obligations.ResetWordRestoresEverything := fun _ => rfl

theorem exec_cfgwr_accepted {n : BitVec 4} {val : BitVec 24} {s : State} (hst : s.pipe.st ≠ .run)
    (hw : cfgWritable n val = true) :
    exec (.cfgwr n val) s = .next { s.counted with cfg := s.cfg.write n val } := by
  simp only [exec, execCfgwr, if_neg hst, if_pos hw]
  rfl

/-- Settles O16: an accepted CFGWR is a write to the register file, which changes what one register reads. -/
theorem cfgwrWritesOneRegister : Obligations.CfgwrWritesOneRegister := by
  refine fun n val s => ⟨fun hst hn hthr hamp => ?_, fun h => ?_⟩
  · exact ⟨s.cfg.write n val, exec_cfgwr_accepted hst ((cfgWritable_iff n val).mpr ⟨hn, hthr, hamp⟩),
      s.cfg.read_write_self n val hn, fun m hm => s.cfg.read_write_of_ne val hm⟩
  · exact exec_cfgwr_refused (h.imp_right (not_cfgWritable_iff n val).mpr)

/-! ### START and its check (R116, R117) -/

/-- The period inequality of R117 says that `n` is more than 2 above `floor(n/2)`: up to 3 and at 4 it is not. -/
theorem period_inequality_iff (n : ℚ) : ⌊n / 2⌋ + 1 ≤ ⌈n⌉ - 2 ↔ 4 < n ∨ (3 < n ∧ n < 4) := by
  have hceil : ⌊n / 2⌋ + 1 ≤ ⌈n⌉ - 2 ↔ (⌊n / 2⌋ : ℚ) + 2 < n := by
    have hlt_ceil : ⌊n / 2⌋ + 2 < ⌈n⌉ ↔ (⌊n / 2⌋ : ℚ) + 2 < n := by exact_mod_cast Int.lt_ceil
    rw [← hlt_ceil]
    omega
  have hle : (⌊n / 2⌋ : ℚ) ≤ n / 2 := Int.floor_le _
  have hlt : n / 2 < (⌊n / 2⌋ : ℚ) + 1 := Int.lt_floor_add_one _
  rw [hceil]
  constructor
  · intro h
    have hfloor : 1 ≤ ⌊n / 2⌋ := Int.le_floor.mpr (by push_cast; linarith)
    have hone : (1 : ℚ) ≤ (⌊n / 2⌋ : ℚ) := by exact_mod_cast hfloor
    have hne : n ≠ 4 := by
      rintro rfl
      norm_num at h
    rcases hne.lt_or_gt with h4 | h4
    · exact .inr ⟨by linarith, h4⟩
    · exact .inl h4
  · rintro (h4 | ⟨h3, h4⟩)
    · linarith
    · have hfloor : ⌊n / 2⌋ = 1 := Int.floor_eq_iff.mpr ⟨by push_cast; linarith, by push_cast; linarith⟩
      rw [hfloor]
      push_cast
      linarith

/-- Settles O18: the check of each mode is a conjunction of decided tests, and the period inequality is arithmetic. -/
theorem configurationCheckPerMode : Obligations.ConfigurationCheckPerMode := by
  intro c
  have hthr : (!c.manual || decide (c.thrDen ≠ 0)) = true ↔ (c.thrCtl.getLsbD 0 = true → c.thrDen ≠ 0) := by
    simp only [Cfg.manual]
    cases c.thrCtl.getLsbD 0 <;> simp
  refine ⟨?_, ?_, ?_, ?_, rfl, rfl, period_inequality_iff c.sps⟩
  · simp only [Cfg.legal, Bool.and_eq_true, decide_eq_true_eq, and_assoc]
  · simp only [Cfg.legal, Bool.and_eq_true, decide_eq_true_eq, and_assoc]
  · simp only [Cfg.legal, periodLegal, Bool.and_eq_true, hthr, decide_eq_true_eq, and_assoc]
  · simp only [Cfg.legal, Bool.and_eq_true, decide_eq_true_eq]

theorem exec_start_configError {m : Mode} {s : State} (hst : s.pipe.st ≠ .run) (hl : ¬ s.cfg.legal m = true) :
    exec (.start m) s = .next (s.countWord.report .cfgerr s.pipe.wc) := by
  simp only [exec, execStart, if_neg hst, if_neg hl]
  rfl

/-- Settles O19: the three outcomes of START, and what each leaves written out. -/
theorem startBeginsPass : Obligations.StartBeginsPass := by
  refine fun m s => ⟨exec_start_refused, fun hst hl => ?_, fun hst hl => ?_⟩
  · exact exec_start_configError hst (by simp [hl])
  · exact exec_start_accepted hst hl

/-! ### END (R120) -/

theorem exec_endOfStream_accepted {s : State} (h : s.pipe.st = .run) :
    exec .endOfStream s = .next s.countWord.feedEnd.settle := by
  simp only [exec, execEndOfStream, if_pos h]

/-- END of a drained state, from the head unit of the mode to `OUT` (R143, R164, R183, R215, R247). -/
theorem settle_feedEnd {s : State} (hd : s.ch.internalEmpty = true) :
    s.feedEnd.settle = { s with
      pipe := { s.pipe with st := .done }
      cd := if s.pipe.mode = .cat then { s.cd with q := [] } else s.cd
      ch := { s.ch with
        out := s.ch.out ++ [.fin]
        tapX := if s.pipe.mode = .edge then s.ch.tapX ++ [.fin] else s.ch.tapX
        tapB := if s.pipe.mode = .edge then s.ch.tapB ++ [.fin] else s.ch.tapB } } := by
  cases hm : s.pipe.mode with
  | edge => simp [State.feedEnd, headUnit, hm, settle_edge_fin s hd hm]
  | cat => simp [State.feedEnd, headUnit, hm, settle_cd s .fin hd, cdRule_fin]
  | synth => simp [State.feedEnd, headUnit, hm, settle_ps s .fin hd, psRule_fin]
  | zcdOnly => simp [State.feedEnd, headUnit, hm, settle_zcd s .fin hd (by simp [hm]), zcdRule_fin]
  | etdOnly => simp [State.feedEnd, headUnit, hm, settle_etd s .fin hd (by simp [hm]), etdRule_fin]
  | sdOnly => simp [State.feedEnd, headUnit, hm, settle_sd s .fin hd, sdRule_fin]

/-- Settles O21: in RUN the token of END is fed to the counted state and settles there. -/
theorem endClosesThePass : Obligations.EndClosesThePass := by
  refine fun s => ⟨exec_endOfStream_refused, fun hrun hd => ?_⟩
  rw [exec_endOfStream_accepted hrun, settle_feedEnd (s := s.countWord) hd]
  rfl

/-! ### SAMPLE in the modes that feed ZCD (R118, R119) -/

/-- Settles O25: the word is ZCD's rule on the counted state, and outside mode EDGE ZCD emits to `OUT`. -/
theorem sampleInZcdOnly : Obligations.SampleInZcdOnly := by
  intro v s hd hrun hm
  rw [exec_sample_zcdOnly v s hd hrun hm, zcdRule_tok]
  simp [hm, State.counted, State.countWord]

theorem exec_sample_edge (v : Int) {s : State} (hrun : s.pipe.st = .run) (hm : s.pipe.mode = .edge) :
    exec (.sample v) s = .next
      (State.settle { s.countWord with ch := { s.ch with zcdIn := s.ch.zcdIn ++ [.tok v] } }) := by
  have hacc : s.accepts .sample = true := (accepts_iff s _).mpr ⟨hrun, by rw [hm]; rfl⟩
  simp only [exec, execSample, streamWord, if_pos hacc, State.feedSample, State.countWord_mode, hm, headUnit,
    State.countWord_ch]

/-- Settles O26: ZCD's crossing runs through ETD and SD of the counted state. -/
theorem sampleCrossingInEdge : Obligations.SampleCrossingInEdge := by
  intro v s x hd hrun hm hb hx
  rw [exec_sample_edge v hrun hm, ← State.countWord_ch, settle_edge_crossing s.countWord v x hd hm hb hx]
  rfl

/-! ### The transitions of a pass (R110) -/

/-- The pass state is `st`, and nothing waits that can change it: no unit has END, and CD has no sample to fail on. -/
structure StaysAt (st : PassState) (s : State) : Prop where
  st : s.pipe.st = st
  zcdIn : .fin ∉ s.ch.zcdIn
  etdIn : .fin ∉ s.ch.etdIn
  sdIn : .fin ∉ s.ch.sdIn
  cdIn : s.ch.cdIn = []
  psIn : .fin ∉ s.ch.psIn

theorem StaysAt.of_drained {s : State} (hd : s.ch.internalEmpty = true) : StaysAt s.pipe.st s := by
  obtain ⟨hzcd, hetd, hsd, hcd, hps⟩ := (internalEmpty_iff _).mp hd
  constructor <;> simp [hzcd, hetd, hsd, hcd, hps]

theorem fin_not_mem_append_toks {α : Type} {l : List (Item α)} (h : .fin ∉ l) (xs : List α) (p : Prop) [Decidable p] :
    .fin ∉ l ++ if p then xs.map .tok else [] := by
  split <;> simp [h]

/-- A fold over data tokens keeps what the rule of a data token keeps. -/
theorem foldl_keep_toks {α : Type} {rule : State → Item α → State} {P : State → Prop} {l : List (Item α)}
    (hrule : ∀ s x, P s → P (rule s (.tok x))) (hl : .fin ∉ l) {s : State} (hs : P s) : P (l.foldl rule s) := by
  induction l generalizing s with
  | nil => exact hs
  | cons i l ih =>
    cases i with
    | tok x => exact ih (List.not_mem_of_not_mem_cons hl) (hrule s x hs)
    | fin => exact absurd List.mem_cons_self hl

section StaysAtRules

variable {st : PassState} {s : State}

theorem StaysAt.zcdRule (h : StaysAt st s) (v : Int) : StaysAt st (zcdRule s (.tok v)) := by
  rw [zcdRule_tok]
  exact ⟨h.st, h.zcdIn, fin_not_mem_append_toks h.etdIn _ _, h.sdIn, h.cdIn, h.psIn⟩

theorem StaysAt.etdRule (h : StaysAt st s) (x : Xing) : StaysAt st (etdRule s (.tok x)) := by
  rw [etdRule_tok]
  exact ⟨h.st, h.zcdIn, h.etdIn, fin_not_mem_append_toks h.sdIn _ _, h.cdIn, h.psIn⟩

theorem StaysAt.sdRule (h : StaysAt st s) (b : BitVal) : StaysAt st (sdRule s (.tok b)) := by
  rw [sdRule_tok]
  exact ⟨h.st, h.zcdIn, h.etdIn, h.sdIn, h.cdIn, h.psIn⟩

theorem StaysAt.psRule (h : StaysAt st s) (l : Letter) : StaysAt st (psRule s (.tok l)) := by
  rw [psRule_tok]
  exact ⟨h.st, h.zcdIn, h.etdIn, h.sdIn, h.cdIn, h.psIn⟩

theorem StaysAt.exhaust (h : StaysAt st s) (u : UnitId) : StaysAt st (exhaust u s) := by
  have ⟨hst, hzcd, hetd, hsd, hcd, hps⟩ := h
  cases u with
  | zcd =>
    rw [exhaust_zcd]
    exact foldl_keep_toks (fun _ v k => k.zcdRule v) hzcd ⟨hst, List.not_mem_nil, hetd, hsd, hcd, hps⟩
  | etd =>
    rw [exhaust_etd]
    exact foldl_keep_toks (fun _ x k => k.etdRule x) hetd ⟨hst, hzcd, List.not_mem_nil, hsd, hcd, hps⟩
  | sd =>
    rw [exhaust_sd]
    exact foldl_keep_toks (fun _ b k => k.sdRule b) hsd ⟨hst, hzcd, hetd, List.not_mem_nil, hcd, hps⟩
  | cd =>
    rw [exhaust_idle .cd s (by simp [Channels.waiting, hcd])]
    exact h
  | ps =>
    rw [exhaust_ps]
    exact foldl_keep_toks (fun _ l k => k.psRule l) hps ⟨hst, hzcd, hetd, hsd, hcd, List.not_mem_nil⟩

theorem StaysAt.settle (h : StaysAt st s) : StaysAt st s.settle :=
  ((((h.exhaust .zcd).exhaust .etd).exhaust .sd).exhaust .cd).exhaust .ps

theorem headUnit_eq_cd {m : Mode} (h : headUnit m = .cd) : m = .cat := by
  cases m <;> simp_all [headUnit]

theorem StaysAt.feedSample (h : StaysAt st s) (hm : s.pipe.mode ≠ .cat) (v : Int) :
    StaysAt st (s.feedSample v) := by
  rw [State.feedSample]
  split
  case h_1 => exact ⟨h.st, by simp [h.zcdIn], h.etdIn, h.sdIn, h.cdIn, h.psIn⟩
  case h_2 hcd => exact absurd (headUnit_eq_cd hcd) hm
  case h_3 => exact h

theorem StaysAt.feedXing (h : StaysAt st s) (x : Xing) : StaysAt st (s.feedXing x) :=
  ⟨h.st, h.zcdIn, by simp [State.feedXing, h.etdIn], h.sdIn, h.cdIn, h.psIn⟩

theorem StaysAt.feedBit (h : StaysAt st s) (b : BitVal) : StaysAt st (s.feedBit b) :=
  ⟨h.st, h.zcdIn, h.etdIn, by simp [State.feedBit, h.sdIn], h.cdIn, h.psIn⟩

theorem StaysAt.feedSym (h : StaysAt st s) (l : Letter) : StaysAt st (s.feedSym l) :=
  ⟨h.st, h.zcdIn, h.etdIn, h.sdIn, h.cdIn, by simp [State.feedSym, h.psIn]⟩

end StaysAtRules

/-- What a word can do to the pass (R110): nothing, or one of the four transitions. -/
inductive PassChange (s t : State) : Instr → Prop
  | kept (i : Instr) (hst : t.pipe.st = s.pipe.st) (hmode : t.pipe.mode = s.pipe.mode) : PassChange s t i
  | reset (hst : t.pipe.st = .idle) (hmode : t.pipe.mode = .edge) : PassChange s t .reset
  | begun (m : Mode) (hrun : s.pipe.st ≠ .run) (hl : s.cfg.legal m = true) (hst : t.pipe.st = .run)
    (hmode : t.pipe.mode = m) : PassChange s t (.start m)
  | ended (hrun : s.pipe.st = .run) (hst : t.pipe.st = .done) (hmode : t.pipe.mode = s.pipe.mode) :
    PassChange s t .endOfStream
  | stopped (v : Int) (hrun : s.pipe.st = .run) (hcat : s.pipe.mode = .cat) (hst : t.pipe.st = .faulted)
    (hmode : t.pipe.mode = .cat) : PassChange s t (.sample v)

theorem PassChange.refused (i : Instr) (s : State) : PassChange s s.afterRefusal i := .kept i rfl rfl

/-- A stream word whose token cannot end or stop the pass. -/
theorem passChange_streamWord (i : Instr) {k : StreamKind} {feed : State → State} {s : State}
    (hkept : ∀ s, Kept s (feed s)) (hfeed : StaysAt s.pipe.st (feed s.countWord)) :
    PassChange s (streamWord k feed s) i := by
  rw [streamWord]
  split
  · exact .kept i hfeed.settle.st ((hkept _).trans (Kept.settle _)).mode
  · exact .refused i s

/-- In CAT the pass stops when CD fails, and goes on otherwise (60_exceptions.md R270). -/
theorem passChange_sample_cat (v : Int) {s : State} (hrun : s.pipe.st = .run) (hm : s.pipe.mode = .cat) :
    PassChange s (cdRule s.countWord (.tok v)) (.sample v) := by
  rw [cdRule_tok]
  cases (s.countWord.cd.onSample s.countWord.cfg.sps v).fatal with
  | none => exact .kept _ rfl rfl
  | some f => exact .stopped v hrun hm rfl hm

theorem passChange_sample (v : Int) {s t : State} (hd : s.ch.internalEmpty = true) (he : exec (.sample v) s = .next t) :
    PassChange s t (.sample v) := by
  by_cases hm : s.pipe.mode = .cat
  · by_cases hrun : s.pipe.st = .run
    · obtain rfl := Host.Outcome.next.inj ((exec_sample_cat v s hd hrun hm).symm.trans he)
      exact passChange_sample_cat v hrun hm
    · obtain rfl := Host.Outcome.next.inj ((exec_sample_refused fun ⟨h, _⟩ => hrun h).symm.trans he)
      exact .refused _ s
  · obtain rfl := Host.Outcome.next.inj he
    exact passChange_streamWord _ (Kept.feedSample · v) (StaysAt.feedSample (s := s.countWord) (.of_drained hd) hm v)

/-- Every word, by its meaning. -/
theorem exec_passChange {i : Instr} {s t : State} (hd : s.ch.internalEmpty = true) (he : exec i s = .next t) :
    PassChange s t i := by
  have hstays : StaysAt s.pipe.st s.countWord := .of_drained (s := s.countWord) hd
  cases i with
  | nop =>
    obtain rfl := Host.Outcome.next.inj he
    exact .kept _ rfl rfl
  | reset =>
    obtain rfl := Host.Outcome.next.inj he
    exact .reset rfl rfl
  | cfgwr n val =>
    obtain rfl := Host.Outcome.next.inj he
    split
    · exact .refused _ s
    · split
      · exact .kept _ rfl rfl
      · exact .refused _ s
  | start m =>
    obtain rfl := Host.Outcome.next.inj he
    split
    case isTrue => exact .refused _ s
    case isFalse hrun =>
      split
      case isTrue hl => exact .begun m hrun hl rfl rfl
      case isFalse => exact .kept _ rfl rfl
  | endOfStream =>
    obtain rfl := Host.Outcome.next.inj he
    split
    case isTrue hrun =>
      rw [settle_feedEnd (s := s.countWord) hd]
      exact .ended hrun rfl rfl
    case isFalse => exact .refused _ s
  | sample v => exact passChange_sample v hd he
  | xing d time delta =>
    obtain rfl := Host.Outcome.next.inj he
    exact passChange_streamWord _ (Kept.feedXing _) (hstays.feedXing _)
  | bit b =>
    obtain rfl := Host.Outcome.next.inj he
    exact passChange_streamWord _ (Kept.feedBit b) (hstays.feedBit b)
  | sym y =>
    cases y with
    | letter l =>
      obtain rfl := Host.Outcome.next.inj he
      exact passChange_streamWord _ (Kept.feedSym l) (hstays.feedSym l)
    | undec =>
      obtain rfl := Host.Outcome.next.inj he
      exact .refused _ s
  | diag kind seq =>
    obtain rfl := Host.Outcome.next.inj he
    exact .refused _ s

/-- Settles O53: a step without a word, and a word that is refused, leave the pass; of the others the word says which
transition it is. -/
theorem passTransitions : Obligations.PassTransitions := by
  intro s t hd he
  obtain ⟨hno, -⟩ | ⟨-, -, rfl⟩ | ⟨-, p, rest, hp, ⟨e, -, rfl⟩ | ⟨i, hdec, hex⟩⟩ := step_cases he
  · simp [hd] at hno
  · exact .inl ⟨rfl, rfl⟩
  · exact .inl ⟨rfl, rfl⟩
  · have htakes : takes s i := ⟨p, rest, hp, hdec⟩
    cases exec_passChange (s := { s with ch := { s.ch with inp := rest } }) hd hex with
    | kept _ hst hmode => exact .inl ⟨hst, hmode⟩
    | reset hst hmode => exact .inr (.inl ⟨htakes, hst, hmode⟩)
    | begun m hrun hl hst hmode => exact .inr (.inr (.inl ⟨hrun, m, htakes, hl, hst, hmode⟩))
    | ended hrun hst hmode => exact .inr (.inr (.inr (.inl ⟨hrun, htakes, hst, hmode⟩)))
    | stopped v hrun hcat hst hmode => exact .inr (.inr (.inr (.inr ⟨hrun, hcat, ⟨v, htakes⟩, hst, hmode⟩)))

/-! ### The configuration in RUN (R114, 70_reset_and_hazards.md R300) -/

theorem cfg_streamWord (k : StreamKind) {feed : State → State} (hkept : ∀ s, Kept s (feed s)) (s : State) :
    (streamWord k feed s).cfg = s.cfg := by
  rw [streamWord]
  split
  · exact ((hkept _).trans (Kept.settle _)).cfg
  · rfl

theorem cfg_exec_of_run {i : Instr} {s t : State} (hi : i ≠ .reset) (hrun : s.pipe.st = .run)
    (he : exec i s = .next t) : t.cfg = s.cfg := by
  cases i with
  | nop | diag =>
    obtain rfl := Host.Outcome.next.inj he
    rfl
  | reset => exact absurd rfl hi
  | cfgwr n val =>
    obtain rfl := Host.Outcome.next.inj ((exec_cfgwr_refused (.inl hrun)).symm.trans he)
    rfl
  | start m =>
    obtain rfl := Host.Outcome.next.inj ((exec_start_refused hrun).symm.trans he)
    rfl
  | endOfStream =>
    obtain rfl := Host.Outcome.next.inj ((exec_endOfStream_accepted hrun).symm.trans he)
    exact ((Kept.feedEnd _).trans (Kept.settle _)).cfg
  | sample v =>
    obtain rfl := Host.Outcome.next.inj he
    exact cfg_streamWord _ (Kept.feedSample · v) s
  | xing d time delta =>
    obtain rfl := Host.Outcome.next.inj he
    exact cfg_streamWord _ (Kept.feedXing _) s
  | bit b =>
    obtain rfl := Host.Outcome.next.inj he
    exact cfg_streamWord _ (Kept.feedBit b) s
  | sym y =>
    cases y with
    | letter l =>
      obtain rfl := Host.Outcome.next.inj he
      exact cfg_streamWord _ (Kept.feedSym l) s
    | undec =>
      obtain rfl := Host.Outcome.next.inj he
      rfl

/-- Settles O55: in RUN CFGWR and START are refused, and no unit writes the configuration. -/
theorem configurationFrozenInRun : Obligations.ConfigurationFrozenInRun := by
  intro s t hd hrun hr he
  obtain ⟨hno, -⟩ | ⟨-, -, rfl⟩ | ⟨-, p, rest, hp, ⟨e, -, rfl⟩ | ⟨i, hdec, hex⟩⟩ := step_cases he
  · simp [hd] at hno
  · rfl
  · rfl
  · have hi : i ≠ .reset := by
      rintro rfl
      exact hr ⟨p, rest, hp, hdec⟩
    exact cfg_exec_of_run (s := { s with ch := { s.ch with inp := rest } }) hi hrun hex

/-! ### The EDGE pass (R123) -/

theorem etdStream_ne_x (spb : ℚ) (xs : List Xing) : ∀ b ∈ etdStream spb xs, b ≠ .x := by
  intro b hb
  obtain ⟨x, -, hbx⟩ := List.mem_flatMap.mp hb
  exact etdBits_ne_x spb x b hbx

/-- A pass in mode EDGE is running, between words, and SD holds no X. -/
structure EdgeReady (s : State) : Prop where
  drained : s.ch.internalEmpty = true
  run : s.pipe.st = .run
  mode : s.pipe.mode = .edge
  binary : s.sd.b1 ≠ .x

/-- From `s` to `t` the three stages took the samples `vs`: ZCD's crossings are on `TAPX`, ETD's bits on `TAPB`, SD's
symbols on `OUT`. -/
structure EdgeTook (vs : List Int) (s t : State) : Prop where
  ready : EdgeReady t
  cfg : t.cfg = s.cfg
  tapX : t.ch.tapX = s.ch.tapX ++ (zcdStream s.zcd vs).map .tok
  tapB : t.ch.tapB = s.ch.tapB ++ (etdStream s.cfg.spb (zcdStream s.zcd vs)).map .tok
  out : t.ch.out = s.ch.out ++ (sdStream s.sd (etdStream s.cfg.spb (zcdStream s.zcd vs))).map .sym

/-- One sample in mode EDGE, whether it completes a crossing or not. -/
theorem exec_sample_edgeReady (v : Int) {s : State} (h : EdgeReady s) :
    ∃ t, exec (.sample v) s = .next t ∧ t.zcd = (s.zcd.onSample v).1 ∧
      t.sd = sdAfter s.sd (etdStream s.cfg.spb (s.zcd.onSample v).2.toList) ∧ EdgeTook [v] s t := by
  obtain ⟨hd, hrun, hm, hb⟩ := h
  cases hx : (s.zcd.onSample v).2 with
  | none =>
    have hq := settle_edge_quiet s.countWord v hd hx
    refine ⟨_, (exec_sample_edge v hrun hm).trans (congrArg _ hq), rfl, rfl, ⟨hd, hrun, hm, hb⟩, rfl, ?_, ?_, ?_⟩ <;>
      simp [zcdStream, hx, etdStream, sdStream]
  | some x =>
    have hbits : etdStream s.cfg.spb [x] = etdBits s.cfg.spb x := List.flatMap_singleton ..
    refine ⟨_, sampleCrossingInEdge v s x hd hrun hm hb hx, rfl, by rw [Option.toList_some, hbits],
      ⟨hd, hrun, hm, sdAfter_binary _ _ hb (etdBits_ne_x _ _)⟩, rfl, ?_, ?_, ?_⟩ <;>
      simp [zcdStream, hx, hbits]

/-- The samples of an EDGE pass, one after another: each stage goes on from the registers it had. -/
theorem runs_samples_edge (vs : List Int) {s : State} (h : EdgeReady s) :
    ∃ t, Runs (vs.map .sample) s t ∧ EdgeTook vs s t := by
  induction vs generalizing s with
  | nil => exact ⟨s, rfl, h, rfl, by simp [zcdStream], by simp [zcdStream, etdStream],
      by simp [zcdStream, etdStream, sdStream]⟩
  | cons v vs ih =>
    obtain ⟨u, hex, hzcd, hsd, hu⟩ := exec_sample_edgeReady v h
    obtain ⟨t, hruns, ht⟩ := ih hu.ready
    refine ⟨t, ⟨u, hex, hruns⟩, ht.ready, ht.cfg.trans hu.cfg, ?_, ?_, ?_⟩
    · simp [ht.tapX, hu.tapX, hzcd, zcdStream]
    · simp [ht.tapB, hu.tapB, hzcd, hu.cfg, zcdStream, etdStream]
    · simp [ht.out, hu.out, hzcd, hsd, hu.cfg, zcdStream, etdStream, sdStream_append]

/-- Settles O59: START leaves the three units at their reset values, the samples run through the stages, and END closes
the pass. -/
theorem edgePassIsComposition : Obligations.EdgePassIsComposition := by
  intro s vs hd hst hl
  have hready : EdgeReady (s.countWord.beginPass .edge) := ⟨hd, rfl, rfl, by simp [Sd.reset]⟩
  obtain ⟨u, hruns, ⟨hdrained, hrun, hm, -⟩, -, htapX, htapB, hout⟩ := runs_samples_edge vs hready
  obtain ⟨-, hend⟩ := endClosesThePass u
  refine ⟨_, ⟨_, exec_start_accepted hst hl, runs_append hruns ⟨_, hend hrun hdrained, rfl⟩⟩, rfl, ?_, ?_, ?_⟩
  · simp [hm, htapX]
  · simp [hm, htapB]
  · simp [hout]

end Sys2Proof.Machine

/-! 41_zero_crossing_detector.md: a sample that completes no crossing, one that does, and the crossings of a pass. -/

namespace Sys2Proof.Machine

/-! ### A sample that completes no crossing (R141, R142) -/

/-- In both modes that feed ZCD such a sample reaches no other unit and no output. -/
theorem exec_sample_quiet {v : Int} {s : State} {z : Zcd} (hd : s.ch.internalEmpty = true) (hrun : s.pipe.st = .run)
    (hm : s.pipe.mode = .edge ∨ s.pipe.mode = .zcdOnly) (hz : s.zcd.onSample v = (z, none)) :
    exec (.sample v) s = .next { s.counted with zcd := z } := by
  rcases hm with hm | hm
  · have hquiet := settle_edge_quiet s.countWord v hd (congrArg Prod.snd hz)
    rw [State.countWord_ch, State.countWord_zcd, hz] at hquiet
    exact (exec_sample_edge v hrun hm).trans (congrArg _ hquiet)
  · rw [sampleInZcdOnly v s hd hrun hm, hz]
    simp [State.counted]

/-- Settles O22: a noise sample completes no crossing. -/
theorem noiseSampleTakesAnIndex : Obligations.NoiseSampleTakesAnIndex :=
  ⟨significant_iff, fun _ s hd hrun hm hv => exec_sample_quiet hd hrun hm (s.zcd.onSample_noise hv)⟩

/-- Settles O23: a significant sample whose sign is no change completes no crossing. -/
theorem sameSignSampleIsRemembered : Obligations.SameSignSampleIsRemembered := fun _ s hd hrun hm =>
  ⟨fun hv hp => exec_sample_quiet hd hrun hm (s.zcd.onSample_pos hv hp),
    fun hv hp => exec_sample_quiet hd hrun hm (s.zcd.onSample_neg hv hp)⟩

/-! ### A sample that completes a crossing (R142) -/

/-- The registers after a crossing at `t` that `here`, the first sample of the new sign, completes. -/
def Zcd.afterCrossing (z : Zcd) (here : Mark) (t : ℚ) : Zcd :=
  ({ z with idx := z.idx + 1, haveX := true, lastT := t }).noteSample here

/-- The delta of a crossing at `t`. -/
def Zcd.deltaAt (z : Zcd) (t : ℚ) : ℚ := if z.haveX then t - z.lastT else 0

theorem Zcd.onSample_falling (z : Zcd) {v : Int} (hv : v ≤ -10) (hp : z.pol = .pos) :
    z.onSample v =
      (z.afterCrossing ⟨z.idx, v⟩ (crossingTime z.lastPos ⟨z.idx, v⟩),
        some ⟨.falling, crossingTime z.lastPos ⟨z.idx, v⟩, z.deltaAt (crossingTime z.lastPos ⟨z.idx, v⟩)⟩) := by
  have hsig : significant v = true := (significant_iff v).mpr (le_abs.mpr (.inr (by omega)))
  have hside : polarityOf v = .neg := polarityOf_neg (by omega)
  simp [Zcd.onSample, hsig, Zcd.crossing, hp, hside, Zcd.noteCrossing, Zcd.afterCrossing, Zcd.noteSample, Zcd.deltaAt]

theorem Zcd.onSample_rising (z : Zcd) {v : Int} (hv : 10 ≤ v) (hp : z.pol = .neg) :
    z.onSample v =
      (z.afterCrossing ⟨z.idx, v⟩ (crossingTime z.lastNeg ⟨z.idx, v⟩),
        some ⟨.rising, crossingTime z.lastNeg ⟨z.idx, v⟩, z.deltaAt (crossingTime z.lastNeg ⟨z.idx, v⟩)⟩) := by
  have hsig : significant v = true := (significant_iff v).mpr (le_abs.mpr (.inl hv))
  have hside : polarityOf v = .pos := polarityOf_pos (by omega)
  simp [Zcd.onSample, hsig, Zcd.crossing, hp, hside, Zcd.noteCrossing, Zcd.afterCrossing, Zcd.noteSample, Zcd.deltaAt]

/-- Settles O24: the time is the model's `crossingTime`, from the last sample of the old sign to this one. -/
theorem transitionGivesCrossing : Obligations.TransitionGivesCrossing := by
  refine fun z v => ⟨fun hv hp => ⟨crossingTime z.lastPos ⟨z.idx, v⟩, rfl, ?_⟩,
    fun hv hp => ⟨crossingTime z.lastNeg ⟨z.idx, v⟩, rfl, ?_⟩⟩
  · rw [z.onSample_falling hv hp, Zcd.afterCrossing, Zcd.noteSample, polarityOf_neg (by simp only; omega), Zcd.deltaAt]
  · rw [z.onSample_rising hv hp, Zcd.afterCrossing, Zcd.noteSample, polarityOf_pos (by simp only; omega), Zcd.deltaAt]

/-! ### The crossings of a pass (R144, R145) -/

/-- The crossing `y` can come after `x` in a pass. -/
structure Xing.Precedes (x y : Xing) : Prop where
  time : x.t < y.t
  dir : x.dir ≠ y.dir
  delta : y.delta = y.t - x.t

/-- The registers know `x` as the last crossing: its time, and its direction as the sign seen since. -/
structure Zcd.Remembers (z : Zcd) (x : Xing) : Prop where
  haveX : z.haveX = true
  lastT : z.lastT = x.t
  pol : z.pol = .pos ↔ x.dir = .rising

theorem Zcd.remembers_of_crossing {z : Zcd} {v : Int} {x : Xing} (hz : ZcdOk z) (hx : (z.onSample v).2 = some x) :
    (z.onSample v).1.Remembers x :=
  have ⟨_, hcrossing, _⟩ := zcdOk_onSample z hz v
  have ⟨hhave, ht, hpol, _⟩ := hcrossing x hx
  ⟨hhave, ht, hpol⟩

theorem Zcd.Remembers.of_quiet {z : Zcd} {v : Int} {x : Xing} (h : z.Remembers x) (hz : ZcdOk z)
    (hx : (z.onSample v).2 = none) : (z.onSample v).1.Remembers x :=
  have ⟨_, _, hquiet⟩ := zcdOk_onSample z hz v
  have ⟨hhave, ht, hpol⟩ := hquiet hx
  ⟨hhave.trans h.haveX, ht.trans h.lastT, by rw [hpol h.haveX, h.pol]⟩

theorem Zcd.Remembers.precedes {z : Zcd} {v : Int} {x y : Xing} (h : z.Remembers x) (hz : ZcdOk z)
    (hy : (z.onSample v).2 = some y) : x.Precedes y := by
  obtain ⟨-, hcrossing, -⟩ := zcdOk_onSample z hz v
  obtain ⟨-, -, -, -, -, hlater⟩ := hcrossing y hy
  obtain ⟨ht, hdelta, hpol⟩ := hlater h.haveX
  rw [h.lastT] at ht hdelta
  refine ⟨ht, fun hdir => ?_, hdelta⟩
  have hswap : x.dir = .rising ↔ y.dir = .falling := h.pol.symm.trans hpol
  rw [hdir] at hswap
  cases hd : y.dir <;> simp [hd] at hswap

theorem zcdStream_cons_quiet {z : Zcd} {v : Int} (hx : (z.onSample v).2 = none) (vs : List Int) :
    zcdStream z (v :: vs) = zcdStream (z.onSample v).1 vs := by
  simp [zcdStream, hx]

theorem zcdStream_cons_crossing {z : Zcd} {v : Int} {x : Xing} (hx : (z.onSample v).2 = some x) (vs : List Int) :
    zcdStream z (v :: vs) = x :: zcdStream (z.onSample v).1 vs := by
  simp [zcdStream, hx]

/-- After a crossing, each next one can come after the one before it. -/
theorem zcdStream_isChain_of_remembers (vs : List Int) {z : Zcd} {x : Xing} (hz : ZcdOk z) (h : z.Remembers x) :
    (x :: zcdStream z vs).IsChain Xing.Precedes := by
  induction vs generalizing z x with
  | nil => exact .singleton x
  | cons v vs ih =>
    have hz' : ZcdOk (z.onSample v).1 := (zcdOk_onSample z hz v).1
    cases hx : (z.onSample v).2 with
    | none =>
      rw [zcdStream_cons_quiet hx]
      exact ih hz' (h.of_quiet hz hx)
    | some y =>
      rw [zcdStream_cons_crossing hx]
      exact .cons_cons (h.precedes hz hx) (ih hz' (Zcd.remembers_of_crossing hz hx))

/-- Before any crossing: the first one will have delta 0, and each next one can come after the one before it. -/
theorem zcdStream_of_no_crossing (vs : List Int) {z : Zcd} (hz : ZcdOk z) (hno : z.haveX = false) :
    (∀ x, (zcdStream z vs)[0]? = some x → x.delta = 0) ∧ (zcdStream z vs).IsChain Xing.Precedes := by
  induction vs generalizing z with
  | nil => exact ⟨nofun, .nil⟩
  | cons v vs ih =>
    obtain ⟨hz', hcrossing, hquiet⟩ := zcdOk_onSample z hz v
    cases hx : (z.onSample v).2 with
    | none =>
      obtain ⟨hhave, -⟩ := hquiet hx
      rw [zcdStream_cons_quiet hx]
      exact ih hz' (hhave.trans hno)
    | some y =>
      obtain ⟨-, -, -, -, hfirst, -⟩ := hcrossing y hx
      rw [zcdStream_cons_crossing hx]
      refine ⟨fun x h0 => ?_, zcdStream_isChain_of_remembers vs hz' (Zcd.remembers_of_crossing hz hx)⟩
      obtain rfl : y = x := Option.some.inj h0
      exact hfirst hno

/-- Settles O27: a pass begins before any crossing; a delta is above 0 because it is the growth of the time. -/
theorem crossingsAlternateAndIncrease : Obligations.CrossingsAlternateAndIncrease := by
  intro vs
  obtain ⟨hfirst, hchain⟩ := zcdStream_of_no_crossing vs zcdOk_reset rfl
  refine ⟨hfirst, fun j x y hx hy => ?_⟩
  obtain ⟨_, rfl⟩ := List.getElem?_eq_some_iff.mp hx
  obtain ⟨hlen, rfl⟩ := List.getElem?_eq_some_iff.mp hy
  obtain ⟨ht, hdir, hdelta⟩ := hchain.getElem j hlen
  exact ⟨ht, hdir, hdelta, hdelta ▸ sub_pos.mpr ht⟩

end Sys2Proof.Machine

/-! 42_edge_timing_demodulator.md: a crossing at ETD, an interval of whole bits, and the bound on the uncertainty. -/

namespace Sys2Proof.Machine

/-! ### XING in mode ETD_ONLY (R162, R163) -/

theorem dirBit_eq (dir : Dir) : dirBit dir = if dir = .rising then .zero else .one := by
  cases dir <;> rfl

theorem bitsInInterval_eq_of_floor {spb delta : ℚ} {n : Nat} (h : (n : Int) = ⌊delta / spb + 1 / 2⌋) :
    bitsInInterval spb delta = n := by
  rw [bitsInInterval, Config.round, ← h, Int.toNat_natCast]

/-- Settles O28: the word is ETD's rule on the counted state, and `n` and `u` are the model's bit count and
uncertainty. -/
theorem xingInEtdOnly : Obligations.XingInEtdOnly := by
  intro dir t delta s n u hd hrun hm _ _ hn hu
  have hbits : bitsInInterval s.cfg.spb delta = n := bitsInInterval_eq_of_floor hn
  have huncertainty : uncertainty s.cfg.spb delta = u := by rw [uncertainty, hbits, hu]
  rw [exec_xing_etdOnly dir t delta s hd hrun hm, etdRule_tok]
  simp [hm, State.countWord, etdBits, hbits, dirBit_eq, uncertain, huncertainty]

/-! ### An interval of exactly `k` bits (R165) -/

theorem bitsInInterval_mul {spb : ℚ} (h : 0 < spb) (k : Nat) : bitsInInterval spb (k * spb) = k := by
  apply bitsInInterval_eq_of_floor
  rw [mul_div_cancel_right₀ _ h.ne', ← round_eq, round_natCast]

theorem uncertainty_mul {spb : ℚ} (h : 0 < spb) (k : Nat) : uncertainty spb (k * spb) = 0 := by
  rw [uncertainty, bitsInInterval_mul h, mul_div_cancel_right₀ _ h.ne', sub_self, zero_div]

/-- Settles O29: rounding the whole number `k` gives `k`, and nothing is left over. -/
theorem exactIntervalGivesExactRun : Obligations.ExactIntervalGivesExactRun := by
  intro spb k x hspb hdelta
  rw [etdBits, hdelta, bitsInInterval_mul hspb, dirBit_eq]
  exact ⟨rfl, uncertainty_mul hspb k⟩

/-! ### The bound on the uncertainty (R163) -/

/-- For an interval that is not negative the model's `ROUND` is the library's `round`. -/
theorem uncertainty_eq_round {spb delta : ℚ} (h : 0 < spb) (hd : 0 ≤ delta) :
    uncertainty spb delta = (round (delta / spb) - delta / spb) / spb := by
  rw [uncertainty, bitsInInterval_cast spb delta h hd, round_eq]

theorem abs_uncertainty_le {spb delta : ℚ} (h : 0 < spb) (hd : 0 ≤ delta) :
    |uncertainty spb delta| ≤ 1 / (2 * spb) := by
  calc |uncertainty spb delta| = |delta / spb - round (delta / spb)| / spb := by
        rw [uncertainty_eq_round h hd, abs_div, abs_of_pos h, abs_sub_comm]
    _ ≤ 1 / 2 / spb := by gcongr; exact abs_sub_round _
    _ = 1 / (2 * spb) := div_div _ _ _

theorem Cfg.mu_reset : Cfg.reset.mu = 1 / 3 := by
  have hnum : Cfg.reset.muNum.toNat = 1 := rfl
  have hden : Cfg.reset.muDen.toNat = 3 := rfl
  simp [Cfg.mu, quotient, hnum, hden]

/-- Settles O30: a rounding is off by at most 1/2, and UNC needs more than `MU`, which is 1/3 at reset. -/
theorem uncertaintyIsBounded : Obligations.UncertaintyIsBounded := by
  refine fun spb delta hspb hd => ⟨abs_uncertainty_le hspb hd, fun hlarge => ?_⟩
  have hmu : 1 / (2 * spb) ≤ Cfg.reset.mu := by
    rw [Cfg.mu_reset]
    gcongr
    linarith
  exact decide_eq_false (not_lt.mpr ((abs_uncertainty_le hspb hd).trans hmu))

end Sys2Proof.Machine

/-! 43_symbol_decoder.md: the bit-pair table, a bit at SD before and after the sync, and the symbols of a pass. -/

namespace Sys2Proof.Machine

/-! ### The bit-pair table (R180) -/

/-- Settles O31: the four binary pairs are rows of the table, and no row takes an X. -/
theorem bitPairTable : Obligations.BitPairTable := by
  refine ⟨rfl, rfl, rfl, rfl, fun b => ⟨rfl, ?_⟩⟩
  cases b <;> rfl

/-! ### BIT in mode SD_ONLY (R177, R181) -/

section BitInSdOnly

variable {b : BitVal} {s : State} (hd : s.ch.internalEmpty = true) (hrun : s.pipe.st = .run)
  (hm : s.pipe.mode = .sdOnly) {d : Sd}

include hd hrun hm

/-- A bit that completes no pair changes nothing but SD and the count. -/
theorem exec_bit_silent (h : s.sd.onBit b = (d, none)) : exec (.bit b) s = .next { s.counted with sd := d } := by
  rw [exec_bit_sdOnly b s hd hrun hm, sdRule_tok]
  simp [h, State.countWord, State.counted]

/-- A bit that completes a pair emits its symbol, and the diagnostic when that is UNDEC. -/
theorem exec_bit_emits {y : Sym} (h : s.sd.onBit b = (d, some y)) :
    exec (.bit b) s = .next
      { s with
        pipe := { s.pipe with
          wc := s.pipe.wc + 1
          flags := { s.pipe.flags with badgrp := s.pipe.flags.badgrp || decide (y = .undec) } }
        sd := d
        ch := { s.ch with
          out := s.ch.out ++ [.sym y]
          diag := s.ch.diag ++ (if y = .undec then [⟨.badgrp, s.sd.pos⟩] else []) } } := by
  rw [exec_bit_sdOnly b s hd hrun hm, sdRule_tok]
  simp [h, State.countWord]

end BitInSdOnly

/-- Settles O32: a bit while hunting emits nothing, whether it syncs or not. -/
theorem bitWhileHunting : Obligations.BitWhileHunting := by
  intro b s hd hrun hm hst
  by_cases hsync : b = .one ∧ s.sd.prev1 = true
  · obtain ⟨rfl, hprev⟩ := hsync
    rw [exec_bit_silent hd hrun hm (s.sd.onBit_sync hst hprev), if_pos ⟨rfl, hprev⟩]
  · rw [exec_bit_silent hd hrun hm (s.sd.onBit_hunt b hst hsync), if_neg hsync]

/-- Settles O33: of the four slots only slot 1 completes a pair. -/
theorem bitOnceSynced : Obligations.BitOnceSynced := fun b s hd hrun hm hst =>
  ⟨fun hslot => exec_bit_silent hd hrun hm (s.sd.onBit_slot0 b hst hslot),
    fun hslot => exec_bit_emits hd hrun hm (s.sd.onBit_slot1 b hst hslot),
    fun hslot => exec_bit_silent hd hrun hm (s.sd.onBit_slot2 b hst hslot),
    fun hslot => exec_bit_silent hd hrun hm (s.sd.onBit_slot3 b hst hslot)⟩

/-! ### The symbols of a pass (R184) -/

/-- Bits without two consecutive 1-bits, the last of them a 1: SD has emitted nothing, and the next 1-bit syncs. -/
theorem sdStream_reset_before_sync {us : List BitVal} (hlast : us.getLast? = some .one)
    (hno : ∀ k, ¬ (us[k]? = some .one ∧ us[k + 1]? = some .one)) :
    sdStream Sd.reset us = [] ∧ (sdAfter Sd.reset us).st = .hunt ∧ (sdAfter Sd.reset us).prev1 = true := by
  obtain ⟨hsilent, hhunt⟩ := sdStream_hunting us Sd.reset rfl fun k => by
    cases k with
    | zero => simp [Sd.reset]
    | succ k => simpa using hno k
  exact ⟨hsilent, hhunt, by simp [sdAfter_prev1 us Sd.reset hhunt, hlast]⟩

/-- The bit that syncs stands for slot 0, so the next bit completes the first pair, and each fourth one after it the
next. -/
theorem sdStream_cons_sync {d : Sd} (hhunt : d.st = .hunt) (hprev : d.prev1 = true) (vs : List BitVal) (j : Nat) :
    (sdStream d (.one :: vs))[j]? =
      vs[4 * j]?.map fun b0 => lookup (if j = 0 then .one else vs[4 * j - 1]?.getD .x) b0 := by
  rw [sdStream, d.onBit_sync hhunt hprev, Option.toList_none, List.nil_append, sdStream_synced vs _ rfl]
  simp

/-- The bits of a pass, cut between the two that sync. -/
theorem take_append_one_drop {bs : List BitVal} {p : Nat} (h : bs[p + 1]? = some .one) :
    bs = bs.take (p + 1) ++ .one :: bs.drop (p + 2) := by
  obtain ⟨hlen, hone⟩ := List.getElem?_eq_some_iff.mp h
  rw [← hone, ← List.drop_eq_getElem_cons hlen, List.take_append_drop]

theorem take_succ_no_consecutive_ones {bs : List BitVal} {p : Nat}
    (hfirst : ∀ k, k < p → ¬ (bs[k]? = some .one ∧ bs[k + 1]? = some .one)) (k : Nat) :
    ¬ ((bs.take (p + 1))[k]? = some .one ∧ (bs.take (p + 1))[k + 1]? = some .one) := by
  simp only [List.getElem?_take, Option.ite_none_right_eq_some]
  rintro ⟨⟨-, hone⟩, hk, hnext⟩
  exact hfirst k (Nat.lt_of_succ_lt_succ hk) ⟨hone, hnext⟩

/-- Settles O34: the bits up to the first of the two 1-bits emit nothing, the second one syncs, and the bits behind it are
`bs.drop (p + 2)`. -/
theorem oneSymbolPerFourBits : Obligations.OneSymbolPerFourBits := by
  intro bs p h₀ h₁ hfirst j
  have hlast : (bs.take (p + 1)).getLast? = some .one := by simp [List.getLast?_take, h₀]
  obtain ⟨hsilent, hhunt, hprev⟩ := sdStream_reset_before_sync hlast (take_succ_no_consecutive_ones hfirst)
  have hstream : sdStream Sd.reset bs = sdStream (sdAfter Sd.reset (bs.take (p + 1))) (.one :: bs.drop (p + 2)) := by
    conv_lhs => rw [take_append_one_drop h₁, sdStream_append, hsilent, List.nil_append]
  rw [hstream, sdStream_cons_sync hhunt hprev, List.getElem?_drop, List.getElem?_drop]
  cases j with
  | zero => rfl
  | succ j =>
    have hpair : p + 2 + (4 * (j + 1) - 1) = p + 1 + 4 * (j + 1) := by omega
    rw [hpair]

end Sys2Proof.Machine

/-! 44_categorizing_demodulator.md: the synthetic sample, its category, a period, the clock recovery, and a sample at CD
before the first decline and from it on. -/

namespace Sys2Proof.Machine

/-! ### The synthetic sample (R204) -/

theorem getSample_of_floor {buf : List Int} {x : ℚ} {i : Nat} {a b : Int} (hx : ⌊x⌋ = i) (ha : buf[i]? = some a)
    (hb : buf[i + 1]? = some b) : getSample buf x = ⟨a + (x - i) * (b - a), b - a⟩ := by
  have hnext : bufAt buf ((i : Int) + 1) = b := bufAt_of_getElem? (i := i + 1) hb
  simp [getSample, hx, bufAt_of_getElem? ha, hnext]

/-- Settles O41: the offset `i + f` has floor `i`. -/
theorem syntheticSampleInterpolates : Obligations.SyntheticSampleInterpolates := by
  intro buf x f i a b hf hf₁ hx ha hb
  have hfloor : ⌊x⌋ = i := by
    rw [Int.floor_eq_iff, hx]
    constructor <;> push_cast <;> linarith
  have hsample : getSample buf x = ⟨a + f * (b - a), b - a⟩ := by
    rw [getSample_of_floor hfloor ha hb, hx, add_sub_cancel_left]
  exact ⟨hsample, fun h => by simp [hsample, h]⟩

/-! ### The category of a synthetic sample (R205) -/

theorem categorize_high {h l n : ℚ} {x : Synthetic} (hv : h < x.value) : categorize h l n x = .ok .high :=
  if_pos hv

theorem categorize_low {h l n : ℚ} {x : Synthetic} (hle : x.value ≤ h) (hv : x.value < -h) :
    categorize h l n x = .ok .low := by
  rw [categorize, if_neg hle.not_gt, if_pos hv]

/-- Near zero the sign of the slope decides. -/
theorem categorize_nearZero {h l n : ℚ} {x : Synthetic} (hle : x.value ≤ h) (hge : -h ≤ x.value)
    (hv : |x.value| < l) :
    categorize h l n x =
      if 0 < x.slope then .ok .zeroRising else if x.slope < 0 then .ok .zeroDropping else .error .zeroSlope := by
  rw [categorize, if_neg hle.not_gt, if_neg hge.not_gt, if_pos hv]

/-- In the middle band the slope decides when it is steep enough. -/
theorem categorize_midBand {h l n : ℚ} {x : Synthetic} (hle : x.value ≤ h) (hge : -h ≤ x.value)
    (hv : l ≤ |x.value|) :
    categorize h l n x =
      if h / (4 * n) < |x.slope| then if 0 < x.slope then .ok .zeroRising else .ok .zeroDropping
      else .error .ambiguous := by
  rw [categorize, if_neg hle.not_gt, if_neg hge.not_gt, if_neg hv.not_gt, Config.slopeDiv]

/-- Settles O39: one lemma for each of the four ranges of the value. -/
theorem categorizeTests : Obligations.CategorizeTests := by
  intro h l n v m
  refine ⟨categorize_high (x := ⟨v, m⟩), categorize_low (x := ⟨v, m⟩), fun hle hge hv => ?_, fun hle hge hv => ?_⟩
  · rw [categorize_nearZero (x := ⟨v, m⟩) hle hge hv]
    exact ⟨fun hm => if_pos hm, fun hm => by rw [if_neg hm.not_gt, if_pos hm], fun hm => by simp [hm]⟩
  · rw [categorize_midBand (x := ⟨v, m⟩) hle hge hv]
    refine ⟨fun hs hm => ?_, fun hs hm => ?_, fun hs => if_neg hs.not_gt⟩
    · rw [if_pos hs, if_pos hm]
    · rw [if_pos hs, if_neg hm.not_gt]

/-! ### The windows of the pattern (R206) -/

theorem matchWindow_eq_none {c₀ c₁ c₂ : Category} (h : ∀ k, refWindow k ≠ [c₀, c₁, c₂]) :
    matchWindow c₀ c₁ c₂ = none := by
  simp [matchWindow, h]

/-- Settles O40: a triple that is the window of a symbol is one of the four. -/
theorem fourWindowsMatch : Obligations.FourWindowsMatch := by
  refine ⟨rfl, rfl, rfl, rfl, fun c₀ c₁ c₂ hother => matchWindow_eq_none fun k hk => hother ?_⟩
  cases k <;> cases hk <;> decide

/-! ### The first failure of a period (R203) -/

section Period

variable {h l n : ℚ} {p : Nat} {buf : List Int}

theorem categoryAt_ok {j : Fin 3} {c : Category} (hc : categorize h l n (getSample buf (offset n j)) = .ok c) :
    categoryAt h l n p buf j = .ok c := by
  simp [categoryAt, hc]

theorem categoryAt_error {j : Fin 3} {e : Cause} (he : categorize h l n (getSample buf (offset n j)) = .error e) :
    categoryAt h l n p buf j =
      .error ⟨e, p, j.castSucc, (getSample buf (offset n j)).value, (getSample buf (offset n j)).slope⟩ := by
  simp [categoryAt, he]

/-- With three categories the window decides. -/
theorem decodePeriod_of_categories {c₀ c₁ c₂ : Category}
    (h₀ : categorize h l n (getSample buf (offset n 0)) = .ok c₀)
    (h₁ : categorize h l n (getSample buf (offset n 1)) = .ok c₁)
    (h₂ : categorize h l n (getSample buf (offset n 2)) = .ok c₂) :
    decodePeriod h l n p buf = (matchWindow c₀ c₁ c₂).elim (.error (noMatch p)) .ok := by
  rw [decodePeriod, categoryAt_ok h₀, categoryAt_ok h₁, categoryAt_ok h₂]
  cases hw : matchWindow c₀ c₁ c₂ <;> simp [hw]

end Period

/-- Settles O38: the categories are taken one after another, each only when those before it are there. The `x j` of the
statement is the sample at `offset n j`. -/
theorem periodFailureOrder : Obligations.PeriodFailureOrder := by
  intro h l n p buf x
  refine ⟨fun e h₀ => ?_, fun c₀ e h₀ h₁ => ?_, fun c₀ c₁ e h₀ h₁ h₂ => ?_, fun c₀ c₁ c₂ h₀ h₁ h₂ => ?_⟩
  · rw [decodePeriod, categoryAt_error (j := 0) h₀]
    rfl
  · rw [decodePeriod, categoryAt_ok (j := 0) h₀, categoryAt_error (j := 1) h₁]
    rfl
  · rw [decodePeriod, categoryAt_ok (j := 0) h₀, categoryAt_ok (j := 1) h₁, categoryAt_error (j := 2) h₂]
    rfl
  · rw [decodePeriod_of_categories h₀ h₁ h₂]
    exact ⟨fun k hk => by rw [hk, Option.elim_some], fun hk => by rw [hk, Option.elim_none, noMatch]⟩

/-! ### The clock recovery (R207 to R210) -/

theorem shiftFor_minus {d : ℚ} (h : d < -1 / 2) : shiftFor d = .minus := by
  rw [shiftFor, Config.afcDeadband, ← neg_div, if_pos h]

theorem shiftFor_plus {d : ℚ} (h : 1 / 2 < d) : shiftFor d = .plus := by
  rw [shiftFor, Config.afcDeadband, if_neg (by linarith), if_pos h]

theorem shiftFor_zero {d : ℚ} (hge : -1 / 2 ≤ d) (hle : d ≤ 1 / 2) : shiftFor d = .zero := by
  rw [shiftFor, Config.afcDeadband, ← neg_div, if_neg hge.not_gt, if_neg hle.not_gt]

theorem afc_of_no_crossing {n : ℚ} {buf : List Int} (h : firstCrossing 0 buf = none) : afc n buf = .zero := by
  rw [afc, h]

theorem afc_of_crossing {n x : ℚ} {buf : List Int} (h : firstCrossing 0 buf = some x) :
    afc n buf = shiftFor (x - offset n (nearestAnchor n x)) := by
  rw [afc, h]

/-- Settles O43: the first sign change gives the position, the least of the nearest anchors the distance. -/
theorem clockRecoveryShift : Obligations.ClockRecoveryShift := by
  refine fun n buf => ⟨fun hno => afc_of_no_crossing (firstCrossing_none buf 0 hno), ?_⟩
  intro i a b j x d ha hb hchange hfirst hx hlower hnearest hd
  have hcross : firstCrossing 0 buf = some x := by
    rw [firstCrossing_some buf 0 i a b ha hb hchange hfirst, hx, Nat.zero_add]
  have hafc : afc n buf = shiftFor d := by
    rw [afc_of_crossing hcross, nearestAnchor_eq n x j hlower hnearest, hd, offset]
  rw [hafc]
  exact ⟨shiftFor_minus, shiftFor_plus, shiftFor_zero⟩

/-! ### SAMPLE at CD, by phase (R200, R201) -/

namespace Cd

variable {n : ℚ} {c : Cd} {v : Int}

theorem onSample_seek_stays (hph : c.ph = .seek) (hv : v ≤ 50) :
    c.onSample n v = ⟨{ c with q := c.q ++ [v] }, [], none⟩ := by
  simp [onSample, hph, Config.peakThr, hv.not_gt]

theorem onSample_seek_ends (hph : c.ph = .seek) (hv : 50 < v) :
    c.onSample n v = ⟨{ c with q := c.q ++ [v], ph := .climb, prev := v }, [], none⟩ := by
  simp [onSample, hph, Config.peakThr, hv]

theorem onSample_climb_continues (hph : c.ph = .climb) (hv : c.prev ≤ v) :
    c.onSample n v = ⟨{ c with q := c.q ++ [v], prev := v }, [], none⟩ := by
  simp [onSample, hph, hv.not_gt]

theorem onSample_climb_ends (hph : c.ph = .climb) (hv : v < c.prev) :
    c.onSample n v = drain n (c.q ++ [v]).length
      { c with
        q := c.q ++ [v]
        ph := .decode
        peak := c.prev
        high := 7 / 10 * (c.prev : ℚ)
        low := 1 / 2 * (c.prev : ℚ) } := by
  simp [onSample, hph, hv, setPeak, Config.highFactor, Config.lowFactor]

theorem onSample_decode (hph : c.ph = .decode) :
    c.onSample n v = drain n (c.q ++ [v]).length { c with q := c.q ++ [v] } := by
  simp [onSample, hph]

end Cd

/-! ### SAMPLE in mode CAT (R118, R119) -/

/-- A sample at which no period fails: what CD answers goes to its registers and to `OUT`. -/
theorem exec_sample_cat_of_onSample {v : Int} {s : State} {d : Cd} {ks : List Letter}
    (hd : s.ch.internalEmpty = true) (hrun : s.pipe.st = .run) (hm : s.pipe.mode = .cat)
    (h : s.cd.onSample s.cfg.sps v = ⟨d, ks, none⟩) :
    exec (.sample v) s = .next
      { s.counted with
        cd := d
        ch := { s.ch with out := s.ch.out ++ ks.map (fun k => .sym (.letter k)) } } := by
  rw [exec_sample_cat v s hd hrun hm, cdRule_tok]
  simp [h, raiseIf, State.counted, State.countWord]

/-- Settles O35: in each of the three cases CD emits nothing. -/
theorem catStoresDuringPeakScan : Obligations.CatStoresDuringPeakScan := by
  intro v s hd hrun hm
  have hsilent {d : Cd} (h : s.cd.onSample s.cfg.sps v = ⟨d, [], none⟩) :
      exec (.sample v) s = .next { s.counted with cd := d } := by
    simpa [State.counted] using exec_sample_cat_of_onSample hd hrun hm h
  exact ⟨fun hph hv => hsilent (Cd.onSample_seek_stays hph hv), fun hph hv => hsilent (Cd.onSample_seek_ends hph hv),
    fun hph hv => hsilent (Cd.onSample_climb_continues hph hv)⟩

/-- Settles O36: both kinds of sample drain the queue from the registers `c`, and under a legal configuration a drain
that meets no failure is `Periods`. -/
theorem catDecodesWholePeriods : Obligations.CatDecodesWholePeriods := by
  intro v s c d ks hd hrun hm hlegal hc hperiods
  have hdrains : s.cd.onSample s.cfg.sps v = c.drain s.cfg.sps c.q.length := by
    obtain ⟨hph, rfl⟩ | ⟨hph, hv, rfl⟩ := hc
    · exact Cd.onSample_decode hph
    · exact Cd.onSample_climb_ends hph hv
  have hpull (sh : Shift) : 1 ≤ pullCount s.cfg.sps sh := one_le_two.trans (two_le_pullCount hlegal sh)
  exact exec_sample_cat_of_onSample hd hrun hm
    (hdrains.trans (drain_of_periods _ hpull ks _ c d le_rfl hperiods))

end Sys2Proof.Machine

/-! 45_phase_synthesizer.md: a synthesized sample, SYM and a pass in mode SYNTH. -/

namespace Sys2Proof.Machine

/-! ### A synthesized sample (R242 to R244) -/

/-- The rounding of the exact real value of R243, on Mathlib's sine and cosine. -/
theorem cycleSample_eq_floor (amp : Nat) (cur nxt : Letter) (u : ℚ) :
    cycleSample amp cur nxt u
      = ⌊(amp : ℝ) * ((weight u : ℝ) * osc nxt u + (1 - weight u) * osc cur u) + 1 / 2⌋ := by
  rw [cycleSample, roundTone_eq, blend_value]

/-- Settles O45: the weight of R244 is `weight u` in each of its three ranges. -/
theorem cycleSampleIsExactRounding : Obligations.CycleSampleIsExactRounding := by
  intro amp cur nxt u w hlow hramp hhigh
  have hw : w = weight u := by
    rcases le_or_gt u (3 / 5) with h | h
    · rw [hlow h, weight_low h]
    · rcases lt_or_ge u (9 / 10) with h' | h'
      · rw [hramp h h', weight_ramp h h']
      · rw [hhigh h', weight_high h']
  rw [hw, cycleSample_eq_floor]

/-- A convex combination of two numbers in `[-1, 1]` (R245, corner case (d)). -/
theorem abs_blend_osc_le_one (cur nxt : Letter) (u : ℚ) :
    |(weight u : ℝ) * osc nxt u + (1 - weight u) * osc cur u| ≤ 1 := by
  have h₀ : (0 : ℝ) ≤ weight u := by exact_mod_cast weight_nonneg u
  have h₁ : (weight u : ℝ) ≤ 1 := by exact_mod_cast weight_le_one u
  have hmem := convex_Icc (-1 : ℝ) 1 (abs_le.mp (abs_osc_le_one nxt u)) (abs_le.mp (abs_osc_le_one cur u)) h₀
    (sub_nonneg.mpr h₁) (add_sub_cancel _ _)
  exact abs_le.mpr hmem

theorem abs_floor_add_half_le {x : ℝ} {a : Nat} (h : |x| ≤ a) : |⌊x + 1 / 2⌋| ≤ (a : Int) := by
  obtain ⟨hlo, hhi⟩ := abs_le.mp h
  refine abs_le.mpr ⟨Int.le_floor.mpr ?_, Int.lt_add_one_iff.mp (Int.floor_lt.mpr ?_)⟩ <;> push_cast <;> linarith

/-- Settles O46. -/
theorem cycleSampleIsBounded : Obligations.CycleSampleIsBounded := by
  intro amp cur nxt u
  rw [cycleSample_eq_floor]
  refine abs_floor_add_half_le ?_
  rw [abs_mul, Nat.abs_cast]
  exact mul_le_of_le_one_right amp.cast_nonneg (abs_blend_osc_le_one cur nxt u)

/-! ### SYM in mode SYNTH (R242, R245) -/

/-- The cycle of a pair of symbols under the configuration. -/
abbrev Cfg.cycle (c : Cfg) (cur nxt : Letter) : List Int :=
  Machine.cycle c.psCarrier.toNat c.psRate.toNat c.psAmp.toNat cur nxt

/-- The samples of a cycle are those with `n * step < 1` (R242). -/
theorem lt_cycleLength_iff {carrier rate : Nat} (hc : 0 < carrier) (hr : 0 < rate) (n : Nat) :
    n < cycleLength carrier rate ↔ (n : ℚ) * (carrier / rate) < 1 := by
  have hc' : (0 : ℚ) < carrier := by exact_mod_cast hc
  have hr' : (0 : ℚ) < rate := by exact_mod_cast hr
  rw [cycleLength, Int.lt_toNat, Int.lt_ceil, Int.cast_natCast, lt_div_iff₀ hc', ← mul_div_assoc, div_lt_one hr']

theorem toNat_pos_of_ne_zero {x : BitVec 24} (h : x ≠ 0) : 0 < x.toNat :=
  Nat.pos_of_ne_zero fun h0 => h (BitVec.eq_of_toNat_eq h0)

/-- SYM in mode SYNTH: PS's registers and the samples on `OUT` (R245). -/
theorem exec_sym_synth_eq (l : Letter) {s : State} (hd : s.ch.internalEmpty = true) (hrun : s.pipe.st = .run)
    (hm : s.pipe.mode = .synth) :
    exec (.sym (.letter l)) s = .next
      { s.counted with
        ps := (s.ps.onSym s.cfg.psCarrier.toNat s.cfg.psRate.toNat s.cfg.psAmp.toNat l).1
        ch := { s.ch with out := s.ch.out ++
          (s.ps.onSym s.cfg.psCarrier.toNat s.cfg.psRate.toNat s.cfg.psAmp.toNat l).2.map .sample } } := by
  rw [exec_sym_synth l s hd hrun hm, psRule_tok]
  rfl

/-- Settles O44: the two cases of PS's register `have`; the length of the cycle is the only number with the property the
statement gives `len`. -/
theorem symHoldsThenEmitsCycle : Obligations.SymHoldsThenEmitsCycle := by
  intro l s len hd hrun hm hc hr hlen
  have hlength : len = cycleLength s.cfg.psCarrier.toNat s.cfg.psRate.toNat :=
    eq_of_forall_lt_iff fun n =>
      (hlen n).trans (lt_cycleLength_iff (toNat_pos_of_ne_zero hc) (toNat_pos_of_ne_zero hr) n).symm
  refine ⟨fun hh => ?_, fun hh => ?_⟩
  · rw [exec_sym_synth_eq l hd hrun hm]
    simp [Ps.onSym, hh, State.counted]
  · rw [exec_sym_synth_eq l hd hrun hm]
    simp [Ps.onSym, hh, cycle, hlength, Cfg.step, quotient, Function.comp_def]

/-! ### A pass in mode SYNTH (R247, R250) -/

/-- The samples PS emits for a list of symbols. -/
def psStream (c : Cfg) (p : Ps) : List Letter → List Int
  | [] => []
  | l :: ls =>
    (p.onSym c.psCarrier.toNat c.psRate.toNat c.psAmp.toNat l).2 ++
      psStream c (p.onSym c.psCarrier.toNat c.psRate.toNat c.psAmp.toNat l).1 ls

/-- The first symbol of a pass emits nothing. -/
theorem psStream_reset_cons (c : Cfg) (l : Letter) (ls : List Letter) :
    psStream c Ps.reset (l :: ls) = psStream c ⟨true, l⟩ ls := rfl

/-- Every later symbol emits the cycle from the held one to it. -/
theorem psStream_held_cons (c : Cfg) (cur l : Letter) (ls : List Letter) :
    psStream c ⟨true, cur⟩ (l :: ls) = c.cycle cur l ++ psStream c ⟨true, l⟩ ls := rfl

/-- A pass in mode SYNTH is running, between words. -/
structure SynthReady (s : State) : Prop where
  drained : s.ch.internalEmpty = true
  run : s.pipe.st = .run
  mode : s.pipe.mode = .synth

/-- One symbol in mode SYNTH, the first of the pass or a later one. -/
theorem exec_sym_synthReady (l : Letter) {s : State} (h : SynthReady s) :
    ∃ u, exec (.sym (.letter l)) s = .next u ∧ SynthReady u ∧ u.cfg = s.cfg ∧
      u.ps = (s.ps.onSym s.cfg.psCarrier.toNat s.cfg.psRate.toNat s.cfg.psAmp.toNat l).1 ∧
      u.ch.out = s.ch.out ++
        (s.ps.onSym s.cfg.psCarrier.toNat s.cfg.psRate.toNat s.cfg.psAmp.toNat l).2.map .sample := by
  obtain ⟨hd, hrun, hm⟩ := h
  exact ⟨_, exec_sym_synth_eq l hd hrun hm, ⟨hd, hrun, hm⟩, rfl, rfl, rfl⟩

theorem runs_syms_synth (ls : List Letter) {s : State} (h : SynthReady s) :
    ∃ t, Runs (ls.map fun l => .sym (.letter l)) s t ∧ SynthReady t ∧ t.cfg = s.cfg ∧
      t.ch.out = s.ch.out ++ (psStream s.cfg s.ps ls).map .sample := by
  induction ls generalizing s with
  | nil => exact ⟨s, rfl, h, rfl, by simp [psStream]⟩
  | cons l ls ih =>
    obtain ⟨u, hex, hu, hcfg_u, hps, hout_u⟩ := exec_sym_synthReady l h
    obtain ⟨t, hruns, ht, hcfg_t, hout_t⟩ := ih hu
    exact ⟨t, ⟨u, hex, hruns⟩, ht, hcfg_t.trans hcfg_u, by simp [hout_t, hout_u, hcfg_u, hps, psStream]⟩

/-- A whole pass in mode SYNTH, from START to END. -/
theorem exists_synth_pass (ls : List Letter) {s : State} (hd : s.ch.internalEmpty = true) (hst : s.pipe.st ≠ .run)
    (hl : s.cfg.legal .synth = true) :
    ∃ t, Runs (.start .synth :: ls.map (fun l => .sym (.letter l)) ++ [.endOfStream]) s t ∧
      t.ch.internalEmpty = true ∧ t.pipe.st = .done ∧ t.cfg = s.cfg ∧
      t.ch.out = s.ch.out ++ (psStream s.cfg Ps.reset ls).map .sample ++ [.fin] := by
  have hready : SynthReady (s.countWord.beginPass .synth) := ⟨hd, rfl, rfl⟩
  obtain ⟨u, hruns, ⟨hdrained, hrun, -⟩, hcfg, hout⟩ := runs_syms_synth ls hready
  obtain ⟨-, hend⟩ := endClosesThePass u
  refine ⟨_, ⟨_, exec_start_accepted hst hl, runs_append hruns ⟨_, hend hrun hdrained, rfl⟩⟩, hdrained, rfl, hcfg, ?_⟩
  simp [hout]

theorem length_psStream_held (c : Cfg) (ls : List Letter) (cur : Letter) :
    (psStream c ⟨true, cur⟩ ls).length = ls.length * cycleLength c.psCarrier.toNat c.psRate.toNat := by
  induction ls generalizing cur with
  | nil => simp [psStream]
  | cons l ls ih =>
    rw [psStream_held_cons, List.length_append, ih, List.length_cons, Nat.add_one_mul, Nat.add_comm]
    simp [cycle]

/-- A pass of `k` symbols makes `k - 1` cycles, and none when `k` is 0. -/
theorem length_psStream_reset (c : Cfg) (ls : List Letter) :
    (psStream c Ps.reset ls).length = (ls.length - 1) * cycleLength c.psCarrier.toNat c.psRate.toNat := by
  cases ls with
  | nil => simp [psStream]
  | cons l ls => rw [psStream_reset_cons, length_psStream_held, List.length_cons, Nat.add_one_sub_one]

theorem cycleLength_cast (carrier rate : Nat) : (cycleLength carrier rate : Int) = ⌈(rate : ℚ) / carrier⌉ :=
  Int.toNat_of_nonneg (Int.ceil_nonneg (by positivity))

/-- Settles O47: the samples of the pass are `psStream`, one cycle for each symbol but the first. -/
theorem synthSampleCount : Obligations.SynthSampleCount := by
  intro s ls hd hst hl
  obtain ⟨t, hruns, -, hdone, -, hout⟩ := exists_synth_pass ls hd hst hl
  refine ⟨t, _, hruns, hdone, hout, ?_⟩
  rw [length_psStream_reset, Nat.cast_mul, cycleLength_cast]

end Sys2Proof.Machine

/-! 45_phase_synthesizer.md R251: what SYNTH makes of a list of symbols, run through mode CAT. The quarters of a tone, the
first half of a cycle, its period at CD, and the passes. -/

namespace Sys2Proof

/-- The symbol whose oscillator is a quarter turn ahead (45_phase_synthesizer.md R243). -/
def Letter.quarterTurn : Letter → Letter
  | .a => .b
  | .b => .c
  | .c => .d
  | .d => .a

/-- The sample of the symbol's tone at phase 0. -/
def Letter.start (amp : Nat) : Letter → Int
  | .a => 0
  | .b => amp
  | .c => 0
  | .d => -amp

/-- The category of the start of the symbol's tone (30_encoding.md R83). -/
def Letter.startCategory : Letter → Machine.Category
  | .a => .zeroRising
  | .b => .high
  | .c => .zeroDropping
  | .d => .low

end Sys2Proof

namespace Sys2Proof.Machine

/-! ### The quarters of a tone (R243) -/

theorem osc_quarterTurn (l : Letter) (u : ℝ) : osc l.quarterTurn u = osc l (u + 1 / 4) := by
  have h : 2 * Real.pi * (u + 1 / 4) = 2 * Real.pi * u + Real.pi / 2 := by ring
  cases l <;> simp only [Letter.quarterTurn, osc, h, Real.sin_add_pi_div_two, Real.cos_add_pi_div_two, neg_neg]

theorem osc_quarterTurns (l : Letter) (j : Nat) (u : ℝ) :
    osc (Letter.quarterTurn^[j] l) u = osc l (u + j / 4) := by
  induction j generalizing u with
  | zero => simp
  | succ j ih =>
    rw [Function.iterate_succ_apply', osc_quarterTurn, ih]
    push_cast
    ring_nf

/-- The sample of the pure waveform of a symbol. -/
noncomputable def toneSample (amp : Nat) (l : Letter) (u : ℝ) : Int := ⌊(amp : ℝ) * osc l u + 1 / 2⌋

/-- Up to 3/5 turn a cycle is purely the current symbol's waveform (R244). -/
theorem cycleSample_eq_toneSample (amp : Nat) (cur nxt : Letter) {u : ℚ} (h : u ≤ 3 / 5) :
    cycleSample amp cur nxt u = toneSample amp cur u := by
  simp [cycleSample_eq_floor, weight_low h, toneSample]

theorem toneSample_quarterTurns (amp : Nat) (l : Letter) (j : Nat) (u : ℝ) :
    toneSample amp (Letter.quarterTurn^[j] l) u = toneSample amp l (u + j / 4) := by
  rw [toneSample, toneSample, osc_quarterTurns]

theorem toneSample_zero (amp : Nat) (l : Letter) : toneSample amp l 0 = l.start amp := by
  have hhalf : ⌊(1 / 2 : ℝ)⌋ = 0 := by norm_num
  cases l with
  | a => simpa [toneSample, osc, Letter.start] using hhalf
  | b => simpa [toneSample, osc, Letter.start, Int.floor_natCast_add] using hhalf
  | c => simpa [toneSample, osc, Letter.start] using hhalf
  | d =>
    have h : (amp : ℝ) * osc .d 0 + 1 / 2 = ((-amp : Int) : ℝ) + 1 / 2 := by simp [osc]
    rw [toneSample, h, Int.floor_intCast_add, hhalf, add_zero, Letter.start]

/-- The synthetic sample of a symbol's tone at phase 0, at `4 * m` samples a turn: its slope is the forward difference. -/
noncomputable def quarterSample (amp m : Nat) (l : Letter) : Synthetic :=
  ⟨l.start amp, toneSample amp l (1 / (4 * m)) - l.start amp⟩

theorem one_le_floor_add_half {y : ℝ} (h : 1 / 2 < y) : 1 ≤ ⌊y + 1 / 2⌋ :=
  Int.le_floor.mpr (by push_cast; linarith)

theorem floor_neg_add_half_le {y : ℝ} (h : 1 / 2 < y) : ⌊-y + 1 / 2⌋ ≤ -1 :=
  Int.lt_add_one_iff.mp (Int.floor_lt.mpr (by push_cast; linarith))

section Audible

/-- The first sample of a sine at `4 * m` samples a turn does not round to 0. -/
def Audible (amp m : Nat) : Prop := 1 < 2 * (amp : ℝ) * Real.sin (2 * Real.pi / (4 * m))

variable {amp m : Nat}

/-- Every sample of the first quarter of a sine but the first is at least that of the index 1. -/
theorem Audible.half_lt_sin (h : Audible amp m) {k : Nat} (hk : 1 ≤ k) (hkm : k ≤ m) :
    1 / 2 < (amp : ℝ) * Real.sin (2 * Real.pi * (k / (4 * m))) := by
  have hm : (0 : ℝ) < m := by exact_mod_cast hk.trans hkm
  have hk' : (1 : ℝ) ≤ k := by exact_mod_cast hk
  have hkm' : (k : ℝ) ≤ m := by exact_mod_cast hkm
  have hquarter : 2 * Real.pi * ((k : ℝ) / (4 * m)) ≤ Real.pi / 2 := by
    rw [← mul_div_assoc, div_le_div_iff₀ (by positivity) two_pos]
    nlinarith [Real.pi_pos]
  have hfirst : 2 * Real.pi / (4 * m) ≤ 2 * Real.pi * ((k : ℝ) / (4 * m)) := by
    rw [← mul_div_assoc]
    exact div_le_div_of_nonneg_right (by nlinarith [Real.pi_pos]) (by positivity)
  have hpos : 0 ≤ 2 * Real.pi / (4 * (m : ℝ)) := by positivity
  have hmono : Real.sin (2 * Real.pi / (4 * m)) ≤ Real.sin (2 * Real.pi * (k / (4 * m))) :=
    Real.sin_le_sin_of_le_of_le_pi_div_two (by linarith [Real.pi_pos]) hquarter hfirst
  have := mul_le_mul_of_nonneg_left hmono (amp.cast_nonneg (α := ℝ))
  rw [Audible] at h
  linarith

/-- A cosine in its first quarter is a sine counted back from the quarter's end. -/
theorem Audible.half_lt_cos (h : Audible amp m) {k : Nat} (hkm : k < m) :
    1 / 2 < (amp : ℝ) * Real.cos (2 * Real.pi * (k / (4 * m))) := by
  have hm : (m : ℝ) ≠ 0 := by exact_mod_cast (Nat.zero_lt_of_lt hkm).ne'
  have hback : 2 * Real.pi * (((m - k : Nat) : ℝ) / (4 * m)) = Real.pi / 2 - 2 * Real.pi * (k / (4 * m)) := by
    rw [Nat.cast_sub hkm.le]
    field_simp
    ring
  have := h.half_lt_sin (k := m - k) (by omega) (by omega)
  rwa [hback, Real.sin_pi_div_two_sub] at this

/-- One sample after phase 0 a tone that starts at 0 has left it, upward for A. -/
theorem Audible.one_le_toneSample_a (h : Audible amp m) (hm : 1 ≤ m) : 1 ≤ toneSample amp .a (1 / (4 * m)) :=
  one_le_floor_add_half (by simpa [osc] using h.half_lt_sin le_rfl hm)

/-- Downward for C. -/
theorem Audible.toneSample_c_le (h : Audible amp m) (hm : 1 ≤ m) : toneSample amp .c (1 / (4 * m)) ≤ -1 := by
  have := floor_neg_add_half_le (h.half_lt_sin le_rfl hm)
  simpa [toneSample, osc] using this

/-- B stays above 0 in its first quarter. -/
theorem Audible.one_le_toneSample_b (h : Audible amp m) {k : Nat} (hkm : k < m) :
    1 ≤ toneSample amp .b (k / (4 * m)) :=
  one_le_floor_add_half (h.half_lt_cos hkm)

/-- D stays below 0 in its first quarter. -/
theorem Audible.toneSample_d_le (h : Audible amp m) {k : Nat} (hkm : k < m) :
    toneSample amp .d (k / (4 * m)) ≤ -1 := by
  have := floor_neg_add_half_le (h.half_lt_cos hkm)
  simpa [toneSample, osc] using this

end Audible

/-! ### A configuration for the round trip (R251) -/

/-- The two modes have one period of `4 * m` samples, the thresholds are manual and below the amplitude, and the first
sample of a sine does not round to 0. -/
structure Matched (c : Cfg) (m : Nat) : Prop where
  three_le : 3 ≤ m
  carrier : c.psCarrier ≠ 0
  rate : c.psRate.toNat = 4 * m * c.psCarrier.toNat
  spsDen : c.spsDen ≠ 0
  spsNum : c.spsNum.toNat = 4 * m * c.spsDen.toNat
  manual : c.manual = true
  thrDen : c.thrDen ≠ 0
  low_pos : 0 < c.low
  high_lt : c.high < c.psAmp.toNat
  audible : Audible c.psAmp.toNat m

theorem Cfg.high_nonneg (c : Cfg) : 0 ≤ c.high := by
  rw [Cfg.high, quotient]
  positivity

namespace Matched

variable {c : Cfg} {m : Nat} (h : Matched c m)
include h

theorem one_le : 1 ≤ m := by linarith [h.three_le]

theorem sps_eq : c.sps = (4 * m : Nat) := by
  have hden : (c.spsDen.toNat : ℚ) ≠ 0 := by exact_mod_cast (toNat_pos_of_ne_zero h.spsDen).ne'
  rw [Cfg.sps, quotient, h.spsNum, Nat.cast_mul (4 * m), mul_div_cancel_right₀ _ hden]

theorem legal_synth : c.legal .synth = true := by
  have hpos : 0 < c.psRate.toNat := by
    rw [h.rate]
    exact Nat.mul_pos (Nat.mul_pos four_pos h.one_le) (toNat_pos_of_ne_zero h.carrier)
  have hrate : c.psRate ≠ 0 := fun h₀ => by simp [h₀] at hpos
  obtain ⟨-, -, -, hsynth, -⟩ := configurationCheckPerMode c
  exact hsynth.mpr ⟨h.carrier, hrate⟩

theorem legal_cat : c.legal .cat = true := by
  have hm : (3 : ℚ) ≤ m := by exact_mod_cast h.three_le
  have hperiod : 4 < c.sps := by
    rw [h.sps_eq]
    push_cast
    linarith
  obtain ⟨-, -, hcat, -, -, -, hlength⟩ := configurationCheckPerMode c
  exact hcat.mpr ⟨h.spsDen, hlength.mpr (.inl hperiod), fun _ => h.thrDen⟩

theorem pullCount_zero : pullCount c.sps .zero = (4 * m : Nat) := by
  rw [pullCount, h.sps_eq, Int.ceil_natCast, Shift.toInt, add_zero]

theorem cycleLength_eq : cycleLength c.psCarrier.toNat c.psRate.toNat = 4 * m := by
  have hc : (c.psCarrier.toNat : ℚ) ≠ 0 := by exact_mod_cast (toNat_pos_of_ne_zero h.carrier).ne'
  rw [cycleLength, h.rate, Nat.cast_mul (4 * m), mul_div_cancel_right₀ _ hc, Int.ceil_natCast, Int.toNat_natCast]

theorem length_cycle (cur nxt : Letter) : (c.cycle cur nxt).length = 4 * m := by
  simp [cycle, h.cycleLength_eq]

/-! ### The first half of a cycle -/

theorem step_eq : (c.psCarrier.toNat : ℚ) / c.psRate.toNat = 1 / (4 * m) := by
  have hc : (c.psCarrier.toNat : ℚ) ≠ 0 := by exact_mod_cast (toNat_pos_of_ne_zero h.carrier).ne'
  have hm : (m : ℚ) ≠ 0 := by exact_mod_cast (Nat.pos_iff_ne_zero.mp h.one_le)
  rw [h.rate]
  push_cast
  field_simp

/-- The samples CD looks at all lie before 3/5 turn: the last one, of index `2 * m + 1`, because `m` is at least 3. -/
theorem cycle_getElem? (cur nxt : Letter) {k : Nat} (hk : k ≤ 2 * m + 1) :
    (c.cycle cur nxt)[k]? = some (toneSample c.psAmp.toNat cur (k / (4 * m))) := by
  have hm := h.three_le
  have hlt : k < 4 * m := by omega
  have hu : (k : ℚ) * (1 / (4 * m)) ≤ 3 / 5 := by
    have h5 : (k : ℚ) * 5 ≤ 3 * (4 * m) := by exact_mod_cast (by omega : k * 5 ≤ 3 * (4 * m))
    rw [mul_one_div, div_le_div_iff₀ (by positivity) (by norm_num)]
    exact h5
  simp only [Cfg.cycle, cycle, h.cycleLength_eq, h.step_eq, List.getElem?_map, List.getElem?_range hlt, Option.map_some]
  rw [cycleSample_eq_toneSample _ _ _ hu]
  push_cast
  rw [mul_one_div]

/-- The sample `i` places after the start of quarter `j`. -/
theorem cycle_getElem?_quarter (cur nxt : Letter) {j i : Nat} (hj : j ≤ 2) (hi : i ≤ 1) :
    (c.cycle cur nxt)[j * m + i]? = some (toneSample c.psAmp.toNat (Letter.quarterTurn^[j] cur) (i / (4 * m))) := by
  have hm : (m : ℝ) ≠ 0 := by exact_mod_cast (Nat.pos_iff_ne_zero.mp h.one_le)
  have hphase : ((j * m + i : Nat) : ℝ) / (4 * m) = i / (4 * m) + j / 4 := by
    push_cast
    field_simp
    ring
  rw [h.cycle_getElem? cur nxt (add_le_add (Nat.mul_le_mul_right m hj) hi), hphase, toneSample_quarterTurns]

theorem cycle_quarter_start (cur nxt : Letter) (j : Fin 3) :
    (c.cycle cur nxt)[j * m]? = some ((Letter.quarterTurn^[j] cur).start c.psAmp.toNat) := by
  have := h.cycle_getElem?_quarter cur nxt (Nat.le_of_lt_succ j.isLt) (Nat.zero_le 1)
  rwa [Nat.cast_zero, zero_div, toneSample_zero, add_zero] at this

theorem cycle_quarter_next (cur nxt : Letter) (j : Fin 3) :
    (c.cycle cur nxt)[j * m + 1]? = some (toneSample c.psAmp.toNat (Letter.quarterTurn^[j] cur) (1 / (4 * m))) := by
  have := h.cycle_getElem?_quarter cur nxt (Nat.le_of_lt_succ j.isLt) le_rfl
  rwa [Nat.cast_one] at this

/-! ### The period of a cycle at CD (44_categorizing_demodulator.md R203 to R206) -/

/-- The synthetic samples lie at the starts of quarters, so they are raw samples. -/
theorem getSample_cycle (cur nxt : Letter) (j : Fin 3) :
    getSample (c.cycle cur nxt) (offset c.sps j) = quarterSample c.psAmp.toNat m (Letter.quarterTurn^[j] cur) := by
  have hoffset : offset c.sps j = ((j.val * m : Nat) : ℚ) := by
    rw [offset, h.sps_eq]
    push_cast
    ring
  have hfloor : ⌊offset c.sps j⌋ = (j.val * m : Nat) := by rw [hoffset, Int.floor_natCast]
  rw [getSample_of_floor hfloor (h.cycle_quarter_start cur nxt j) (h.cycle_quarter_next cur nxt j), hoffset, sub_self,
    zero_mul, add_zero, quarterSample]

end Matched

/-- A quarter that starts at 0 is told by its slope, one that starts at a peak by its value. -/
theorem Matched.categorize_quarterSample {c : Cfg} {m : Nat} (h : Matched c m) (l : Letter) :
    categorize c.high c.low c.sps (quarterSample c.psAmp.toNat m l) = .ok l.startCategory := by
  have hhigh := c.high_nonneg
  have hlt := h.high_lt
  have hnearZero {x : Synthetic} (hx : x.value = 0) : categorize c.high c.low c.sps x =
      if 0 < x.slope then .ok .zeroRising else if x.slope < 0 then .ok .zeroDropping else .error .zeroSlope :=
    categorize_nearZero (by linarith) (by linarith) (by rw [hx, abs_zero]; exact h.low_pos)
  cases l with
  | a =>
    have hslope : (1 : ℚ) ≤ toneSample c.psAmp.toNat .a (1 / (4 * m)) := by
      exact_mod_cast h.audible.one_le_toneSample_a h.one_le
    have hrising : 0 < (quarterSample c.psAmp.toNat m .a).slope := by
      simp only [quarterSample, Letter.start, Int.cast_zero]
      linarith
    rw [hnearZero (by simp [quarterSample, Letter.start]), if_pos hrising, Letter.startCategory]
  | b => exact categorize_high (by simpa [quarterSample, Letter.start] using hlt)
  | c =>
    have hslope : (toneSample c.psAmp.toNat .c (1 / (4 * m)) : ℚ) ≤ -1 := by
      exact_mod_cast h.audible.toneSample_c_le h.one_le
    have hdropping : (quarterSample c.psAmp.toNat m .c).slope < 0 := by
      simp only [quarterSample, Letter.start, Int.cast_zero]
      linarith
    rw [hnearZero (by simp [quarterSample, Letter.start]), if_neg hdropping.not_gt, if_pos hdropping,
      Letter.startCategory]
  | d => refine categorize_low ?_ ?_ <;> simp only [quarterSample, Letter.start] <;> push_cast <;> linarith

/-- The categories of three quarters from the start of a symbol are its window. -/
theorem matchWindow_startCategory (l : Letter) :
    matchWindow l.startCategory l.quarterTurn.startCategory l.quarterTurn.quarterTurn.startCategory = some l := by
  cases l <;> rfl

theorem Matched.decodePeriod_cycle {c : Cfg} {m : Nat} (h : Matched c m) (cur nxt : Letter) (p : Nat) :
    decodePeriod c.high c.low c.sps p (c.cycle cur nxt) = .ok cur := by
  have hcat (j : Fin 3) : categorize c.high c.low c.sps (getSample (c.cycle cur nxt) (offset c.sps j))
      = .ok (Letter.quarterTurn^[j] cur).startCategory := by
    rw [h.getSample_cycle cur nxt j, h.categorize_quarterSample]
  rw [decodePeriod_of_categories (hcat 0) (hcat 1) (hcat 2)]
  exact congrArg (Option.elim · _ _) (matchWindow_startCategory cur)

/-! ### The clock recovery on a cycle (44_categorizing_demodulator.md R207 to R210) -/

/-- Samples of one sign, and after them a 0: no raw sign change yet (R208). -/
theorem no_signChange_before_zero {buf : List Int} {i : Nat} (h₀ : buf[i]? = some 0)
    (hsign : (∀ k < i, ∀ a, buf[k]? = some a → 1 ≤ a) ∨ (∀ k < i, ∀ a, buf[k]? = some a → a ≤ -1)) (k : Nat)
    (a b : Int) (hk : k < i) (ha : buf[k]? = some a) (hb : buf[k + 1]? = some b) :
    ¬ ((a ≤ 0 ∧ 0 < b) ∨ (0 ≤ a ∧ b < 0)) := by
  obtain hlt | rfl := Nat.lt_or_eq_of_le hk
  · obtain hpos | hneg := hsign
    · have := hpos k hk a ha
      have := hpos (k + 1) hlt b hb
      omega
    · have := hneg k hk a ha
      have := hneg (k + 1) hlt b hb
      omega
  · obtain rfl := Option.some.inj (hb.symm.trans h₀)
    omega

/-- A raw sign change after a sample 0 at an anchor is at the anchor: the clock is left alone. -/
theorem afc_of_zero_at_anchor {m : Nat} {buf : List Int} {b : Int} (hm : 0 < m) (j : Fin 3)
    (h₀ : buf[j * m]? = some 0) (h₁ : buf[j * m + 1]? = some b) (hb : b ≠ 0)
    (hsign : (∀ k < j * m, ∀ a, buf[k]? = some a → 1 ≤ a) ∨ (∀ k < j * m, ∀ a, buf[k]? = some a → a ≤ -1)) :
    afc (4 * m : Nat) buf = .zero := by
  have hanchor (k : Fin 3) : (k.val : ℚ) * (4 * m : Nat) / 4 = k.val * m := by
    push_cast
    ring
  have hchange : ((0 : Int) ≤ 0 ∧ 0 < b) ∨ ((0 : Int) ≤ 0 ∧ b < 0) := by
    rcases lt_or_gt_of_ne hb with h | h
    · exact .inr ⟨le_rfl, h⟩
    · exact .inl ⟨le_rfl, h⟩
  have hm' : (0 : ℚ) < m := by exact_mod_cast hm
  obtain ⟨-, hcross⟩ := clockRecoveryShift (4 * m : Nat) buf
  obtain ⟨-, -, hzero⟩ := hcross (j * m) 0 b j (j * m) 0 h₀ h₁ hchange (no_signChange_before_zero h₀ hsign)
    (by simp)
    (fun k hk => by
      have hne : (j.val : ℚ) - k.val ≠ 0 := by
        rw [sub_ne_zero]
        exact_mod_cast Fin.val_ne_of_ne hk.ne'
      rw [hanchor, hanchor, sub_self, abs_zero, ← sub_mul]
      exact abs_pos.mpr (mul_ne_zero hne hm'.ne'))
    (fun k => by
      rw [hanchor j, sub_self, abs_zero]
      exact abs_nonneg _)
    (by rw [hanchor, sub_self])
  exact hzero (by norm_num) (by norm_num)

namespace Matched

variable {c : Cfg} {m : Nat} (h : Matched c m)
include h

/-- The clock is left alone when quarter `j` of a cycle starts at 0 and the samples before it have one sign. -/
theorem afc_cycle_of_zero_quarter (cur nxt : Letter) (j : Fin 3)
    (hzero : Letter.quarterTurn^[j] cur = .a ∨ Letter.quarterTurn^[j] cur = .c)
    (hsign : (∀ k < j * m, 1 ≤ toneSample c.psAmp.toNat cur (k / (4 * m))) ∨
      (∀ k < j * m, toneSample c.psAmp.toNat cur (k / (4 * m)) ≤ -1)) :
    afc c.sps (c.cycle cur nxt) = .zero := by
  have hm := h.one_le
  have hj : j.val ≤ 2 := Nat.le_of_lt_succ j.isLt
  have hstart : (c.cycle cur nxt)[j * m]? = some 0 := by
    rw [h.cycle_quarter_start]
    obtain hl | hl := hzero <;> rw [hl, Letter.start]
  have hnext : toneSample c.psAmp.toNat (Letter.quarterTurn^[j] cur) (1 / (4 * m)) ≠ 0 := by
    obtain hl | hl := hzero <;> rw [hl]
    · have := h.audible.one_le_toneSample_a hm
      omega
    · have := h.audible.toneSample_c_le hm
      omega
  have hsample {k : Nat} (hk : k < j * m) {a : Int} (ha : (c.cycle cur nxt)[k]? = some a) :
      toneSample c.psAmp.toNat cur (k / (4 * m)) = a := by
    have hle : k ≤ 2 * m + 1 := by linarith [Nat.mul_le_mul_right m hj]
    exact Option.some.inj ((h.cycle_getElem? cur nxt hle).symm.trans ha)
  rw [h.sps_eq]
  refine afc_of_zero_at_anchor hm j hstart (h.cycle_quarter_next cur nxt j) hnext (hsign.imp ?_ ?_)
  · exact fun hpos k hk a ha => hsample hk ha ▸ hpos k hk
  · exact fun hneg k hk a ha => hsample hk ha ▸ hneg k hk

/-- A and C cross 0 at the start of their cycle, B and D a quarter later, each in a sample 0. -/
theorem afc_cycle (cur nxt : Letter) : afc c.sps (c.cycle cur nxt) = .zero := by
  cases cur with
  | a => exact h.afc_cycle_of_zero_quarter .a nxt 0 (.inl rfl) (.inl fun k hk => absurd hk (by simp))
  | b =>
    exact h.afc_cycle_of_zero_quarter .b nxt 1 (.inr rfl)
      (.inl fun k hk => h.audible.one_le_toneSample_b (by simpa using hk))
  | c => exact h.afc_cycle_of_zero_quarter .c nxt 0 (.inr rfl) (.inl fun k hk => absurd hk (by simp))
  | d =>
    exact h.afc_cycle_of_zero_quarter .d nxt 1 (.inl rfl)
      (.inr fun k hk => h.audible.toneSample_d_le (by simpa using hk))

end Matched

/-! ### A cycle in mode CAT (44_categorizing_demodulator.md R200) -/

/-- A pass in mode CAT is running, between words, and CD decodes. -/
structure CatReady (s : State) : Prop where
  drained : s.ch.internalEmpty = true
  run : s.pipe.st = .run
  mode : s.pipe.mode = .cat
  legal : s.cfg.legal .cat = true
  phase : s.cd.ph = .decode

/-- A sample after which CD decodes the periods `ks`. -/
theorem exec_sample_catReady {v : Int} {s : State} {d : Cd} {ks : List Letter} (h : CatReady s)
    (hp : Periods s.cfg.sps ks { s.cd with q := s.cd.q ++ [v] } d) (hph : d.ph = .decode) :
    ∃ u, exec (.sample v) s = .next u ∧ CatReady u ∧ u.cfg = s.cfg ∧ u.cd = d ∧
      u.ch.out = s.ch.out ++ ks.map (fun k => .sym (.letter k)) := by
  obtain ⟨hd, hrun, hm, hl, hphase⟩ := h
  exact ⟨_, catDecodesWholePeriods v s _ d ks hd hrun hm hl (.inl ⟨hphase, rfl⟩) hp, ⟨hd, hrun, hm, hl, hph⟩, rfl, rfl,
    rfl⟩

/-- Samples that do not fill a period wait in the queue. -/
theorem runs_samples_queued (xs : List Int) {s : State} (h : CatReady s)
    (hlen : ((s.cd.q ++ xs).length : Int) < pullCount s.cfg.sps s.cd.shift) :
    ∃ t, Runs (xs.map .sample) s t ∧ CatReady t ∧ t.cfg = s.cfg ∧ t.cd = { s.cd with q := s.cd.q ++ xs } ∧
      t.ch.out = s.ch.out := by
  induction xs generalizing s with
  | nil => exact ⟨s, rfl, h, rfl, by simp, rfl⟩
  | cons x xs ih =>
    have hq : s.cd.q ++ x :: xs = s.cd.q ++ [x] ++ xs := by simp
    have hone : ((s.cd.q ++ [x]).length : Int) < pullCount s.cfg.sps s.cd.shift := by
      rw [hq, List.length_append] at hlen
      omega
    obtain ⟨u, hex, hu, hcfg_u, hcd_u, hout_u⟩ := exec_sample_catReady (ks := []) h ⟨rfl, hone⟩ h.phase
    obtain ⟨t, hruns, ht, hcfg_t, hcd_t, hout_t⟩ := ih hu (by rwa [hcfg_u, hcd_u, ← hq])
    refine ⟨t, ⟨u, hex, hruns⟩, ht, hcfg_t.trans hcfg_u, ?_, ?_⟩
    · simp [hcd_t, hcd_u]
    · simp [hout_t, hout_u]

/-- The samples of one period, from an empty queue: its last sample decodes it. -/
theorem runs_samples_period {buf : List Int} {k : Letter} {s : State} (h : CatReady s) (hq : s.cd.q = [])
    (hlen : (buf.length : Int) = pullCount s.cfg.sps s.cd.shift)
    (hk : decodePeriod s.cd.high s.cd.low s.cfg.sps s.cd.period buf = .ok k) :
    ∃ t, Runs (buf.map .sample) s t ∧ CatReady t ∧ t.cfg = s.cfg ∧
      t.cd = { s.cd with shift := afc s.cfg.sps buf, period := s.cd.period + 1 } ∧
      t.ch.out = s.ch.out ++ [.sym (.letter k)] := by
  have hpull := two_le_pullCount h.legal
  have hne : buf ≠ [] := by
    rintro rfl
    have := hpull s.cd.shift
    rw [List.length_nil] at hlen
    omega
  obtain ⟨xs, v, rfl⟩ : ∃ xs v, buf = xs ++ [v] := ⟨_, _, (List.dropLast_append_getLast hne).symm⟩
  obtain ⟨u, hruns, hu, hcfg_u, hcd_u, hout_u⟩ := runs_samples_queued xs h (by
    rw [hq, List.nil_append, ← hlen, List.length_append]
    simp)
  have htake : (pullCount s.cfg.sps s.cd.shift).toNat = (xs ++ [v]).length := by rw [← hlen, Int.toNat_natCast]
  have hperiods : Periods u.cfg.sps [k] { u.cd with q := u.cd.q ++ [v] }
      { s.cd with shift := afc s.cfg.sps (xs ++ [v]), period := s.cd.period + 1 } := by
    rw [hcfg_u, hcd_u, hq, List.nil_append]
    refine ⟨hlen.ge, ?_, ?_, ?_⟩
    · rwa [htake, List.take_length]
    · simp only [htake, List.take_length, List.drop_length, hq]
    · have := hpull (afc s.cfg.sps (xs ++ [v]))
      simp only [htake, List.take_length, List.drop_length, List.length_nil]
      omega
  obtain ⟨t, hex, ht, hcfg_t, hcd_t, hout_t⟩ := exec_sample_catReady hu hperiods h.phase
  refine ⟨t, ?_, ht, hcfg_t.trans hcfg_u, hcd_t, by rw [hout_t, hout_u, List.map_singleton]⟩
  rw [List.map_append]
  exact runs_append hruns ⟨t, hex, rfl⟩

/-! ### The round trip (R251) -/

/-- CD stands between two cycles: nothing queued, the clock not shifted, the manual thresholds in place. -/
structure BetweenCycles (s : State) : Prop where
  ready : CatReady s
  queue : s.cd.q = []
  shift : s.cd.shift = .zero
  high : s.cd.high = s.cfg.high
  low : s.cd.low = s.cfg.low

/-- One cycle gives its current symbol back. -/
theorem runs_cycle_cat {s : State} {m : Nat} (hc : Matched s.cfg m) (h : BetweenCycles s) (cur nxt : Letter) :
    ∃ t, Runs ((s.cfg.cycle cur nxt).map .sample) s t ∧ BetweenCycles t ∧ t.cfg = s.cfg ∧
      t.ch.out = s.ch.out ++ [.sym (.letter cur)] := by
  obtain ⟨hready, hq, hsh, hhigh, hlow⟩ := h
  have hlen : ((s.cfg.cycle cur nxt).length : Int) = pullCount s.cfg.sps s.cd.shift := by
    rw [hsh, hc.pullCount_zero, hc.length_cycle]
  have hdecode : decodePeriod s.cd.high s.cd.low s.cfg.sps s.cd.period (s.cfg.cycle cur nxt) = .ok cur := by
    rw [hhigh, hlow, hc.decodePeriod_cycle]
  obtain ⟨t, hruns, ht, hcfg, hcd, hout⟩ := runs_samples_period hready hq hlen hdecode
  refine ⟨t, hruns, ⟨ht, ?_, ?_, ?_, ?_⟩, hcfg, hout⟩
  · rw [hcd, hq]
  · rw [hcd, hc.afc_cycle]
  · rw [hcd, hcfg, hhigh]
  · rw [hcd, hcfg, hlow]

/-- The cycles of a list of symbols after a held one give back all of them but the last. -/
theorem runs_psStream_cat {m : Nat} (ls : List Letter) {s : State} (hc : Matched s.cfg m) (h : BetweenCycles s)
    (cur : Letter) :
    ∃ t, Runs ((psStream s.cfg ⟨true, cur⟩ ls).map .sample) s t ∧ BetweenCycles t ∧
      t.ch.out = s.ch.out ++ (cur :: ls).dropLast.map (fun l => .sym (.letter l)) := by
  induction ls generalizing s cur with
  | nil => exact ⟨s, rfl, h, by simp⟩
  | cons l ls ih =>
    obtain ⟨u, hruns_u, hu, hcfg, hout_u⟩ := runs_cycle_cat hc h cur l
    obtain ⟨t, hruns_t, ht, hout_t⟩ := ih (hcfg ▸ hc) hu l
    refine ⟨t, ?_, ht, ?_⟩
    · rw [psStream_held_cons, List.map_append]
      exact runs_append hruns_u (hcfg ▸ hruns_t)
    · rw [hout_t, hout_u, List.dropLast_cons_cons, List.map_cons, List.append_assoc, List.singleton_append]

theorem runs_psStream_reset_cat {m : Nat} (ls : List Letter) {s : State} (hc : Matched s.cfg m)
    (h : BetweenCycles s) :
    ∃ t, Runs ((psStream s.cfg Ps.reset ls).map .sample) s t ∧ BetweenCycles t ∧
      t.ch.out = s.ch.out ++ ls.dropLast.map (fun l => .sym (.letter l)) := by
  cases ls with
  | nil => exact ⟨s, rfl, h, by simp⟩
  | cons l ls => exact runs_psStream_cat ls hc h l

/-- START in mode CAT with manual thresholds begins between two cycles (40_pipeline_control.md R116). -/
theorem betweenCycles_beginPass {s : State} {m : Nat} (hd : s.ch.internalEmpty = true) (hc : Matched s.cfg m) :
    BetweenCycles (s.countWord.beginPass .cat) := by
  have hcd : (s.countWord.beginPass .cat).cd = { Cd.reset with ph := .decode, high := s.cfg.high, low := s.cfg.low } :=
    if_pos ⟨rfl, hc.manual⟩
  refine ⟨⟨hd, rfl, rfl, hc.legal_cat, ?_⟩, ?_, ?_, ?_, ?_⟩ <;> rw [hcd] <;> rfl

/-- A whole pass in mode CAT over the samples of SYNTH. -/
theorem exists_cat_pass {m : Nat} (ls : List Letter) {s : State} (hd : s.ch.internalEmpty = true)
    (hst : s.pipe.st ≠ .run) (hc : Matched s.cfg m) :
    ∃ t, Runs (.start .cat :: (psStream s.cfg Ps.reset ls).map .sample ++ [.endOfStream]) s t ∧ t.pipe.st = .done ∧
      t.ch.out = s.ch.out ++ ls.dropLast.map (fun l => .sym (.letter l)) ++ [.fin] := by
  have hstart := betweenCycles_beginPass hd hc
  obtain ⟨u, hruns, hu, hout⟩ := runs_psStream_reset_cat ls (s := s.countWord.beginPass .cat) hc hstart
  obtain ⟨-, hend⟩ := endClosesThePass u
  refine ⟨_, ⟨_, exec_start_accepted hst hc.legal_cat, runs_append hruns ⟨_, hend hu.ready.run hu.ready.drained, rfl⟩⟩,
    rfl, ?_⟩
  simp [hout]

/-- Settles O60: the SYNTH pass emits `psStream`, whose every cycle is one period of CD that decodes to its current symbol
and leaves the clock alone. -/
theorem synthCatRoundTrip : Obligations.SynthCatRoundTrip := by
  intro s ls m hd hst hm hcarrier hrate hspsDen hspsNum hmanual hthrDen hlow hhigh haudible
  have hc : Matched s.cfg m := ⟨hm, hcarrier, hrate, hspsDen, hspsNum, hmanual, hthrDen, hlow, hhigh, haudible⟩
  obtain ⟨t, hruns_t, hdrained, hdone, hcfg, hout_t⟩ := exists_synth_pass ls hd hst hc.legal_synth
  rw [← hcfg] at hc hout_t
  obtain ⟨u, hruns_u, hdone_u, hout_u⟩ := exists_cat_pass ls hdrained (by rw [hdone]; decide) hc
  exact ⟨t, u, _, hruns_t, hout_t, hruns_u, hdone_u, hout_u⟩

end Sys2Proof.Machine

/-! 60_exceptions.md: steps without a word and the totality of the step, the lines FATAL and DIAG_VALID, trap entry and
the way back from it. -/

namespace Sys2Proof.Machine

/-! ### Every step has a next state (R264, R276) -/

/-- Settles O10: a drained block looks at `IN` and finds nothing. -/
theorem stepWithoutWord : Obligations.StepWithoutWord := by
  intro s hd hin
  rw [step, State.blockStep, if_pos hd, State.pipeStep]
  simp only [hin]

theorem exists_exec_eq_next (i : Instr) (s : State) : ∃ t, exec i s = .next t := by
  by_cases hi : i = .reset
  · subst hi
    exact ⟨_, resetWordRestoresEverything s⟩
  · obtain ⟨op, hop, -⟩ := exec_commonEffect hi
    exact ⟨op s, hop s⟩

theorem exists_runWord_eq_next (p : PortWord) (s : State) : ∃ t, runWord p s = .next t := by
  rw [runWord]
  cases decode p with
  | ok i => exact exists_exec_eq_next i s
  | error e => exact ⟨_, rfl⟩

/-- Settles O11: a step settles waiting tokens, finds no word, or runs one, and each of them goes on. -/
theorem stepNeverStops : Obligations.StepNeverStops := by
  intro s
  by_cases hd : s.ch.internalEmpty = true
  · cases hin : s.ch.inp with
    | nil => exact ⟨s, stepWithoutWord s hd hin⟩
    | cons p rest =>
      rw [step_eq_runWord hd hin]
      exact exists_runWord_eq_next p _
  · exact ⟨s.settle, by rw [step, State.blockStep, if_neg hd]⟩

/-! ### The lines (R267) -/

/-- Settles O49: one line decides the pass state, the other whether `DIAG` is empty. -/
theorem linesFollowState : Obligations.LinesFollowState := by
  refine fun s => ⟨?fatal, ?diagValid⟩
  case fatal => rw [State.fatalLine, decide_eq_true_eq]
  case diagValid => rw [State.diagValid, Bool.not_eq_true', List.isEmpty_eq_false_iff]

/-! ### Trap entry (R270, R273) -/

/-- Between words trap entry finds the internal channels empty already, and drops nothing. -/
theorem raiseFatal_of_internalEmpty (f : Fatal) {s : State} (hd : s.ch.internalEmpty = true) :
    s.raiseFatal f = { s with pipe := { s.pipe with st := .faulted, cause := f.cause, info := f.info } } := by
  have hch : s.ch.clearInternal = s.ch := (channels_of_internalEmpty hd).symm
  rw [State.raiseFatal, hch]

/-- A sample at which a period fails: the registers and the symbols CD answers are kept, and the pass stops. -/
theorem exec_sample_cat_of_fatal {v : Int} {s : State} {d : Cd} {ks : List Letter} {f : Fatal}
    (hd : s.ch.internalEmpty = true) (hrun : s.pipe.st = .run) (hm : s.pipe.mode = .cat)
    (h : s.cd.onSample s.cfg.sps v = ⟨d, ks, some f⟩) :
    exec (.sample v) s = .next
      (State.raiseFatal f { s.counted with
        cd := d
        ch := { s.ch with out := s.ch.out ++ ks.map (fun k => .sym (.letter k)) } }) := by
  rw [exec_sample_cat v s hd hrun hm, cdRule_tok]
  simp [h, raiseIf, State.counted, State.countWord]

/-- Settles O37: both kinds of sample drain the queue from the registers `c`, a drain that meets a failure is
`PeriodsThenFatal`, and trap entry finds no token to drop. -/
theorem catTrapEntry : Obligations.CatTrapEntry := by
  intro v s c d ks f hd hrun hm hlegal hc hfatal
  have hdrains : s.cd.onSample s.cfg.sps v = c.drain s.cfg.sps c.q.length := by
    obtain ⟨hph, rfl⟩ | ⟨hph, hv, rfl⟩ := hc
    · exact Cd.onSample_decode hph
    · exact Cd.onSample_climb_ends hph hv
  have hpull (sh : Shift) : 1 ≤ pullCount s.cfg.sps sh := one_le_two.trans (two_le_pullCount hlegal sh)
  have hfails : s.cd.onSample s.cfg.sps v = ⟨d, ks, some f⟩ :=
    hdrains.trans (drain_of_periodsThenFatal _ hpull ks _ c d f le_rfl hfatal)
  rw [exec_sample_cat_of_fatal hd hrun hm hfails]
  exact congrArg Host.Outcome.next (raiseFatal_of_internalEmpty f hd)

/-! ### FAULTED and the way back (R272) -/

/-- The words that are legal in RUN alone: the stream words and END (40_pipeline_control.md R119, R120). -/
def PassWord (i : Instr) : Prop :=
  (∃ v, i = .sample v) ∨ (∃ d x y, i = .xing d x y) ∨ (∃ b, i = .bit b) ∨ (∃ y, i = .sym y) ∨ i = .endOfStream

theorem PassWord.illegalNow {i : Instr} {s : State} (hi : PassWord i) (hrun : s.pipe.st ≠ .run) : illegalNow s i := by
  have hstream (ms : List Mode) : ¬ streamLegal s ms := fun ⟨h, _⟩ => hrun h
  obtain ⟨v, rfl⟩ | ⟨d, x, y, rfl⟩ | ⟨b, rfl⟩ | ⟨y, rfl⟩ | rfl := hi
  · exact hstream _
  · exact hstream _
  · exact hstream _
  · cases y with
    | letter l => exact hstream _
    | undec => trivial
  · exact hrun

/-- Settles O54: a word that is illegal in FAULTED is refused, which leaves the stop; of the others only RESET and a START
with a legal configuration do more than count, write a register or report. -/
theorem faultedUntilRestart : Obligations.FaultedUntilRestart := by
  intro i s t hst he
  have hrun : s.pipe.st ≠ .run := by simp [hst]
  by_cases hill : illegalNow s i
  · obtain rfl := Host.Outcome.next.inj ((illegalWordIsRefused i s hill).symm.trans he)
    exact .inl ⟨hst, rfl, rfl, rfl, fun _ => rfl⟩
  · have hother : ¬ PassWord i := fun hi => hill (hi.illegalNow hrun)
    cases i with
    | nop =>
      obtain rfl := Host.Outcome.next.inj he
      exact .inl ⟨hst, rfl, rfl, rfl, fun hi => absurd hi hother⟩
    | reset =>
      obtain rfl := Host.Outcome.next.inj he
      exact .inr (.inr ⟨rfl, rfl, rfl, rfl⟩)
    | cfgwr n val =>
      have hw : cfgWritable n val = true := by_contra fun hw => hill (.inr ((not_cfgWritable_iff n val).mp hw))
      obtain rfl := Host.Outcome.next.inj ((exec_cfgwr_accepted hrun hw).symm.trans he)
      exact .inl ⟨hst, rfl, rfl, rfl, fun hi => absurd hi hother⟩
    | start m =>
      by_cases hl : s.cfg.legal m = true
      · obtain rfl := Host.Outcome.next.inj ((exec_start_accepted hrun hl).symm.trans he)
        exact .inr (.inl ⟨⟨m, rfl⟩, rfl, rfl, rfl⟩)
      · obtain rfl := Host.Outcome.next.inj ((exec_start_configError hrun hl).symm.trans he)
        exact .inl ⟨hst, rfl, rfl, rfl, fun hi => absurd hi hother⟩
    | endOfStream | sample | xing | bit | sym => exact absurd (by simp [PassWord]) hother
    | diag => exact absurd trivial hill

end Sys2Proof.Machine

/-! 30_encoding.md R90 to R99 and 70_reset_and_hazards.md R292: sample words of the ten operations, and START after
reset. -/

namespace Sys2Proof

/-- Settles O5: each word is the one the encoder writes for its instruction. -/
theorem sampleWordsDecode : Obligations.SampleWordsDecode :=
  have hsample : encode (.sample (-30)) = ⟨0x50FFFFE2, 0, 0⟩ := by decide
  ⟨decodeOfEncode .nop rfl,
    decodeOfEncode .reset rfl,
    decodeOfEncode (.cfgwr 4 12) rfl,
    decodeOfEncode (.start .cat) rfl,
    decodeOfEncode .endOfStream rfl,
    hsample ▸ decodeOfEncode (.sample (-30)) rfl,
    decodeOfEncode (.xing .falling 19 9) (by decide),
    decodeOfEncode (.bit .x) rfl,
    decodeOfEncode (.sym (.letter .d)) rfl,
    decodeOfEncode (.diag 3 1) rfl⟩

end Sys2Proof

namespace Sys2Proof.Machine

/-! ### START after reset (R292) -/

theorem Cfg.sps_reset : Cfg.reset.sps = 0 := by
  have hnum : Cfg.reset.spsNum.toNat = 0 := rfl
  simp [Cfg.sps, quotient, hnum]

/-- At reset the four modes that need a parameter lack it: `SPB`, `SPS` and the carrier are 0. -/
theorem legal_reset_iff (m : Mode) : Cfg.reset.legal m = true ↔ m = .zcdOnly ∨ m = .sdOnly := by
  obtain ⟨-, -, hcat, -⟩ := configurationCheckPerMode Cfg.reset
  cases m with
  | cat =>
    simp [hcat, Cfg.sps_reset]
  | edge | synth | zcdOnly | etdOnly | sdOnly => decide

/-- Settles O20: START checks the reset configuration, which only ZCD_ONLY and SD_ONLY can run. -/
theorem startAfterReset : Obligations.StartAfterReset := by
  have hidle : State.reset.pipe.st ≠ .run := by decide
  refine ⟨fun m hm => ?_, fun m hm => ?_⟩
  · have hl : ¬ State.reset.cfg.legal m = true := by
      rw [show State.reset.cfg = Cfg.reset from rfl, legal_reset_iff]
      rintro (rfl | rfl) <;> simp at hm
    exact ⟨_, exec_start_configError hidle hl, rfl, rfl, rfl⟩
  · have hl : State.reset.cfg.legal m = true := (legal_reset_iff m).mpr (by simpa using hm)
    exact ⟨_, exec_start_accepted hidle hl, rfl, rfl⟩

end Sys2Proof.Machine

/-! The invariants `Inv` and the step. First the operations the next states are made of, each once: the counters and the
logs, tokens on `OUT`, the registers of the units, a register of the configuration, the start and the two ends of a pass.
Then every word as a composition of them. -/

namespace Sys2Proof.Machine

/-! ### Tokens with a word (30_encoding.md R80) -/

/-- What `Inv.out` says of one token. -/
def Token.HasWord : Token → Prop
  | .sample v => sampleInRange v = true
  | .xing x => 0 ≤ x.delta
  | _ => True

theorem Inv.hasWord {s : State} (h : Inv s) : ∀ x ∈ s.ch.out, x.HasWord := h.out

theorem Token.hasWord_append {l₁ l₂ : List Token} (h₁ : ∀ x ∈ l₁, x.HasWord) (h₂ : ∀ x ∈ l₂, x.HasWord) :
    ∀ x ∈ l₁ ++ l₂, x.HasWord :=
  List.forall_mem_append.mpr ⟨h₁, h₂⟩

/-- A crossing ZCD completes has a delta that is not negative: times only grow (41_zero_crossing_detector.md R145). -/
theorem delta_nonneg_of_onSample {z : Zcd} (hz : ZcdOk z) {v : Int} {x : Xing} (hx : (z.onSample v).2 = some x) :
    0 ≤ x.delta := by
  obtain ⟨-, hsome, -⟩ := zcdOk_onSample z hz v
  obtain ⟨-, -, -, -, hfirst, hlater⟩ := hsome x hx
  cases hX : z.haveX with
  | false => rw [hfirst hX]
  | true =>
    obtain ⟨hlt, hdelta, -⟩ := hlater hX
    rw [hdelta]
    exact sub_nonneg.mpr hlt.le

/-- A synthesized sample fits a word: it is at most the amplitude, which CFGWR keeps below `2^23` (R114). -/
theorem sampleInRange_of_mem_onSym {c : Cfg} (hc : CfgOk c) (p : Ps) (l : Letter) {v : Int}
    (hv : v ∈ (p.onSym c.psCarrier.toNat c.psRate.toNat c.psAmp.toNat l).2) : sampleInRange v = true := by
  obtain ⟨-, hamp⟩ := hc
  rw [Ps.onSym] at hv
  split at hv
  · obtain ⟨n, -, rfl⟩ := List.mem_map.mp hv
    have hle := abs_le.mp (cycleSampleIsBounded c.psAmp.toNat p.cur l
      ((n : ℚ) * ((c.psCarrier.toNat : ℚ) / (c.psRate.toNat : ℚ))))
    exact (sampleInRange_iff _).mpr (by omega)
  · simp at hv

/-! ### The registers of PIPE -/

theorem PassOk.cause_eq_none {s : State} (h : PassOk s) (hst : s.pipe.st ≠ .faulted) : s.pipe.cause = .none :=
  not_not.mp fun hc => hst (h.faulted_iff.mpr hc)

/-- Away from FAULTED there are no cause and no info, and only a running pass binds the configuration. -/
theorem passOk_of_not_faulted {s : State} (hst : s.pipe.st ≠ .faulted) (hcause : s.pipe.cause = .none)
    (hinfo : s.pipe.info = ⟨0, 0, 0, 0⟩) (hlegal : s.pipe.st = .run → s.cfg.legal s.pipe.mode = true)
    (hedge : s.pipe.mode = .edge → s.pipe.flags.badgrp = false ∧ s.sd.b1 ≠ .x) : PassOk s :=
  ⟨⟨fun h => absurd h hst, fun h => absurd hcause h⟩, fun _ => hinfo, fun h => absurd h hst, hlegal, hedge⟩

/-! ### The registers of CD (44_categorizing_demodulator.md R200, R201) -/

/-- A drain that meets a failure latches it under the number of its period, with a cause. -/
theorem Cd.drain_fatal {n : ℚ} (hn : ∀ sh, 1 ≤ pullCount n sh) {fuel : Nat} {c : Cd} {f : Fatal}
    (h : (c.drain n fuel).fatal = some f) (hfuel : c.q.length ≤ fuel) :
    f.info.period = (c.drain n fuel).regs.period ∧ f.cause ≠ .none := by
  obtain ⟨hlatched, -⟩ := drain_spec n hn fuel c hfuel
  exact hlatched f h

/-- What a failure at CD latches (60_exceptions.md R271). -/
theorem Cd.onSample_fatal {n : ℚ} (hn : ∀ sh, 1 ≤ pullCount n sh) {c : Cd} {v : Int} {f : Fatal}
    (h : (c.onSample n v).fatal = some f) : f.info.period = (c.onSample n v).regs.period ∧ f.cause ≠ .none := by
  cases hph : c.ph with
  | seek =>
    rcases le_or_gt v 50 with hv | hv
    · simp [onSample_seek_stays hph hv] at h
    · simp [onSample_seek_ends hph hv] at h
  | climb =>
    rcases le_or_gt c.prev v with hv | hv
    · simp [onSample_climb_continues hph hv] at h
    · rw [onSample_climb_ends hph hv] at h ⊢
      exact drain_fatal hn h le_rfl
  | decode =>
    rw [onSample_decode hph] at h ⊢
    exact drain_fatal hn h le_rfl

/-- `CdOk` reads the configuration and CD. -/
theorem CdOk.congr {s t : State} (h : CdOk s) (hcfg : t.cfg = s.cfg) (hcd : t.cd = s.cd) : CdOk t where
  seek := by simpa only [hcfg, hcd] using h.seek
  climb := by simpa only [hcfg, hcd] using h.climb
  automatic := by simpa only [hcfg, hcd] using h.automatic
  manual := by simpa only [hcfg, hcd] using h.manual
  partial_period := by simpa only [hcfg, hcd] using h.partial_period

/-- In SEEK and CLIMB nothing was decoded, so the thresholds and the queue are bound by nothing. -/
theorem CdOk.of_scan {s : State} (hph : s.cd.ph ≠ .decode)
    (hseek : s.cd.ph = .seek → s.cfg.manual = false ∧ s.cd.period = 0 ∧ s.cd.shift = .zero ∧ ∀ v ∈ s.cd.q, v ≤ 50)
    (hclimb : s.cd.ph = .climb → s.cfg.manual = false ∧ s.cd.period = 0 ∧ s.cd.shift = .zero ∧ 50 < s.cd.prev ∧
      s.cd.q.getLast? = some s.cd.prev) : CdOk s :=
  ⟨hseek, hclimb, fun h => absurd h hph, fun h => absurd h hph, fun h => absurd h hph⟩

/-- The thresholds CD decodes with are the manual ones, or those of the peak (R196). -/
def ThresholdsOk (cfg : Cfg) (c : Cd) : Prop :=
  (cfg.manual = false → 50 < c.peak ∧ c.high = 7 / 10 * (c.peak : ℚ) ∧ c.low = 1 / 2 * (c.peak : ℚ)) ∧
  (cfg.manual = true → c.high = cfg.high ∧ c.low = cfg.low)

theorem CdOk.of_decode {s : State} (hph : s.cd.ph = .decode) (hthr : ThresholdsOk s.cfg s.cd)
    (hq : (s.cd.q.length : Int) < pullCount s.cfg.sps s.cd.shift) : CdOk s where
  seek h := by simp [hph] at h
  climb h := by simp [hph] at h
  automatic _ := hthr.1
  manual _ := hthr.2
  partial_period _ := hq

/-- A drain without a failure leaves less than a period and keeps the thresholds. -/
theorem cdOk_drain {s : State} {c : Cd} {fuel : Nat} (hn : ∀ sh, 1 ≤ pullCount s.cfg.sps sh) (hph : c.ph = .decode)
    (hthr : ThresholdsOk s.cfg c) (hfatal : (c.drain s.cfg.sps fuel).fatal = none) (hfuel : c.q.length ≤ fuel) :
    CdOk { s with cd := (c.drain s.cfg.sps fuel).regs } := by
  obtain ⟨-, hq, hph', hhigh, hlow, hpeak⟩ := drain_spec s.cfg.sps hn fuel c hfuel
  refine .of_decode (hph'.trans hph) ?_ (hq hfatal)
  simpa only [ThresholdsOk, hhigh, hlow, hpeak] using hthr

/-- A sample at which no period fails keeps the registers of CD good, by phase. -/
theorem cdOk_onSample {s : State} (h : CdOk s) (hn : ∀ sh, 1 ≤ pullCount s.cfg.sps sh) {v : Int}
    (hfatal : (s.cd.onSample s.cfg.sps v).fatal = none) :
    CdOk { s with cd := (s.cd.onSample s.cfg.sps v).regs } := by
  cases hph : s.cd.ph with
  | seek =>
    obtain ⟨hman, hperiod, hshift, hq⟩ := h.seek hph
    rcases le_or_gt v 50 with hv | hv
    · rw [Cd.onSample_seek_stays hph hv]
      refine .of_scan (by simp [hph]) (fun _ => ⟨hman, hperiod, hshift, ?_⟩) (by simp [hph])
      simpa [or_imp, forall_and] using ⟨hq, hv⟩
    · rw [Cd.onSample_seek_ends hph hv]
      exact .of_scan (by simp) (by simp) fun _ => ⟨hman, hperiod, hshift, hv, by simp⟩
  | climb =>
    obtain ⟨hman, hperiod, hshift, hprev, -⟩ := h.climb hph
    rcases le_or_gt s.cd.prev v with hv | hv
    · rw [Cd.onSample_climb_continues hph hv]
      exact .of_scan (by simp [hph]) (by simp [hph]) fun _ =>
        ⟨hman, hperiod, hshift, hprev.trans_le hv, by simp⟩
    · rw [Cd.onSample_climb_ends hph hv] at hfatal ⊢
      exact cdOk_drain hn rfl ⟨fun _ => ⟨hprev, rfl, rfl⟩, by simp [hman]⟩ hfatal le_rfl
  | decode =>
    rw [Cd.onSample_decode hph] at hfatal ⊢
    exact cdOk_drain hn hph ⟨h.automatic hph, h.manual hph⟩ hfatal le_rfl

/-- A pass in mode CAT starts in SEEK, or in DECODE with the manual thresholds (40_pipeline_control.md R116). -/
theorem cdOk_atStart {s : State} (hl : s.cfg.legal .cat = true) (hcd : s.cd = Cd.atStart s.cfg .cat) : CdOk s := by
  cases hman : s.cfg.manual with
  | false =>
    have hreset : s.cd = Cd.reset := by simp [hcd, Cd.atStart, hman]
    exact .of_scan (by simp [hreset, Cd.reset]) (by simp [hreset, Cd.reset, hman]) (by simp [hreset, Cd.reset])
  | true =>
    have hdecode : s.cd = { Cd.reset with ph := .decode, high := s.cfg.high, low := s.cfg.low } := by
      simp [hcd, Cd.atStart, hman]
    have hpull := two_le_pullCount hl s.cd.shift
    refine .of_decode (by rw [hdecode]) ⟨by simp [hman], fun _ => by simp [hdecode]⟩ ?_
    have hq : s.cd.q = [] := by rw [hdecode]; rfl
    rw [hq, List.length_nil]
    omega

/-! ### The operations that keep the invariants -/

section Operations

variable {s : State} (hs : Inv s)

include hs

/-- The count, the flags, `IN`, the taps and `DIAG` are free, but for BADGRP in mode EDGE; a token of `OUT` needs a word. -/
theorem Inv.setPorts (n : Nat) {f : Flags} (hf : s.pipe.mode = .edge → f.badgrp = s.pipe.flags.badgrp)
    (inp : List PortWord) {out : List Token} (hout : ∀ x ∈ out, x.HasWord) (tapX : List (Item Xing))
    (tapB : List (Item BitVal)) (diag : List Diag) :
    Inv { s with
      pipe := { s.pipe with wc := n, flags := f }
      ch := { s.ch with inp := inp, out := out, tapX := tapX, tapB := tapB, diag := diag } } where
  drained := hs.drained
  cfg := hs.cfg
  pass :=
    { faulted_iff := hs.pass.faulted_iff
      info_clear := hs.pass.info_clear
      faulted_cat := hs.pass.faulted_cat
      run_legal := hs.pass.run_legal
      edge_binary := fun hm => (hf hm).symm ▸ hs.pass.edge_binary hm }
  units := ⟨hs.units.zcd, hs.units.etd, hs.units.sd, hs.units.cd, hs.units.ps, hs.units.idle⟩
  zcd := hs.zcd
  sd := hs.sd
  cd hrun hm := (hs.cd hrun hm).congr rfl rfl
  out := hout

theorem Inv.counted : Inv s.counted := hs.setPorts _ (fun _ => rfl) _ hs.hasWord _ _ _

theorem Inv.afterRefusal : Inv s.afterRefusal :=
  hs.setPorts (f := { s.pipe.flags with illop := true }) _ (fun _ => rfl) _ hs.hasWord _ _ _

theorem Inv.takeWord (rest : List PortWord) : Inv { s with ch := { s.ch with inp := rest } } :=
  hs.setPorts _ (fun _ => rfl) _ hs.hasWord _ _ _

/-- A register of the configuration may change while no pass runs. -/
theorem Inv.setCfg (hrun : s.pipe.st ≠ .run) {c : Cfg} (hc : CfgOk c) : Inv { s with cfg := c } where
  drained := hs.drained
  cfg := hc
  pass :=
    { faulted_iff := hs.pass.faulted_iff
      info_clear := hs.pass.info_clear
      faulted_cat := hs.pass.faulted_cat
      run_legal := fun h => absurd h hrun
      edge_binary := hs.pass.edge_binary }
  units := ⟨hs.units.zcd, hs.units.etd, hs.units.sd, hs.units.cd, hs.units.ps, hs.units.idle⟩
  zcd := hs.zcd
  sd := hs.sd
  cd h := absurd h hrun
  out := hs.out

/-- The start of a pass puts every unit at its start values (40_pipeline_control.md R116). -/
theorem Inv.beginPass {m : Mode} (hl : s.cfg.legal m = true) : Inv (s.beginPass m) where
  drained := hs.drained
  cfg := hs.cfg
  pass := passOk_of_not_faulted nofun rfl rfl (fun _ => hl) fun _ => ⟨rfl, nofun⟩
  units :=
    { zcd := fun _ => rfl
      etd := fun _ => rfl
      sd := fun _ => rfl
      cd := fun h => if_neg fun ⟨hm, _⟩ => h (by simp [hm, modePath])
      ps := fun _ => rfl
      idle := nofun }
  zcd := zcdOk_reset
  sd := sdOk_reset
  cd _ hm := by
    obtain rfl : m = .cat := hm
    exact cdOk_atStart hl rfl
  out := hs.out

/-- Trap entry in mode CAT, with the registers CD has then (60_exceptions.md R270). -/
theorem Inv.stopPass (hm : s.pipe.mode = .cat) {f : Fatal} {d : Cd} (hcause : f.cause ≠ .none)
    (hperiod : f.info.period = d.period) :
    Inv { s with pipe := { s.pipe with st := .faulted, cause := f.cause, info := f.info }, cd := d } where
  drained := hs.drained
  cfg := hs.cfg
  pass :=
    { faulted_iff := ⟨fun _ => hcause, fun _ => rfl⟩
      info_clear := fun h => absurd h hcause
      faulted_cat := fun _ => ⟨hm, hperiod⟩
      run_legal := nofun
      edge_binary := by simp [hm] }
  units := ⟨hs.units.zcd, hs.units.etd, hs.units.sd, by simp [hm, modePath], hs.units.ps, nofun⟩
  zcd := hs.zcd
  sd := hs.sd
  cd := nofun
  out := hs.out

variable (hrun : s.pipe.st = .run)

include hrun

theorem Inv.cause_of_run : s.pipe.cause = .none := hs.pass.cause_eq_none (by simp [hrun])

/-- In a running pass the units on its path may change, as long as what they hold is good. -/
theorem Inv.setUnits {z : Zcd} {e : Etd} {d : Sd} {c : Cd} {p : Ps} (hz : ZcdOk z) (hd : SdOk d)
    (hedge : s.pipe.mode = .edge → d.b1 ≠ .x) (hc : s.pipe.mode = .cat → CdOk { s with cd := c })
    (hzcd : UnitId.zcd ∉ modePath s.pipe.mode → z = Zcd.reset)
    (hetd : UnitId.etd ∉ modePath s.pipe.mode → e = Etd.reset)
    (hsd : UnitId.sd ∉ modePath s.pipe.mode → d = Sd.reset)
    (hcd : UnitId.cd ∉ modePath s.pipe.mode → c = Cd.reset)
    (hps : UnitId.ps ∉ modePath s.pipe.mode → p = Ps.reset) :
    Inv { s with zcd := z, etd := e, sd := d, cd := c, ps := p } where
  drained := hs.drained
  cfg := hs.cfg
  pass := passOk_of_not_faulted (by simp [hrun]) (hs.cause_of_run hrun) (hs.pass.info_clear (hs.cause_of_run hrun))
    hs.pass.run_legal fun hm => have ⟨hflag, _⟩ := hs.pass.edge_binary hm; ⟨hflag, hedge hm⟩
  units := ⟨hzcd, hetd, hsd, hcd, hps, by simp [hrun]⟩
  zcd := hz
  sd := hd
  cd _ hm := (hc hm).congr rfl rfl
  out := hs.out

/-- END: the pass is DONE, and CD drops its queue (44_categorizing_demodulator.md R215). -/
theorem Inv.endPass : Inv { s with
    pipe := { s.pipe with st := .done }
    cd := if s.pipe.mode = .cat then { s.cd with q := [] } else s.cd } where
  drained := hs.drained
  cfg := hs.cfg
  pass := passOk_of_not_faulted nofun (hs.cause_of_run hrun) (hs.pass.info_clear (hs.cause_of_run hrun)) nofun
    hs.pass.edge_binary
  units :=
    { zcd := hs.units.zcd
      etd := hs.units.etd
      sd := hs.units.sd
      cd := fun h => (if_neg fun hm => h (by simp [hm, modePath])).trans (hs.units.cd h)
      ps := hs.units.ps
      idle := nofun }
  zcd := hs.zcd
  sd := hs.sd
  cd := nofun
  out := hs.out

end Operations

/-! ### The words -/

/-- CFGWR takes only values that keep the registers legal (10_state.md R40, 40_pipeline_control.md R114). -/
theorem cfgOk_write {c : Cfg} (hc : CfgOk c) {n : BitVec 4} {val : BitVec 24} (hw : cfgWritable n val = true) :
    CfgOk (c.write n val) := by
  obtain ⟨hn, hthr, hamp⟩ := (cfgWritable_iff n val).mp hw
  have hread (k : BitVec 4) {b : Nat} (hold : (c.read k).toNat ≤ b) (hnew : n = k → val.toNat ≤ b) :
      ((c.write n val).read k).toNat ≤ b := by
    by_cases hk : n = k
    · rw [← hk, c.read_write_self n val hn]
      exact hnew hk
    · rwa [c.read_write_of_ne val (Ne.symm hk)]
  obtain ⟨hthr₀, hamp₀⟩ := hc
  exact ⟨hread 6 hthr₀ fun h => hthr (by simp [h]), hread 12 hamp₀ fun h => hamp (by simp [h])⟩

section Words

variable {s t : State} (hs : Inv s)

include hs

theorem inv_exec_start {m : Mode} (hst : s.pipe.st ≠ .run) (he : exec (.start m) s = .next t) : Inv t := by
  by_cases hl : s.cfg.legal m = true
  · obtain rfl := Host.Outcome.next.inj ((exec_start_accepted hst hl).symm.trans he)
    exact hs.counted.beginPass hl
  · obtain rfl := Host.Outcome.next.inj ((exec_start_configError hst hl).symm.trans he)
    exact hs.setPorts (f := { s.pipe.flags with cfgerr := true }) _ (fun _ => rfl) _ hs.hasWord _ _ _

variable (hrun : s.pipe.st = .run)

include hrun

theorem inv_exec_endOfStream (he : exec .endOfStream s = .next t) : Inv t := by
  obtain ⟨-, hend⟩ := endClosesThePass s
  obtain rfl := Host.Outcome.next.inj ((hend hrun hs.drained).symm.trans he)
  have hfin : ∀ x ∈ [Token.fin], x.HasWord := by simp [Token.HasWord]
  exact (hs.endPass hrun).setPorts _ (fun _ => rfl) _ (Token.hasWord_append hs.hasWord hfin) _ _ _

theorem inv_exec_sample_zcdOnly {v : Int} (hm : s.pipe.mode = .zcdOnly) (he : exec (.sample v) s = .next t) : Inv t := by
  obtain rfl := Host.Outcome.next.inj ((sampleInZcdOnly v s hs.drained hrun hm).symm.trans he)
  obtain ⟨hzcd, -⟩ := zcdOk_onSample s.zcd hs.zcd v
  have hunits := hs.setUnits hrun hzcd hs.sd (by simp [hm]) (by simp [hm]) (by simp [hm, modePath]) hs.units.etd
    hs.units.sd hs.units.cd hs.units.ps
  have hout : ∀ x ∈ (s.zcd.onSample v).2.toList.map Token.xing, x.HasWord :=
    List.forall_mem_map.mpr fun x hx => delta_nonneg_of_onSample hs.zcd (Option.mem_toList.mp hx)
  exact hunits.setPorts _ (fun _ => rfl) _ (Token.hasWord_append hs.hasWord hout) _ _ _

/-- In mode EDGE a sample that completes a crossing moves all three units, SD over binary bits (R123). -/
theorem inv_exec_sample_edge {v : Int} (hm : s.pipe.mode = .edge) (he : exec (.sample v) s = .next t) : Inv t := by
  obtain ⟨hzcd, -⟩ := zcdOk_onSample s.zcd hs.zcd v
  obtain ⟨-, hbinary⟩ := hs.pass.edge_binary hm
  cases hx : (s.zcd.onSample v).2 with
  | none =>
    have hquiet := (exec_sample_edge v hrun hm).trans
      (congrArg _ (settle_edge_quiet s.countWord v hs.drained hx))
    obtain rfl := Host.Outcome.next.inj (hquiet.symm.trans he)
    exact (hs.setUnits hrun hzcd hs.sd (fun _ => hbinary) (by simp [hm]) (by simp [hm, modePath]) hs.units.etd
      hs.units.sd hs.units.cd hs.units.ps).counted
  | some x =>
    obtain rfl := Host.Outcome.next.inj ((sampleCrossingInEdge v s x hs.drained hrun hm hbinary hx).symm.trans he)
    have hbits := etdBits_ne_x s.cfg.spb x
    have hunits := hs.setUnits (e := ⟨s.etd.seq + 1⟩) hrun hzcd (sdOk_after (etdBits s.cfg.spb x) s.sd hs.sd)
      (fun _ => sdAfter_binary _ _ hbinary hbits) (by simp [hm]) (by simp [hm, modePath]) (by simp [hm, modePath])
      (by simp [hm, modePath]) hs.units.cd hs.units.ps
    have hout : ∀ y ∈ (sdStream s.sd (etdBits s.cfg.spb x)).map Token.sym, y.HasWord :=
      List.forall_mem_map.mpr fun _ _ => trivial
    exact hunits.setPorts
      (f := { s.pipe.flags with unc := s.pipe.flags.unc || uncertain s.cfg.spb s.cfg.mu x.delta })
      _ (fun _ => rfl) _ (Token.hasWord_append hs.hasWord hout) _ _ _

theorem inv_exec_sample_cat {v : Int} (hm : s.pipe.mode = .cat) (he : exec (.sample v) s = .next t) : Inv t := by
  have hlegal : s.cfg.legal .cat = true := hm ▸ hs.pass.run_legal hrun
  have hpull (sh : Shift) : 1 ≤ pullCount s.cfg.sps sh := one_le_two.trans (two_le_pullCount hlegal sh)
  have hout : ∀ x ∈ (s.cd.onSample s.cfg.sps v).syms.map (fun k => Token.sym (.letter k)), x.HasWord :=
    List.forall_mem_map.mpr fun _ _ => trivial
  cases hf : (s.cd.onSample s.cfg.sps v).fatal with
  | none =>
    obtain rfl := Host.Outcome.next.inj
      ((exec_sample_cat_of_onSample hs.drained hrun hm (by rw [← hf])).symm.trans he)
    have hunits := hs.setUnits hrun hs.zcd hs.sd (by simp [hm]) (fun _ => cdOk_onSample (hs.cd hrun hm) hpull hf)
      hs.units.zcd hs.units.etd hs.units.sd (by simp [hm, modePath]) hs.units.ps
    exact hunits.setPorts _ (fun _ => rfl) _ (Token.hasWord_append hs.hasWord hout) _ _ _
  | some f =>
    obtain ⟨hperiod, hcause⟩ := Cd.onSample_fatal hpull hf
    have hstop := (exec_sample_cat_of_fatal hs.drained hrun hm (by rw [← hf])).trans
      (congrArg _ (raiseFatal_of_internalEmpty f hs.drained))
    obtain rfl := Host.Outcome.next.inj (hstop.symm.trans he)
    exact (hs.stopPass hm hcause hperiod).setPorts _ (fun _ => rfl) _ (Token.hasWord_append hs.hasWord hout) _ _ _

theorem inv_exec_xing {d : Dir} {time delta : ℚ} (hm : s.pipe.mode = .etdOnly)
    (he : exec (.xing d time delta) s = .next t) : Inv t := by
  have hedge : s.pipe.mode ≠ .edge := by simp [hm]
  rw [exec_xing_etdOnly d time delta s hs.drained hrun hm, etdRule_tok] at he
  simp only [State.countWord_mode, hedge, if_false, List.append_nil] at he
  obtain rfl := Host.Outcome.next.inj he
  have hunits := hs.setUnits (e := ⟨s.etd.seq + 1⟩) hrun hs.zcd hs.sd (by simp [hm]) (by simp [hm]) hs.units.zcd
    (by simp [hm, modePath]) hs.units.sd hs.units.cd hs.units.ps
  have hout : ∀ x ∈ (etdBits s.cfg.spb ⟨d, time, delta⟩).map Token.bit, x.HasWord :=
    List.forall_mem_map.mpr fun _ _ => trivial
  exact hunits.setPorts
    (f := { s.pipe.flags with unc := s.pipe.flags.unc || uncertain s.cfg.spb s.cfg.mu delta })
    _ (fun _ => rfl) _ (Token.hasWord_append hs.hasWord hout) _ _ _

theorem inv_exec_bit {b : BitVal} (hm : s.pipe.mode = .sdOnly) (he : exec (.bit b) s = .next t) : Inv t := by
  rw [exec_bit_sdOnly b s hs.drained hrun hm, sdRule_tok] at he
  obtain rfl := Host.Outcome.next.inj he
  have hunits := hs.setUnits hrun hs.zcd (sdOk_onBit s.sd b hs.sd) (by simp [hm]) (by simp [hm]) hs.units.zcd
    hs.units.etd (by simp [hm, modePath]) hs.units.cd hs.units.ps
  have hout : ∀ x ∈ (s.sd.onBit b).2.toList.map Token.sym, x.HasWord := List.forall_mem_map.mpr fun _ _ => trivial
  exact hunits.setPorts
    (f := { s.pipe.flags with badgrp := s.pipe.flags.badgrp || decide ((s.sd.onBit b).2 = some .undec) })
    _ (by simp [hm]) _ (Token.hasWord_append hs.hasWord hout) _ _ _

theorem inv_exec_sym {l : Letter} (hm : s.pipe.mode = .synth) (he : exec (.sym (.letter l)) s = .next t) : Inv t := by
  obtain rfl := Host.Outcome.next.inj ((exec_sym_synth_eq l hs.drained hrun hm).symm.trans he)
  have hunits := hs.setUnits (p := (s.ps.onSym s.cfg.psCarrier.toNat s.cfg.psRate.toNat s.cfg.psAmp.toNat l).1) hrun
    hs.zcd hs.sd (by simp [hm]) (by simp [hm]) hs.units.zcd hs.units.etd hs.units.sd hs.units.cd (by simp [hm, modePath])
  have hout : ∀ x ∈ (s.ps.onSym s.cfg.psCarrier.toNat s.cfg.psRate.toNat s.cfg.psAmp.toNat l).2.map Token.sample,
      x.HasWord :=
    List.forall_mem_map.mpr fun _ hv => sampleInRange_of_mem_onSym hs.cfg s.ps l hv
  exact hunits.setPorts _ (fun _ => rfl) _ (Token.hasWord_append hs.hasWord hout) _ _ _

end Words

/-- A word the block does not refuse keeps the invariants. -/
theorem inv_exec_legal {i : Instr} {s t : State} (hs : Inv s) (hlegal : ¬ illegalNow s i) (he : exec i s = .next t) :
    Inv t := by
  cases i with
  | nop =>
    obtain rfl := Host.Outcome.next.inj he
    exact hs.counted
  | reset =>
    obtain rfl := Host.Outcome.next.inj he
    exact invariantsAtReset.takeWord s.ch.inp
  | cfgwr n val =>
    obtain ⟨hrun, hvalue⟩ := not_or.mp hlegal
    have hw : cfgWritable n val = true := by_contra fun h => hvalue ((not_cfgWritable_iff n val).mp h)
    obtain rfl := Host.Outcome.next.inj ((exec_cfgwr_accepted hrun hw).symm.trans he)
    exact hs.counted.setCfg hrun (cfgOk_write hs.cfg hw)
  | start m => exact inv_exec_start hs hlegal he
  | endOfStream => exact inv_exec_endOfStream hs (not_not.mp hlegal) he
  | sample v =>
    obtain ⟨hrun, hmode⟩ := not_not.mp hlegal
    obtain hm | hm | hm : s.pipe.mode = .edge ∨ s.pipe.mode = .cat ∨ s.pipe.mode = .zcdOnly := by simpa using hmode
    · exact inv_exec_sample_edge hs hrun hm he
    · exact inv_exec_sample_cat hs hrun hm he
    · exact inv_exec_sample_zcdOnly hs hrun hm he
  | xing d time delta =>
    obtain ⟨hrun, hmode⟩ := not_not.mp hlegal
    exact inv_exec_xing hs hrun (List.mem_singleton.mp hmode) he
  | bit b =>
    obtain ⟨hrun, hmode⟩ := not_not.mp hlegal
    exact inv_exec_bit hs hrun (List.mem_singleton.mp hmode) he
  | sym y =>
    cases y with
    | letter l =>
      obtain ⟨hrun, hmode⟩ := not_not.mp hlegal
      exact inv_exec_sym hs hrun (List.mem_singleton.mp hmode) he
    | undec => exact absurd trivial hlegal
  | diag kind seq => exact absurd trivial hlegal

theorem inv_exec {i : Instr} {s t : State} (hs : Inv s) (he : exec i s = .next t) : Inv t := by
  by_cases hillegal : illegalNow s i
  · obtain rfl := Host.Outcome.next.inj ((illegalWordIsRefused i s hillegal).symm.trans he)
    exact hs.afterRefusal
  · exact inv_exec_legal hs hillegal he

/-- Settles O52: a state with the invariants is drained, so a step without a word changes nothing, and one with a word
takes it and refuses or executes it. -/
theorem invariantsKeptByStep : Obligations.InvariantsKeptByStep := by
  intro s t hs he
  obtain ⟨hwaiting, -⟩ | ⟨-, -, rfl⟩ | ⟨-, p, rest, -, ⟨e, -, rfl⟩ | ⟨i, -, hex⟩⟩ := step_cases he
  · simp [hs.drained] at hwaiting
  · exact hs
  · exact (hs.takeWord rest).afterRefusal
  · exact inv_exec (hs.takeWord rest) hex

end Sys2Proof.Machine
